-- ==== Sys2Proof/Word.lean ====
section
/-! DEFINITION. The word types of the engine: XLEN = ILEN = ALEN = 32 (R5, R6), a byte is 8 bits (R60). -/

namespace Sys2Proof

/-- One byte of memory (R60). -/
abbrev Byte := BitVec 8

/-- The contents of a register cell and an instruction word: `XLEN = ILEN = 32` bits (R5). -/
abbrev Word := BitVec 32

/-- A byte address: `ALEN = 32` bits; address arithmetic is modulo 2^32 (R6, R60). -/
abbrev Addr := BitVec 32

/-- A 5-bit register field; value i selects cell `x<i>` (R92, R100). -/
abbrev Reg := BitVec 5

end Sys2Proof
end

