-- ==== Sys2Proof/Syntax.lean ====
section
/-! DEFINITION. The instructions as syntax: one constructor for each of the six rows of spec/opcode_table.json
(R103). The illegal instruction and a load's child have no row and no encoding: they are decoded records
(Machine/Record.lean), not constructors here. -/

namespace Sys2Proof

/-- The six instructions (R103), with the fields of their words: 5-bit register fields, the 12-bit immediate of
the I and S formats (R94, R95), the 21-bit J-immediate (R96, R101). -/
inductive Instr
  /-- `add rd, rs1, rs2` (R165). -/
  | add (rd rs1 rs2 : Reg)
  /-- `addi rd, rs1, imm` (R166). -/
  | addi (rd rs1 : Reg) (imm : BitVec 12)
  /-- `lw rd, imm(rs1)` (R173). -/
  | lw (rd rs1 : Reg) (imm : BitVec 12)
  /-- `sw rs2, imm(rs1)` (R174): `rs1` is the base, `rs2` the value stored. -/
  | sw (rs1 rs2 : Reg) (imm : BitVec 12)
  /-- `jal rd, target` (R168): `imm` is the J-immediate, the target's distance from the `jal` itself. -/
  | jal (rd : Reg) (imm : BitVec 21)
  /-- `ebreak` (R176). -/
  | ebreak
  deriving DecidableEq, Repr

end Sys2Proof
end

