-- ==== Sys2Proof/WellFormed.lean ====
section
/-! DEFINITION. Which terms of the syntax are instructions: the field types hold every bound but one, that bit 0 of
a J-immediate is 0 (R101: "a 21-bit value whose bit 0 is always 0"). -/

namespace Sys2Proof

/-- The term stands for an instruction some word encodes (R101, R103). -/
def wellFormed : Instr → Bool
  | .add _ _ _ => true
  | .addi _ _ _ => true
  | .lw _ _ _ => true
  | .sw _ _ _ => true
  | .jal _ imm => !imm.getLsbD 0
  | .ebreak => true

end Sys2Proof
end

