-- ==== Sys2Proof/Decode.lean ====
section
/-! DEFINITION. Instruction words: byte order (R66, R91), the immediates (R101), the default decoder DEC6 (R103),
total on any bytes and rejecting by name, and the encoder written from the same formats (R93 to R96). Every bit
position here is the spec's, which marks them as general knowledge bound by D1. -/

namespace Sys2Proof

/-! ## Byte order -/

/-- `le32(b)` is `b[3] ++ b[2] ++ b[1] ++ b[0]` (R11, R66). -/
def le32 (b : List Byte) : Word :=
  (b.getD 3 0 ++ b.getD 2 0 ++ b.getD 1 0 ++ b.getD 0 0 : BitVec (8 + 8 + 8 + 8))

/-- `bytes_le32(v)`: byte k is `v[8k+7:8k]` (R11, R66). -/
def bytesLe32 (v : Word) : List Byte :=
  [v.extractLsb' 0 8, v.extractLsb' 8 8, v.extractLsb' 16 8, v.extractLsb' 24 8]

/-! ## Fields and immediates -/

/-- `rd = w[11:7]` (R92). -/
def fieldRd (w : Word) : Reg := w.extractLsb' 7 5

/-- `rs1 = w[19:15]` (R92). -/
def fieldRs1 (w : Word) : Reg := w.extractLsb' 15 5

/-- `rs2 = w[24:20]` (R92). -/
def fieldRs2 (w : Word) : Reg := w.extractLsb' 20 5

/-- The 12-bit field of the I format, `w[31:20]` (R94). -/
def fieldI (w : Word) : BitVec 12 := w.extractLsb' 20 12

/-- The 12-bit field of the S format, `w[31:25] ++ w[11:7]` (R95). -/
def fieldS (w : Word) : BitVec 12 := (w.extractLsb' 25 7 ++ w.extractLsb' 7 5 : BitVec (7 + 5))

/-- The 21-bit J-immediate, `w[31] ++ w[19:12] ++ w[20] ++ w[30:21] ++ 0` (R96, R101). -/
def fieldJ (w : Word) : BitVec 21 :=
  (w.extractLsb' 31 1 ++ w.extractLsb' 12 8 ++ w.extractLsb' 20 1 ++ w.extractLsb' 21 10 ++ 0#1
    : BitVec (1 + 8 + 1 + 10 + 1))

/-- `sext_32` of a 12-bit immediate: the I- and S-immediates (R10, R101). -/
def sext12 (imm : BitVec 12) : Word := imm.signExtend 32

/-- `sext_32` of the 21-bit J-immediate (R10, R101). -/
def sext21 (imm : BitVec 21) : Word := imm.signExtend 32

/-! ## The opcode table -/

/-- One row of R103's table: the row matches `w` when `w AND mask = pattern`. -/
structure OpcodeRow where
  mnemonic : String
  mask : Word
  pattern : Word
  deriving DecidableEq, Repr

/-- The row of `add` (R103). -/
def rowAdd : OpcodeRow := ⟨"add", 0xFE00707F, 0x00000033⟩
/-- The row of `addi` (R103). -/
def rowAddi : OpcodeRow := ⟨"addi", 0x0000707F, 0x00000013⟩
/-- The row of `lw` (R103). -/
def rowLw : OpcodeRow := ⟨"lw", 0x0000707F, 0x00002003⟩
/-- The row of `sw` (R103). -/
def rowSw : OpcodeRow := ⟨"sw", 0x0000707F, 0x00002023⟩
/-- The row of `jal` (R103). -/
def rowJal : OpcodeRow := ⟨"jal", 0x0000007F, 0x0000006F⟩
/-- The row of `ebreak` (R103). -/
def rowEbreak : OpcodeRow := ⟨"ebreak", 0xFFFFFFFF, 0x00100073⟩

/-- The table of R103, all six rows. -/
def opcodeTable : List OpcodeRow := [rowAdd, rowAddi, rowLw, rowSw, rowJal, rowEbreak]

/-- "the row matches when `w AND mask = match`" (R103). -/
def OpcodeRow.accepts (r : OpcodeRow) (w : Word) : Bool := w &&& r.mask == r.pattern

/-- The row an instruction is encoded by. -/
def rowOf : Instr → OpcodeRow
  | .add _ _ _ => rowAdd
  | .addi _ _ _ => rowAddi
  | .lw _ _ _ => rowLw
  | .sw _ _ _ => rowSw
  | .jal _ _ => rowJal
  | .ebreak => rowEbreak

/-! ## The decoder -/

/-- Why bytes are no instruction. -/
inductive Reject
  /-- The word matches no row of R103: it is illegal (R105). -/
  | unrecognised (w : Word)
  /-- Fewer than the four bytes of an instruction word (R90). -/
  | truncated
  deriving DecidableEq, Repr

/-- DEC6 on a word (R103): the rows are pairwise disjoint, so their order does not matter. -/
def decode (w : Word) : Except Reject Instr :=
  if rowAdd.accepts w then .ok (.add (fieldRd w) (fieldRs1 w) (fieldRs2 w))
  else if rowAddi.accepts w then .ok (.addi (fieldRd w) (fieldRs1 w) (fieldI w))
  else if rowLw.accepts w then .ok (.lw (fieldRd w) (fieldRs1 w) (fieldI w))
  else if rowSw.accepts w then .ok (.sw (fieldRs1 w) (fieldRs2 w) (fieldS w))
  else if rowJal.accepts w then .ok (.jal (fieldRd w) (fieldJ w))
  else if rowEbreak.accepts w then .ok .ebreak
  else .error (.unrecognised w)

/-- DEC6 on bytes as they lie in memory: the first four, least significant first (R90, R91), with the rest. -/
def decodeBytes : List Byte → Except Reject (Instr × List Byte)
  | b0 :: b1 :: b2 :: b3 :: rest =>
    match decode (le32 [b0, b1, b2, b3]) with
    | .ok i => .ok (i, rest)
    | .error e => .error e
  | _ => .error .truncated

/-- The word of a table row whose bits are `w`, of which the table gives `nbits`; the bits above are 0. -/
def tableWord (nbits w : Nat) : Word := BitVec.ofNat 32 (w % 2 ^ nbits)

/-- What the decoder reads from the instruction whose bits are `w`, laid out in memory as R91 says. -/
def decodeTableWord (nbits w : Nat) : Option Instr :=
  match decodeBytes (bytesLe32 (tableWord nbits w)) with
  | .ok (i, _) => some i
  | .error _ => none

/-! ## The encoder -/

/-- R format: `funct7 ++ rs2 ++ rs1 ++ funct3 ++ rd ++ opcode` (R93). -/
def formatR (funct7 : BitVec 7) (rs2 rs1 : Reg) (funct3 : BitVec 3) (rd : Reg) (opcode : BitVec 7) : Word :=
  (funct7 ++ rs2 ++ rs1 ++ funct3 ++ rd ++ opcode : BitVec (7 + 5 + 5 + 3 + 5 + 7))

/-- I format: `imm[11:0] ++ rs1 ++ funct3 ++ rd ++ opcode` (R94). -/
def formatI (imm : BitVec 12) (rs1 : Reg) (funct3 : BitVec 3) (rd : Reg) (opcode : BitVec 7) : Word :=
  (imm ++ rs1 ++ funct3 ++ rd ++ opcode : BitVec (12 + 5 + 3 + 5 + 7))

/-- S format: `imm[11:5] ++ rs2 ++ rs1 ++ funct3 ++ imm[4:0] ++ opcode` (R95). -/
def formatS (imm : BitVec 12) (rs2 rs1 : Reg) (funct3 : BitVec 3) (opcode : BitVec 7) : Word :=
  (imm.extractLsb' 5 7 ++ rs2 ++ rs1 ++ funct3 ++ imm.extractLsb' 0 5 ++ opcode : BitVec (7 + 5 + 5 + 3 + 5 + 7))

/-- J format: `imm[20] ++ imm[10:1] ++ imm[11] ++ imm[19:12] ++ rd ++ opcode` (R96). -/
def formatJ (imm : BitVec 21) (rd : Reg) (opcode : BitVec 7) : Word :=
  (imm.extractLsb' 20 1 ++ imm.extractLsb' 1 10 ++ imm.extractLsb' 11 1 ++ imm.extractLsb' 12 8 ++ rd ++ opcode
    : BitVec (1 + 10 + 1 + 8 + 5 + 7))

/-- The word of a well-formed instruction (R93 to R96, R103). -/
def encode : Instr → Word
  | .add rd rs1 rs2 => formatR 0b0000000 rs2 rs1 0b000 rd 0b0110011
  | .addi rd rs1 imm => formatI imm rs1 0b000 rd 0b0010011
  | .lw rd rs1 imm => formatI imm rs1 0b010 rd 0b0000011
  | .sw rs1 rs2 imm => formatS imm rs2 rs1 0b010 0b0100011
  | .jal rd imm => formatJ imm rd 0b1101111
  | .ebreak => formatI 0x001 0 0b000 0 0b1110011

end Sys2Proof
end

