-- ==== Sys2Proof/Config.lean ====
section
/-! DEFINITION. What is fixed for the engine, and the free values: constants with no body, of which nothing can be
proved, so that a claim holds whatever they are. -/

namespace Sys2Proof.Config

/-- `ISIZE = 4`: the byte size of every instruction, the illegal one and the injected trap included (R5, R98, D7). -/
def isize : Nat := 4

/-- What a byte of memory that nothing has written reads as.
DESIGN CHOICE (log 3, unsafe for claims about `State.reset`): INIT_MEM is open (R45), U2 asks for any value. -/
def unlistedByte : Byte := 0

/-- `STEP_MAX = 2^31 - 1`: the largest step count (R6, D20). -/
def stepMax : Nat := 2147483647

/-- CACHE_CAP of the engine after `State.reset`; R7 leaves it open ("any; unobservable", file 92).
DESIGN CHOICE (log 13, safe: R148 makes it unobservable). -/
def cacheCap : Nat := 1024

/-- EVICT (R143): the position of the entry a full cache drops, from the entries' addresses and metadata, oldest
entry first; taken modulo the number of entries. A free value: R7 leaves the choice open (log 13, safe). -/
opaque evict : List (Addr × Nat) → Nat

/-- What a pending-write slot holds between `alloc` and `fill` (R122: "value = unspecified"), by a number for
the cell (0 to 31 for `x0` to `x31`, 32 for the pc). A free value (log 14, safe). -/
opaque allocValue : Nat → Word

end Sys2Proof.Config
end

