-- ==== Sys2Proof/Machine/Record.lean ====
section
/-! DEFINITION. The decoded instruction record (R97 to R99), the "Instruction object" the decode cache holds and the
loop executes. The spec fixes no packing of it into bits. -/

namespace Sys2Proof.Machine

/-- Opcode tags (R97): the first seven can be fetched by the loop; `lwChild` only the child of a load has. -/
inductive OpTag
  | add
  | addi
  | jal
  | lw
  | sw
  | ebreak
  | illegal
  | lwChild
  deriving DecidableEq, Repr

/-- A source handle (R99): a general cell, the constant 0 of cell 0, or an immediate already extended. -/
inductive Src
  /-- `RegSrc(i)`, i in 1..31. -/
  | reg (i : Reg)
  /-- `ZeroSrc`, which reads 0. -/
  | zero
  /-- `ImmSrc(v)`. -/
  | imm (v : Word)
  deriving DecidableEq, Repr

/-- A destination handle (R99): a general cell, nothing, or the pc cell. -/
inductive Dst
  /-- `RegDst(i)`, i in 1..31. -/
  | reg (i : Reg)
  /-- `Discard`, "Destination-to-nothing". -/
  | discard
  /-- `PcDst`, the reserved program-counter destination. -/
  | pc
  deriving DecidableEq, Repr

/-- The operand handles of a record, "source index 0/1/2" and "destination index 0/1" (R98). -/
structure Handles where
  src0 : Option Src
  src1 : Option Src
  src2 : Option Src
  dst0 : Option Dst
  dst1 : Option Dst
  deriving DecidableEq, Repr

/-- The child of a two-phase instruction (R98): it has no child of its own, by its type. -/
structure ChildRecord where
  op : OpTag
  addr : Addr
  size : Nat
  handles : Handles
  deriving DecidableEq, Repr

/-- The decoded instruction record (R98). -/
structure Record where
  op : OpTag
  addr : Addr
  size : Nat
  handles : Handles
  child : Option ChildRecord
  deriving DecidableEq, Repr

/-- What a decoder other than DEC6 says of one word: the parts of a record the contract R102 leaves to it. The
address, the size and whether there is a child are not among them: R102 (2) and (4) fix those. -/
structure Body where
  op : OpTag
  handles : Handles
  /-- The handles of the child, used when `op` is the two-phase opcode `lw`. -/
  childHandles : Handles
  deriving DecidableEq, Repr

end Sys2Proof.Machine
end

