-- ==== Sys2Proof/Machine/State.lean ====
section
/-! DEFINITION. The state of the engine as plain data, with its values after reset (10_state.md R20 to R45), the
commands and the responses of its port (R267), and the reasons a step can stop. -/

namespace Sys2Proof.Machine

/-! ## Run control, faults, breakpoints -/

/-- RUN_STATE (R34). -/
inductive RunState
  | halted
  | running
  | singleStepping
  deriving DecidableEq, Repr

/-- HALT_REASON (R35); the enumeration is closed (C4). -/
inductive HaltReason
  | none
  | userRequest
  | softwareBreakpoint
  | semihostRequest
  deriving DecidableEq, Repr

/-- The code of a runtime fault on the fault path (R281): an event the engine reports and goes on after. -/
inductive FaultCode
  /-- R284. -/
  | illegalInstruction
  /-- R285. -/
  | internal
  deriving DecidableEq, Repr

/-- The breakpoint table BP (R33): address (as a number) to the bit `enabled`, addresses strictly rising, so that
there is at most one record per address and equal tables are equal data. -/
abbrev BpTable := List (Nat × Bool)

/-- MEM (R43) as the bytes that differ from what an unlisted address reads as, addresses strictly rising. -/
abbrev Memory := List Host.Cell

/-! ## The command port (R267) -/

/-- The sixteen commands of the command port (R267). `step`'s count is a signed 32-bit integer (D20);
`write_memory`'s length is the number of its bytes, which R264 makes it (log 16). -/
inductive Command
  | halt
  | step (count : BitVec 32)
  | run
  | wait
  | getRunStatus
  | getLastHaltReason
  | readRegister (name : String)
  | writeRegister (name : String) (value : Word)
  | readMemory (address : Addr) (length : Nat)
  | writeMemory (address : Addr) (bytes : List Byte)
  | setBreakpoint (address : Addr)
  | clearBreakpoint (address : Addr)
  | clearAllBreakpoints
  | hasBreakpoint (address : Addr)
  | getInstruction (address : Addr)
  | disassemble (address : Addr)
  deriving DecidableEq, Repr

/-- The three operations of the breakpoint manager's internal port (R230, R235 to R237), exposed as the spec lets
a model do (log 17). -/
inductive ManagerOp
  | isEnabled (address : Addr)
  | enable (address : Addr)
  | disable (address : Addr)
  deriving DecidableEq, Repr

/-- What a response answers: a command of the port or an operation of the manager's internal port. -/
inductive Asked
  | halt
  | step
  | run
  | wait
  | getRunStatus
  | getLastHaltReason
  | readRegister
  | writeRegister
  | readMemory
  | writeMemory
  | setBreakpoint
  | clearBreakpoint
  | clearAllBreakpoints
  | hasBreakpoint
  | getInstruction
  | disassemble
  | isEnabled
  | enable
  | disable
  deriving DecidableEq, Repr

/-- The kinds of a command error (R12, R286). `internal` is unreachable: every value is 32 bits (R130). -/
inductive ErrKind
  | precondition
  | notFound
  | invalidArgument
  | internal
  deriving DecidableEq, Repr

/-- The value an `ok` carries (R267, column 4). -/
inductive Value
  | unit
  | executed (count : BitVec 31)
  | status (state : RunState)
  | reason (reason : HaltReason)
  | word (value : Word)
  | bytes (bytes : List Byte)
  | bool (value : Bool)
  | record (inst : Record)
  | text (text : String)
  deriving DecidableEq, Repr

/-- "Every command of the command port ends in exactly one response" (R12). -/
inductive Response
  | ok (value : Value)
  | err (kind : ErrKind)
  deriving DecidableEq, Repr

/-- What the engine puts on its port: responses (R267) and the RUN_DONE pulse (R40). -/
inductive PortEvent
  | response (asked : Asked) (r : Response)
  | runDone
  deriving DecidableEq, Repr

/-! ## The environment: external handlers and the watch layer, as plain data -/

/-- The answer of an external breakpoint handler (R282): `r.claimed`, and `r.halt` where it claims. -/
inductive BpAnswer
  | decline
  | claim
  | claimAndHalt
  deriving DecidableEq, Repr

/-- An external breakpoint handler, a function of the address given as a finite table and a default (log 12). -/
structure BpHandler where
  otherwise : BpAnswer
  table : List (Addr × BpAnswer)
  deriving DecidableEq, Repr

/-- FAULT_HANDLER (R283), a function of code and address: it answers `halt` as `otherwise` says, and the opposite
on the listed events (log 12). -/
structure FaultHandler where
  otherwise : Bool
  except : List (FaultCode × Addr)
  deriving DecidableEq, Repr

/-- WATCHER's answer to one access that touches WATCH (R63): the bytes a read gives, the bytes of the access it
changes in MEM, and whether it calls `RequestHalt(semihost_request)` (log 10). -/
structure WatchReply where
  bytes : List Byte
  writes : List (Addr × Byte)
  halt : Bool
  deriving DecidableEq, Repr

/-- The environment's answers from here on: EXT_BP_HANDLERS (R282), FAULT_HANDLER (R283), and WATCHER's replies to
the coming watched accesses, in order (R63). -/
structure Env where
  bpHandlers : List BpHandler
  faultHandler : FaultHandler
  watcher : List WatchReply
  deriving DecidableEq, Repr

/-- Whose transition is next (R9): the engine's, a host command, an operation of the breakpoint manager's internal
port, a change of the environment's answers (log 12), or a store that goes around the engine (R319 (6), U10). -/
inductive Turn
  | engine
  | host (c : Command)
  | manager (op : ManagerOp)
  | environment (e : Env)
  | storeAroundEngine (address : Addr) (bytes : List Byte)
  deriving DecidableEq, Repr

/-! ## The parts of the state -/

/-- The register file (R20 to R26): the cells' current values and their pending-write slots (`none`: valid = 0).
Cell 0 is hard-wired and is reached by `State.readX` and `State.writeX` only. -/
structure RegFile where
  x : Vector Word 32
  pc : Word
  pendX : Vector (Option Word) 32
  pendPc : Option Word
  deriving DecidableEq, Repr

/-- One decode cache entry (R30): `stamp` is the recency metadata `meta`, the clock at its last use (log 13). -/
structure CacheEntry where
  addr : Addr
  inst : Record
  stamp : Nat
  deriving DecidableEq, Repr

/-- The decode cache DC (R30), oldest entry first, the clock of its metadata (R144), and the scratch
instruction-word buffer IWBUF (R32). -/
structure Cache where
  entries : List CacheEntry
  clock : Nat
  iwbuf : Word
  deriving DecidableEq, Repr

/-- The run-control state (R34 to R36, R38, R39). -/
structure RunControl where
  runState : RunState
  haltReason : HaltReason
  haltAddr : Addr
  haltReq : Bool
  stepLeft : BitVec 31
  stepDone : BitVec 31
  resumeBp : Bool
  pcWritten : Bool
  deriving DecidableEq, Repr

/-- The instruction counters (R37): CNT_TOTAL, and CNT_OP of the seven tags in the order ADD, ADDI, JAL, LW, SW,
EBREAK, ILLEGAL. -/
structure Counters where
  total : BitVec 64
  op : Vector (BitVec 64) 7
  deriving DecidableEq, Repr

/-- LOAD_PENDING while valid (R41); `buf` is `none` until the memory side has filled it. -/
structure LoadPending where
  addr : Addr
  size : Nat
  dest : Dst
  buf : Option (List Byte)
  deriving DecidableEq, Repr

/-- The engine's port: the turns to come (R9, log 6), what it has put out, oldest first (log 18), and how many
`wait` commands are pending (R205). -/
structure Port where
  schedule : List Turn
  out : List PortEvent
  waiting : Nat
  deriving DecidableEq, Repr

/-- The open parameters of R7 that are fixed for one machine, as plain data: DEC as the words on which it differs
from DEC6 (log 8), CACHE_CAP, WATCH, and DISASM as the records on which it differs from the default text
(log 15). No step changes them. -/
structure Params where
  decoder : List ((Addr × Word) × Body)
  cacheCap : Nat
  watch : List Addr
  disasm : List (Record × String)
  deriving DecidableEq, Repr

/-- The whole state of the engine (10_state.md), and the model's own fields `port`, `params`, `env`. -/
structure State where
  regs : RegFile
  cache : Cache
  bp : BpTable
  run : RunControl
  cnt : Counters
  load : Option LoadPending
  /-- FAULT_LOG (R42), oldest first. -/
  faultLog : List (FaultCode × Addr)
  mem : Memory
  port : Port
  params : Params
  env : Env
  deriving DecidableEq, Repr

/-! ## The reasons a step can stop -/

/-- Why the machine stops with a fault. No instruction of the engine does: the runtime faults of the spec are
reported and execution goes on (R283). -/
inductive Fault
  /-- Raised by a load, a store, a fetch or a decode for a command that WATCHER answers outside its contract: a read's reply of
  another length than the access, or a write to a byte outside it (R63; R147: such a write "is outside the spec").
  Safe: the model stops. -/
  | watcherContract (address : Addr)
  deriving DecidableEq, Repr

/-- Why a step has no meaning. -/
inductive Refusal
  /-- An instruction the model gives no meaning; no arm of `exec` uses it. Safe. -/
  | notModelled (mnemonic : String)
  /-- Raised by `lw`, `sw`, an instruction fetch and the commands that decode, on an access that touches WATCH when no
  reply of WATCHER is at hand (log 10): "A model that does not instantiate `WATCHER` must refuse" (R63, U5). Safe. -/
  | watchedAccess (address : Addr)
  /-- Raised by a store that goes around the engine: "the spec gives such a write no meaning" (R319, U10). Safe. -/
  | storeAroundEngine (address : Addr)
  deriving DecidableEq, Repr

/-- How an instruction or a step ends. -/
abbrev Result := Host.Outcome State Fault Refusal

/-! ## Reset (R45, R310, R311) -/

/-- The registers after reset: x0 is 0, x1..x31 are INIT_REGS, the pc is ENTRY_PC, no write is pending (R45). -/
def RegFile.reset (initRegs : Vector Word 32) (entryPc : Word) : RegFile where
  x := initRegs.set 0 0
  pc := entryPc
  pendX := Vector.replicate 32 none
  pendPc := none

/-- The run-control state after reset (R45). HALT_ADDR, STEP_LEFT and STEP_DONE are unspecified there: 0 is a
DESIGN CHOICE (log 4, unsafe). -/
def RunControl.reset : RunControl where
  runState := .halted
  haltReason := .none
  haltAddr := 0
  haltReq := false
  stepLeft := 0
  stepDone := 0
  resumeBp := false
  pcWritten := false

/-- The environment of file 92's defaults: no external breakpoint handler, a fault handler that always answers
`continue`, WATCHER not instantiated. -/
def Env.default : Env where
  bpHandlers := []
  faultHandler := { otherwise := false, except := [] }
  watcher := []

/-- The parameters of file 92's defaults: DEC6, no watched address, the default text; CACHE_CAP is `Config.cacheCap`
(log 13). -/
def Params.default : Params where
  decoder := []
  cacheCap := Config.cacheCap
  watch := []
  disasm := []

/-- The state after reset for given values of the open parameters INIT_REGS, ENTRY_PC, INIT_MEM and of those in
`params` and `env` (R7, R45, R310). IWBUF is unspecified at reset: 0 is a DESIGN CHOICE (log 4, unsafe). -/
def State.resetWith (initRegs : Vector Word 32) (entryPc : Word) (initMem : Memory) (params : Params) (env : Env) :
    State where
  regs := RegFile.reset initRegs entryPc
  cache := { entries := [], clock := 0, iwbuf := 0 }
  bp := []
  run := RunControl.reset
  cnt := { total := 0, op := Vector.replicate 7 0 }
  load := none
  faultLog := []
  mem := initMem
  port := { schedule := [], out := [], waiting := 0 }
  params := params
  env := env

/-- The machine right after reset, with the open parameters at the values the log names: x1..x31 are 0 (log 1), the
pc is 0 (log 2), memory lists nothing (log 3), every other parameter is at file 92's default. -/
def State.reset : State :=
  State.resetWith (Vector.replicate 32 0) 0 [] Params.default Env.default

end Sys2Proof.Machine
end

