-- ==== Sys2Proof/Machine/Flags.lean ====
section
/-! DEFINITION. The one-bit control flags. The engine has no status flags, condition codes or predicate registers
(R28) and no instruction computes a flag; the bits here are run control's: HALT_REQ with its reason, PC_WRITTEN,
and the loop's stop condition. -/

namespace Sys2Proof.Machine

/-- `RequestHalt(r)` (R199): a request, not a transition; the last writer's reason stays (D12). "It has an effect only
while `RUN_STATE /= Halted`": WATCHER can call it outside a run, on a decode for a command (R265, R266). -/
def State.requestHalt (s : State) (r : HaltReason) : State :=
  { s with run := if s.run.runState = .halted then s.run else { s.run with haltReq := true, haltReason := r } }

/-- PC_WRITTEN (R39): set by the pc destination (R125), cleared by the loop before each instruction (R191). -/
def State.setPcWritten (s : State) (b : Bool) : State :=
  { s with run := { s.run with pcWritten := b } }

/-- `StopCondition()` (R194). -/
def State.stopCondition (s : State) : Bool :=
  s.run.haltReq || (s.run.runState == .singleStepping && s.run.stepLeft == 0)

end Sys2Proof.Machine
end

