-- ==== Sys2Proof/Machine/Sparse.lean ====
section
/-! DEFINITION. Finite maps as lists of key and value with the keys strictly rising: the one representation under
memory (R43) and the breakpoint table (R33), so that equal maps are equal lists. -/

namespace Sys2Proof.Machine.Sparse

/-- The value at key `k`, if there is one. -/
def lookup {β : Type} (k : Nat) : List (Nat × β) → Option β
  | [] => none
  | (j, v) :: l => if j = k then some v else lookup k l

/-- The map with `v` at key `k`, in place of what was there. -/
def insert {β : Type} (k : Nat) (v : β) : List (Nat × β) → List (Nat × β)
  | [] => [(k, v)]
  | (j, w) :: l =>
    if k < j then (k, v) :: (j, w) :: l
    else if k = j then (k, v) :: l
    else (j, w) :: insert k v l

/-- The map with nothing at key `k`. -/
def erase {β : Type} (k : Nat) : List (Nat × β) → List (Nat × β)
  | [] => []
  | (j, w) :: l => if j = k then erase k l else (j, w) :: erase k l

/-- The keys rise strictly. -/
abbrev sorted {β : Type} (l : List (Nat × β)) : Prop :=
  l.Pairwise fun p q => p.1 < q.1

end Sys2Proof.Machine.Sparse
end

