-- ==== Sys2Proof/Machine/Ops.lean ====
section
/-! DEFINITION. The named operations over registers, memory, the decode cache's entries and the exceptional events,
each written once; the meanings of the instructions call these. -/

namespace Sys2Proof.Machine

/-! ## Outcomes in sequence -/

/-- The value an operation gives, with the state it leaves, or the reason it stops. -/
abbrev ResultOf (α : Type) := Host.Outcome (α × State) Fault Refusal

/-- Go on from a value and a state, or stop as the operation before stopped. -/
def ResultOf.andThen {α σ : Type} (o : ResultOf α) (f : α → State → Host.Outcome σ Fault Refusal) :
    Host.Outcome σ Fault Refusal :=
  match o with
  | .next (v, s) => f v s
  | .fault r => .fault r
  | .refused r => .refused r

/-- Go on from a state, or stop as the step before stopped. -/
def Result.andThen (o : Result) (f : State → Result) : Result :=
  match o with
  | .next s => f s
  | .fault r => .fault r
  | .refused r => .refused r

/-! ## Registers (R20 to R24) -/

/-- `x[i]` (R11): the contents of general cell i; cell 0 is hard-wired to zero (R23). -/
def State.readX (s : State) (i : Reg) : Word :=
  if i = 0 then 0 else s.regs.x[i.toNat]'i.isLt

/-- `x[i] <- v` (R11): a write to cell 0 is discarded (R23). -/
def State.writeX (s : State) (i : Reg) (v : Word) : State :=
  if i = 0 then s else { s with regs := { s.regs with x := s.regs.x.set i.toNat v i.isLt } }

/-- `pc <- v` (R24): any 32-bit value, no alignment check (R67). -/
def State.setPc (s : State) (v : Word) : State :=
  { s with regs := { s.regs with pc := v } }

/-! ## Memory (R43, R60 to R68) -/

/-- Canonical form: addresses strictly rising and below 2^32, and no entry equal to what an unlisted address
reads as. -/
abbrev Memory.wf (m : Memory) : Prop :=
  Sparse.sorted m ∧ ∀ c ∈ m, c.1 < 4294967296 ∧ c.2 ≠ Config.unlistedByte

/-- The byte at an address: every one of the 2^32 addresses is backed (R61). -/
def Memory.byte (m : Memory) (a : Addr) : Byte :=
  (Sparse.lookup a.toNat m).getD Config.unlistedByte

/-- Memory with one byte written; the canonical form is kept. -/
def Memory.store (m : Memory) (a : Addr) (b : Byte) : Memory :=
  if b = Config.unlistedByte then Sparse.erase a.toNat m else Sparse.insert a.toNat b m

/-- Memory with the bytes written from `a` upwards, byte k at `(a + k) mod 2^32` (R11, R61).
DESIGN CHOICE (log 29, unsafe): more than 2^32 bytes reach an address twice, and the later byte stays. -/
def Memory.storeBytes (m : Memory) (a : Addr) : List Byte → Memory
  | [] => m
  | b :: bs => (m.store a b).storeBytes (a + 1) bs

/-- Memory with single bytes written at given addresses, in order. -/
def Memory.storeCells (m : Memory) : List (Addr × Byte) → Memory
  | [] => m
  | c :: cs => (m.store c.1 c.2).storeCells cs

/-- `RawRead(a, n)` (R11): byte k is the one at `(a + k) mod 2^32`; it bypasses the watch layer (R62). -/
def State.rawRead (s : State) (a : Addr) (n : Nat) : List Byte :=
  (List.range n).map fun k => s.mem.byte (a + BitVec.ofNat 32 k)

/-- `RawWrite(a, n, b)` (R11); it bypasses the watch layer (R62). -/
def State.rawWrite (s : State) (a : Addr) (b : List Byte) : State :=
  { s with mem := s.mem.storeBytes a b }

/-- Address `b` is one of the `n` bytes from `a` upwards, modulo 2^32. -/
def inRange (a : Addr) (n : Nat) (b : Addr) : Bool := (b - a).toNat < n

/-! ## The decode cache's entries that a write drops (R145) -/

/-- Some byte of the `size` bytes from `a` is one of the `n` bytes from `lo`, all modulo 2^32 (R145). -/
def overlaps (a : Addr) (size : Nat) (lo : Addr) (n : Nat) : Bool :=
  (List.range size).any fun k => inRange lo n (a + BitVec.ofNat 32 k)

/-- `DC.invalidate(lo, n)` (R145): every entry any of whose bytes lies in the range goes. -/
def State.dcInvalidate (s : State) (lo : Addr) (n : Nat) : State :=
  { s with cache := { s.cache with
      entries := s.cache.entries.filter fun e => !overlaps e.addr e.inst.size lo n } }

/-- `DC.invalidate_at(a)` (R146): the entry with key a goes, nothing else. -/
def State.dcInvalidateAt (s : State) (a : Addr) : State :=
  { s with cache := { s.cache with entries := s.cache.entries.filter fun e => e.addr != a } }

/-! ## The watched access path (R62, R63) -/

/-- Some byte of the access is in WATCH (R62). -/
def State.touchesWatch (s : State) (a : Addr) (n : Nat) : Bool :=
  (List.range n).any fun k => s.params.watch.contains (a + BitVec.ofNat 32 k)

/-- The reply's changes of MEM stay inside the access (R147). -/
def WatchReply.writesInside (r : WatchReply) (a : Addr) (n : Nat) : Bool :=
  r.writes.all fun c => inRange a n c.1

/-- WATCHER's effects of one access (R63): its changes of MEM inside the access, and at most one
`RequestHalt(semihost_request)`; its remaining replies stay for the accesses to come. The cache entries over the
access go, since R147 asks it of every rule that changes their bytes (log 10). -/
def State.applyReply (s : State) (a : Addr) (n : Nat) (r : WatchReply) (rest : List WatchReply) : State :=
  let s := { s with mem := s.mem.storeCells r.writes, env := { s.env with watcher := rest } }
  let s := s.dcInvalidate a n
  if r.halt then s.requestHalt .semihostRequest else s

/-- `MemRead(a, n)` (R11, R62): outside WATCH the backing store's bytes; otherwise WATCHER's (R63). -/
def State.memRead (s : State) (a : Addr) (n : Nat) : ResultOf (List Byte) :=
  if s.touchesWatch a n then
    match s.env.watcher with
    | [] => .refused (.watchedAccess a)
    | r :: rest =>
      if r.bytes.length = n ∧ r.writesInside a n then .next (r.bytes, s.applyReply a n r rest)
      else .fault (.watcherContract a)
  else .next (s.rawRead a n, s)

/-- `MemWrite(a, n, b)` (R11, R62): outside WATCH the bytes go to the backing store; otherwise the effect is
WATCHER's (R63). -/
def State.memWrite (s : State) (a : Addr) (b : List Byte) : Result :=
  if s.touchesWatch a b.length then
    match s.env.watcher with
    | [] => .refused (.watchedAccess a)
    | r :: rest =>
      if r.writesInside a b.length then .next (s.applyReply a b.length r rest)
      else .fault (.watcherContract a)
  else .next (s.rawWrite a b)

/-- LOAD_PENDING (R41). -/
def State.setLoad (s : State) (l : Option LoadPending) : State := { s with load := l }

/-! ## Exceptional events (60_exceptions.md)

The engine has no trap entry: no event saves the pc, changes a mode or goes to a vector (R289), and there is no
return from one (R290). It has these two. -/

/-- FAULT_HANDLER's answer: true is `halt` (R283). -/
def FaultHandler.halts (h : FaultHandler) (k : FaultCode) (a : Addr) : Bool :=
  if h.except.contains (k, a) then !h.otherwise else h.otherwise

/-- `raise K(a)` (R283): the fault is logged, the handler asked; control stays where it is. -/
def State.raiseFault (s : State) (k : FaultCode) (a : Addr) : State :=
  let s := { s with faultLog := s.faultLog ++ [(k, a)] }
  if s.env.faultHandler.halts k a then s.requestHalt .userRequest else s

/-- The answer of one external breakpoint handler for an address (R282). -/
def BpHandler.answer (h : BpHandler) (a : Addr) : BpAnswer :=
  (h.table.lookup a).getD h.otherwise

/-- "first responder wins": the first handler, in list order, that does not decline (R282). -/
def askHandlers (a : Addr) : List BpHandler → BpAnswer
  | [] => .decline
  | h :: hs =>
    match h.answer a with
    | .decline => askHandlers a hs
    | .claim => .claim
    | .claimAndHalt => .claimAndHalt

/-- `BreakpointEvent(a)` (R282): whether an external handler claimed the event, and the state after it. -/
def State.breakpointEvent (s : State) (a : Addr) : Bool × State :=
  match askHandlers a s.env.bpHandlers with
  | .decline => (false, s)
  | .claim => (true, s)
  | .claimAndHalt => (true, s.requestHalt .semihostRequest)

end Sys2Proof.Machine
end

