-- ==== Sys2Proof/Machine/Operands.lean ====
section
/-! DEFINITION. Operand handles: their operations (40_operand_handles.md), the binding of register fields (R100) and
of an instruction's handles (R104), the decoders' records (R102, R103), and which records fit the index
convention (R129). -/

namespace Sys2Proof.Machine

/-! ## Sources (R121) -/

/-- `val(h)` (R121): a source sees the committed value, never a pending write. -/
def State.val (s : State) : Src → Word
  | .reg i => s.readX i
  | .zero => 0
  | .imm v => v

/-! ## Destinations (R122 to R125) -/

/-- `alloc(d)` (R122): the slot becomes valid with an unspecified value; nothing on `Discard` (R124). -/
def State.alloc (s : State) : Dst → State
  | .reg i => { s with regs := { s.regs with
      pendX := s.regs.pendX.set i.toNat (some (Config.allocValue i.toNat)) i.isLt } }
  | .discard => s
  | .pc => { s with regs := { s.regs with pendPc := some (Config.allocValue 32) } }

/-- `fill(d, v)` (R122). -/
def State.fill (s : State) (d : Dst) (v : Word) : State :=
  match d with
  | .reg i => { s with regs := { s.regs with pendX := s.regs.pendX.set i.toNat (some v) i.isLt } }
  | .discard => s
  | .pc => { s with regs := { s.regs with pendPc := some v } }

/-- The slot of general cell i is empty again: its valid bit is 0 (R26, R122). -/
def State.clearSlot (s : State) (i : Reg) : State :=
  { s with regs := { s.regs with pendX := s.regs.pendX.set i.toNat none i.isLt } }

/-- The slot of the pc cell is empty again (R26, R122). -/
def State.clearPcSlot (s : State) : State := { s with regs := { s.regs with pendPc := none } }

/-- `submit(d)` (R122): the cell adopts the slot's value in one swap (R123), a discarded value is dropped (R124),
the pc cell also sets PC_WRITTEN (R125); the slot is then empty. A slot that holds nothing commits nothing. -/
def State.submit (s : State) : Dst → State
  | .reg i =>
    match s.regs.pendX[i.toNat]'i.isLt with
    | some v => (s.writeX i v).clearSlot i
    | none => s
  | .discard => s
  | .pc =>
    match s.regs.pendPc with
    | some v => ((s.setPc v).setPcWritten true).clearPcSlot
    | none => s

/-- The three operations in a row, which the spec writes `x[i] <- v` and `pc <- v` (R122). -/
def State.writeDst (s : State) (d : Dst) (v : Word) : State :=
  ((s.alloc d).fill d v).submit d

/-- The effective address of `lw` and `sw` (R170). -/
def State.effectiveAddress (s : State) (base disp : Src) : Addr := s.val base + s.val disp

/-! ## Binding (R99 to R104) -/

/-- A register field as a source (R100). -/
def srcOf (i : Reg) : Src := if i = 0 then .zero else .reg i

/-- A register field as a destination (R100). -/
def dstOf (i : Reg) : Dst := if i = 0 then .discard else .reg i

/-- No operand handle. -/
def Handles.none : Handles := ⟨.none, .none, .none, .none, .none⟩

/-- The handles of an instruction, row by row of R104 (for `lw`, those of the main record). -/
def handlesOf : Instr → Handles
  | .add rd rs1 rs2 => { Handles.none with src0 := srcOf rs1, src1 := srcOf rs2, dst0 := dstOf rd }
  | .addi rd rs1 imm => { Handles.none with src0 := srcOf rs1, src1 := some (.imm (sext12 imm)), dst0 := dstOf rd }
  | .lw _ rs1 imm => { Handles.none with src0 := srcOf rs1, src1 := some (.imm (sext12 imm)) }
  | .sw rs1 rs2 imm =>
    { Handles.none with src0 := srcOf rs1, src1 := some (.imm (sext12 imm)), src2 := srcOf rs2 }
  | .jal rd imm => { Handles.none with src0 := some (.imm (sext21 imm)), dst0 := some .pc, dst1 := dstOf rd }
  | .ebreak => { Handles.none with dst0 := some .pc }

/-- The opcode tag of an instruction (R97). -/
def tagOf : Instr → OpTag
  | .add _ _ _ => .add
  | .addi _ _ _ => .addi
  | .lw _ _ _ => .lw
  | .sw _ _ _ => .sw
  | .jal _ _ => .jal
  | .ebreak => .ebreak

/-- The child record of a two-phase instruction (R98, R104): only `lw` has one. -/
def childOf (a : Addr) : Instr → Option ChildRecord
  | .add _ _ _ => none
  | .addi _ _ _ => none
  | .lw rd _ _ => some
      { op := .lwChild, addr := a, size := Config.isize, handles := { Handles.none with dst0 := dstOf rd } }
  | .sw _ _ _ => none
  | .jal _ _ => none
  | .ebreak => none

/-- The decoded record of an instruction at an address (R98, R104). -/
def recordOf (a : Addr) (i : Instr) : Record where
  op := tagOf i
  addr := a
  size := Config.isize
  handles := handlesOf i
  child := childOf a i

/-- The record of a word that is no instruction (R102 (1), R104, R105). -/
def illegalRecord (a : Addr) : Record where
  op := .illegal
  addr := a
  size := Config.isize
  handles := Handles.none
  child := none

/-- `TrapInst(a)` (R240): the same record DEC6 makes for the word of `ebreak` at a (R106). -/
def trapRecord (a : Addr) : Record := recordOf a .ebreak

/-- The default decoder DEC6 (R103): total; every other word is illegal (R105). -/
def dec6 (a : Addr) (w : Word) : Record :=
  match decode w with
  | .ok i => recordOf a i
  | .error _ => illegalRecord a

/-- The record a foreign decoder's body stands for. The contract R102 holds by construction: the address is the one
asked for, the size is 4, there is a child exactly when the opcode is two-phase. -/
def Body.record (b : Body) (a : Addr) : Record where
  op := b.op
  addr := a
  size := Config.isize
  handles := b.handles
  child := if b.op = .lw then some
      { op := .lwChild, addr := a, size := Config.isize, handles := b.childHandles } else none

/-- `DEC(a, w)` (R102): DEC6, but on the words where the machine's decoder is said to differ (log 8). -/
def Params.dec (p : Params) (a : Addr) (w : Word) : Record :=
  match p.decoder.lookup (a, w) with
  | some b => b.record a
  | none => dec6 a w

/-! ## Which instruction a record is -/

/-- The register field a source handle stands for. -/
def Src.field : Src → Reg
  | .reg i => i
  | .zero => 0
  | .imm _ => 0

/-- The value of an immediate handle. -/
def Src.immediate : Src → Word
  | .reg _ => 0
  | .zero => 0
  | .imm v => v

/-- The register field a destination handle stands for. -/
def Dst.field : Dst → Reg
  | .reg i => i
  | .discard => 0
  | .pc => 0

/-- The one instruction whose record this could be, read off its handles. -/
def Record.candidate (r : Record) : Option Instr :=
  let source (h : Option Src) : Reg := (h.getD .zero).field
  let immediate (h : Option Src) : Word := (h.getD .zero).immediate
  let dest (h : Option Dst) : Reg := (h.getD .discard).field
  match r.op with
  | .add => some (.add (dest r.handles.dst0) (source r.handles.src0) (source r.handles.src1))
  | .addi => some (.addi (dest r.handles.dst0) (source r.handles.src0) ((immediate r.handles.src1).setWidth 12))
  | .jal => some (.jal (dest r.handles.dst1) ((immediate r.handles.src0).setWidth 21))
  | .lw => some (.lw (dest (r.child.bind fun c => c.handles.dst0)) (source r.handles.src0)
      ((immediate r.handles.src1).setWidth 12))
  | .sw => some (.sw (source r.handles.src0) (source r.handles.src2) ((immediate r.handles.src1).setWidth 12))
  | .ebreak => some .ebreak
  | .illegal => none
  | .lwChild => none

/-- The instruction of which this is the record at address `a`, if it is one's (R104). -/
def Record.instrAt (r : Record) (a : Addr) : Option Instr :=
  r.candidate.filter fun i => recordOf a i == r

/-! ## The index convention (R104, R129) -/

/-- The handle is what R100 binds a register field to. -/
def Src.isRegister : Src → Bool
  | .reg i => i != 0
  | .zero => true
  | .imm _ => false

/-- The handle is an immediate. -/
def Src.isImmediate : Src → Bool
  | .reg _ => false
  | .zero => false
  | .imm _ => true

/-- The handle is what R100 binds a register field to. -/
def Dst.isRegister : Dst → Bool
  | .reg i => i != 0
  | .discard => true
  | .pc => false

/-- The handle is `PcDst`. -/
def Dst.isPc : Dst → Bool
  | .reg _ => false
  | .discard => false
  | .pc => true

end Sys2Proof.Machine
end

