-- ==== Sys2Proof/Machine/Cache.lean ====
section
/-! DEFINITION. The decode cache: the fill function, `get`, eviction and recency (41_decode_cache.md R140 to R149).
The two forms of `invalidate` are in Machine/Ops.lean, since a store needs them. -/

namespace Sys2Proof.Machine

/-- An address is armed when it has a breakpoint record with `enabled = 1` (file 00, glossary). -/
def State.armed (s : State) (a : Addr) : Bool := Sparse.lookup a.toNat s.bp == some true

/-- The word in the backing store at `a`, which a fetch outside WATCH reads (R91). -/
def State.fetchWord (s : State) (a : Addr) : Word := le32 (s.rawRead a 4)

/-- A decode leaves the word in the scratch buffer IWBUF (R32, R142). -/
def State.setIwbuf (s : State) (w : Word) : State :=
  { s with cache := { s.cache with iwbuf := w } }

/-- A decode of the word at `a` (R91, R142, R266): `IWBUF <- le32(MemRead(a, 4))`, then `DEC(a, IWBUF)`. The read takes
the watched path (R62), so that on watched bytes the word and the side effects are WATCHER's (R63, U5). -/
def State.decodeAt (s : State) (a : Addr) : ResultOf Record :=
  (s.memRead a 4).andThen fun b t => .next (t.params.dec a (le32 b), t.setIwbuf (le32 b))

/-- `Produce(a)` (R142): the trap at an armed address, where no memory is read, else a decode of the word there. -/
def State.produce (s : State) (a : Addr) : ResultOf Record :=
  if s.armed a then .next (trapRecord a, s) else s.decodeAt a

/-- The code visible at `a` (R31): what `Produce(a)` gives in this state whatever WATCHER answers. There is none at an
address whose word would be WATCHER's. -/
def State.codeAt (s : State) (a : Addr) : Option Record :=
  if s.armed a then some (trapRecord a)
  else if s.touchesWatch a 4 then none
  else some (s.params.dec a (s.fetchWord a))

/-- `touch(e)` (R144): the entry with key `a` gets the newest stamp. -/
def State.touch (s : State) (a : Addr) : State :=
  { s with cache := { s.cache with
      entries := s.cache.entries.map fun e => if e.addr = a then { e with stamp := s.cache.clock } else e
      clock := s.cache.clock + 1 } }

/-- Room for one more entry: a full cache drops the entry EVICT chooses (R143). -/
def State.makeRoom (s : State) : State :=
  if s.params.cacheCap ≤ s.cache.entries.length then
    { s with cache := { s.cache with
        entries := s.cache.entries.eraseIdx
          (Config.evict (s.cache.entries.map fun e => (e.addr, e.stamp)) % s.cache.entries.length) } }
  else s

/-- A new entry with the newest stamp (R141). -/
def State.addEntry (s : State) (a : Addr) (inst : Record) : State :=
  { s with cache := { s.cache with
      entries := s.cache.entries ++ [{ addr := a, inst := inst, stamp := s.cache.clock }]
      clock := s.cache.clock + 1 } }

/-- The miss path of `get`: fill and store (R141, R142). A record whose word was WATCHER's answer to this one read is
not kept: an entry must give what a fill would give now (R31, R148), and the entries over a watched access go
(DESIGN CHOICE, log 11). -/
def State.dcFill (s : State) (a : Addr) : ResultOf Record :=
  (s.produce a).andThen fun inst t =>
    .next (inst, if (s.codeAt a).isSome then t.makeRoom.addEntry a inst else t)

/-- `DC.get(a)` (R141). -/
def State.dcGet (s : State) (a : Addr) : ResultOf Record :=
  match s.cache.entries.find? fun e => e.addr == a with
  | some e => .next (e.inst, s.touch a)
  | none => s.dcFill a

end Sys2Proof.Machine
end

