-- ==== Sys2Proof/Machine/Arith.lean ====
section
/-! DEFINITION. The arithmetic family (R161, R162): `add`, `addi`. Sources are read before the destination is
submitted (R126); addition wraps modulo 2^32 and nothing records the carry. -/

namespace Sys2Proof.Machine

/-- The family's contract (R161): source 0 plus source 1, modulo 2^32, to destination 0. -/
def State.sumInto (s : State) (a b : Src) (d : Dst) : State := s.writeDst d (s.val a + s.val b)

/-- The routine of `ADD` (R165). -/
def addRoutine (a b : Src) (d : Dst) (s : State) : Result := .next (s.sumInto a b d)

/-- The routine of `ADDI` (R166): source 1 is the extended immediate. -/
def addiRoutine (a i : Src) (d : Dst) (s : State) : Result := .next (s.sumInto a i d)

/-- `add rd, rs1, rs2` (R165). -/
def execAdd (rd rs1 rs2 : Reg) (s : State) : Result :=
  addRoutine (srcOf rs1) (srcOf rs2) (dstOf rd) s

/-- `addi rd, rs1, imm` (R166). -/
def execAddi (rd rs1 : Reg) (imm : BitVec 12) (s : State) : Result :=
  addiRoutine (srcOf rs1) (.imm (sext12 imm)) (dstOf rd) s

end Sys2Proof.Machine
end

