-- ==== Sys2Proof/Machine/Jump.lean ====
section
/-! DEFINITION. The branch and jump family (R164): its one member `jal`, whose condition always holds. -/

namespace Sys2Proof.Machine

/-- The routine of `JAL` (R168): target and link from the address of the `jal` itself, the pc submitted before the
link (R126), both sums modulo 2^32, no alignment check (R67). -/
def jalRoutine (addr : Addr) (size : Nat) (off : Src) (pcDest link : Dst) (s : State) : Result :=
  let target := addr + s.val off
  let linkValue := addr + BitVec.ofNat 32 size
  .next ((s.writeDst pcDest target).writeDst link linkValue)

/-- `jal rd, target` (R168). The address of the instruction is what the pc holds during it (R163). -/
def execJal (rd : Reg) (imm : BitVec 21) (s : State) : Result :=
  jalRoutine s.regs.pc Config.isize (.imm (sext21 imm)) .pc (dstOf rd) s

end Sys2Proof.Machine
end

