-- ==== Sys2Proof/Machine/LoadStore.lean ====
section
/-! DEFINITION. Loads and stores (R167, R170 to R174). A load is two-phase: main routine, memory completion, child
routine, in this order and inside one iteration (R64). -/

namespace Sys2Proof.Machine

/-- `LW`, main routine (R171): the suspended-load record is issued, whatever the destination is. -/
def lwMain (base disp : Src) (dest : Dst) (s : State) : State :=
  s.setLoad (some { addr := s.effectiveAddress base disp, size := 4, dest := dest, buf := none })

/-- The memory side's completion (R64, phase 2): `buf <- MemRead(addr, size)`. -/
def loadComplete (s : State) : Result :=
  match s.load with
  | none => .next s
  | some p => (s.memRead p.addr p.size).andThen fun b s => .next (s.setLoad (some { p with buf := some b }))

/-- `LW_CHILD`, child routine (R172): the value goes to the child's destination; no extension is needed. It runs
only once the read has completed. -/
def lwChildRoutine (d : Dst) (s : State) : State :=
  match s.load.bind LoadPending.buf with
  | none => s
  | some b => (s.writeDst d (le32 b)).setLoad none

/-- The routine of `LW` as a whole (R173). -/
def lwRoutine (base disp : Src) (childDest : Dst) (s : State) : Result :=
  Result.andThen (loadComplete (lwMain base disp childDest s)) fun s => .next (lwChildRoutine childDest s)

/-- The routine of `SW` (R174): the store, then the invalidation of the cache range. -/
def swRoutine (base disp value : Src) (s : State) : Result :=
  Result.andThen (s.memWrite (s.effectiveAddress base disp) (bytesLe32 (s.val value))) fun t =>
    .next (t.dcInvalidate (s.effectiveAddress base disp) 4)

/-- `lw rd, imm(rs1)` (R173). -/
def execLw (rd rs1 : Reg) (imm : BitVec 12) (s : State) : Result :=
  lwRoutine (srcOf rs1) (.imm (sext12 imm)) (dstOf rd) s

/-- `sw rs2, imm(rs1)` (R174). -/
def execSw (rs1 rs2 : Reg) (imm : BitVec 12) (s : State) : Result :=
  swRoutine (srcOf rs1) (.imm (sext12 imm)) (srcOf rs2) s

end Sys2Proof.Machine
end

