-- ==== Sys2Proof/Machine/System.lean ====
section
/-! DEFINITION. The system instructions (R176, R178, R179): `ebreak`, with the injected trap, and the illegal
instruction. -/

namespace Sys2Proof.Machine

/-- The routine of `EBREAK` and of the injected trap (R176): unless an external handler claims the event, the
manager's own handler requests the halt (R243) and the pc stays on the trap. -/
def ebreakRoutine (addr : Addr) (pcDest : Dst) (s : State) : Result :=
  let (claimed, t) := s.breakpointEvent addr
  if claimed then .next t
  else .next ((t.requestHalt .softwareBreakpoint).writeDst pcDest addr)

/-- `ebreak` (R176). The address of the instruction is what the pc holds during it (R163). -/
def execEbreak (s : State) : Result := ebreakRoutine s.regs.pc .pc s

/-- The routine of `ILLEGAL` (R178): the fault is raised; no register, memory or pc write. -/
def illegalRoutine (addr : Addr) (s : State) : Result := .next (s.raiseFault .illegalInstruction addr)

/-- A record that does not fit its opcode's row of R104 raises `Internal` and does nothing else (R129, R285). -/
def malformedRoutine (addr : Addr) (s : State) : Result := .next (s.raiseFault .internal addr)

end Sys2Proof.Machine
end

