-- ==== Sys2Proof/Machine/Loop.lean ====
section
/-! DEFINITION. The execution loop (43_run_control.md R191 to R198, R206): `execute`, the iteration, the resume
iteration, the halt transition and the engine's step. -/

namespace Sys2Proof.Machine

/-! ## Executing a record (R160) -/

/-- A record that DEC6 or the trap injector would not have made at this address, so one of another decoder (R102):
the routine its tag selects if its handles fit the tag's row of R104, else `Internal` (R129, R285). -/
def executeForeign (r : Record) (s : State) : Result :=
  match r.op, r.handles, r.child with
  | .add, ⟨some a, some b, none, some d, none⟩, none =>
    if a.isRegister && b.isRegister && d.isRegister then addRoutine a b d s else malformedRoutine r.addr s
  | .addi, ⟨some a, some i, none, some d, none⟩, none =>
    if a.isRegister && i.isImmediate && d.isRegister then addiRoutine a i d s else malformedRoutine r.addr s
  | .jal, ⟨some off, none, none, some p, some d⟩, none =>
    if off.isImmediate && p.isPc && d.isRegister then jalRoutine r.addr r.size off p d s
    else malformedRoutine r.addr s
  | .lw, ⟨some base, some disp, none, none, none⟩, some ⟨.lwChild, _, _, ⟨none, none, none, some d, none⟩⟩ =>
    if base.isRegister && disp.isImmediate && d.isRegister then lwRoutine base disp d s
    else malformedRoutine r.addr s
  | .sw, ⟨some base, some disp, some v, none, none⟩, none =>
    if base.isRegister && disp.isImmediate && v.isRegister then swRoutine base disp v s
    else malformedRoutine r.addr s
  | .ebreak, ⟨none, none, none, some p, none⟩, none =>
    if p.isPc then ebreakRoutine r.addr p s else malformedRoutine r.addr s
  | .illegal, ⟨none, none, none, none, none⟩, none => illegalRoutine r.addr s
  | _, _, _ => malformedRoutine r.addr s

/-- `execute(inst)` (R160): a record of one of the six instructions, made for the address the pc holds (R163), runs
through the dispatch `exec`; any other is `ILLEGAL`, malformed or a foreign decoder's. -/
def execute (r : Record) (s : State) : Result :=
  match r.instrAt s.regs.pc with
  | some i => exec i s
  | none => executeForeign r s

/-! ## Counting (R193) -/

/-- The place of a tag's counter among the seven of R37; `LW_CHILD` has none (R97). -/
def OpTag.counter : OpTag → Option (Fin 7)
  | .add => some 0
  | .addi => some 1
  | .jal => some 2
  | .lw => some 3
  | .sw => some 4
  | .ebreak => some 5
  | .illegal => some 6
  | .lwChild => none

/-- `CNT_OP[t]` (R37), on the telemetry port. -/
def State.cntOp (s : State) (t : OpTag) : BitVec 64 :=
  match t.counter with
  | some k => s.cnt.op[k]
  | none => 0

/-- One executed record is counted: its tag's counter and the total, modulo 2^64 (R191, R193). -/
def State.count (s : State) (t : OpTag) : State :=
  { s with cnt := {
      total := s.cnt.total + 1
      op := match t.counter with
        | some k => s.cnt.op.set k (s.cnt.op[k] + 1)
        | none => s.cnt.op } }

/-! ## The loop -/

/-- What follows `execute` in an iteration (R191): the counters, the pc unless the instruction wrote it (R192), and
in `SingleStepping` the step budget. -/
def State.finishIteration (s : State) (a : Addr) (r : Record) : State :=
  let s := s.count r.op
  let s := if s.run.pcWritten then s else s.setPc (a + BitVec.ofNat 32 r.size)
  if s.run.runState = .singleStepping then
    { s with run := { s.run with stepLeft := s.run.stepLeft - 1, stepDone := s.run.stepDone + 1 } }
  else s

/-- One iteration of the loop (R191). -/
def iteration (s : State) : Result :=
  (s.dcGet s.regs.pc).andThen fun r t =>
    Result.andThen (execute r (t.setPcWritten false)) fun u => .next (u.finishIteration s.regs.pc r)

/-- `BP[a].enabled <- b` for a record that exists, with the entry at `a` invalidated (R236, R237). -/
def State.setEnabled (s : State) (a : Addr) (b : Bool) : State :=
  { s with bp := Sparse.insert a.toNat b s.bp }.dcInvalidateAt a

/-- RESUME_BP is consumed (R206). -/
def State.clearResume (s : State) : State := { s with run := { s.run with resumeBp := false } }

/-- The resume iteration (R206): the breakpoint at the pc, if one is enabled there, is disabled around one ordinary
iteration. HALT_REQ is not looked at. -/
def resumeIteration (s : State) : Result :=
  let a := s.regs.pc
  if s.armed a then
    Result.andThen (iteration (s.setEnabled a false)) fun t => .next (t.setEnabled a true).clearResume
  else Result.andThen (iteration s) fun t => .next t.clearResume

/-- A response or a pulse on the engine's port (R267, R40). -/
def State.emit (s : State) (e : PortEvent) : State :=
  { s with port := { s.port with out := s.port.out ++ [e] } }

/-- What the halt transition puts on the port (R198): the answer to the pending `step`, or the RUN_DONE pulse of a
background run, then an answer for every pending `wait`. -/
def State.haltEvents (s : State) : List PortEvent :=
  (match s.run.runState with
    | .singleStepping => [.response .step (.ok (.executed s.run.stepDone))]
    | .running => [.runDone]
    | .halted => [])
  ++ List.replicate s.port.waiting (.response .wait (.ok .unit))

/-- The halt transition (R198), one atomic step: HALT_REASON stays. -/
def State.haltTransition (s : State) : State :=
  { s with
    run := { s.run with haltAddr := s.regs.pc, runState := .halted, haltReq := false }
    port := { s.port with out := s.port.out ++ s.haltEvents, waiting := 0 } }

/-- `EngineStep` (R195). While `Halted` the engine has no step, so its turn changes nothing (log 7). -/
def engineStep (s : State) : Result :=
  if s.run.runState = .halted then .next s
  else if s.run.resumeBp then resumeIteration s
  else if s.stopCondition then .next s.haltTransition
  else iteration s

end Sys2Proof.Machine
end

