-- ==== Sys2Proof/Machine/Names.lean ====
section
/-! DEFINITION. The register names (R22, R25) and the text of a decoded record (R107, R266). -/

namespace Sys2Proof.Machine

/-- A register cell as a name reaches it (R24, R25): a general cell or the pc cell. -/
inductive Cell
  | x (i : Reg)
  | pc
  deriving DecidableEq, Repr

/-- The 32 architectural names (R22). -/
def archNames : List (String × Reg) := [
  ("x0", 0), ("x1", 1), ("x2", 2), ("x3", 3), ("x4", 4), ("x5", 5), ("x6", 6), ("x7", 7), ("x8", 8), ("x9", 9),
  ("x10", 10), ("x11", 11), ("x12", 12), ("x13", 13), ("x14", 14), ("x15", 15), ("x16", 16), ("x17", 17),
  ("x18", 18), ("x19", 19), ("x20", 20), ("x21", 21), ("x22", 22), ("x23", 23), ("x24", 24), ("x25", 25),
  ("x26", 26), ("x27", 27), ("x28", 28), ("x29", 29), ("x30", 30), ("x31", 31)]

/-- The 33 alias names (R22). -/
def altNames : List (String × Reg) := [
  ("zero", 0), ("ra", 1), ("sp", 2), ("gp", 3), ("tp", 4), ("t0", 5), ("t1", 6), ("t2", 7), ("s0", 8),
  ("fp", 8), ("s1", 9), ("a0", 10), ("a1", 11), ("a2", 12), ("a3", 13), ("a4", 14), ("a5", 15), ("a6", 16),
  ("a7", 17), ("s2", 18), ("s3", 19), ("s4", 20), ("s5", 21), ("s6", 22), ("s7", 23), ("s8", 24), ("s9", 25),
  ("s10", 26), ("s11", 27), ("t3", 28), ("t4", 29), ("t5", 30), ("t6", 31)]

/-- `cell_of(name)` (R25): case-sensitive; every other string names nothing. -/
def cellOf (name : String) : Option Cell :=
  if name = "pc" then some .pc else ((archNames ++ altNames).lookup name).map .x

/-! ## The default text of `disassemble` (R107)

DISASM is a parameter of which the spec asks only that it be a function of the record (R266); its default is "the
syntax of rule R107" (file 92), with the names the spec's examples use (log 15). -/

/-- The name a register is written by: the alias, `s0` for cell 8 (R107 allows any name of R22). -/
def regName (i : Reg) : String :=
  match altNames.find? fun p => p.2 == i with
  | some p => p.1
  | none => "zero"

/-- A register source in text. -/
def Src.text : Src → String
  | .reg i => regName i
  | .zero => regName 0
  | .imm v => toString v.toInt

/-- A destination in text. -/
def Dst.text : Dst → String
  | .reg i => regName i
  | .discard => regName 0
  | .pc => "pc"

/-- An absent handle prints as nothing. -/
def optText {α : Type} (f : α → String) : Option α → String
  | some h => f h
  | none => ""

/-- The default text of a record, in the syntax of R107: a `jal`'s target as an absolute address in decimal. -/
def defaultText (r : Record) : String :=
  let src (h : Option Src) : String := optText Src.text h
  let dst (h : Option Dst) : String := optText Dst.text h
  match r.op with
  | .add => "add " ++ dst r.handles.dst0 ++ ", " ++ src r.handles.src0 ++ ", " ++ src r.handles.src1
  | .addi => "addi " ++ dst r.handles.dst0 ++ ", " ++ src r.handles.src0 ++ ", " ++ src r.handles.src1
  | .jal => "jal " ++ dst r.handles.dst1 ++ ", " ++
      toString (r.addr + (r.handles.src0.map Src.immediate).getD 0).toNat
  | .lw => "lw " ++ dst (r.child.bind fun c => c.handles.dst0) ++ ", " ++ src r.handles.src1 ++ "("
      ++ src r.handles.src0 ++ ")"
  | .sw => "sw " ++ src r.handles.src2 ++ ", " ++ src r.handles.src1 ++ "(" ++ src r.handles.src0 ++ ")"
  | .ebreak => "ebreak"
  | .illegal => "illegal"
  | .lwChild => "illegal"

/-- `DISASM(inst)` (R266): the default text, but on the records where the machine's text is said to differ
(log 15). -/
def Params.text (p : Params) (r : Record) : String :=
  (p.disasm.lookup r).getD (defaultText r)

end Sys2Proof.Machine
end

