-- ==== Sys2Proof/Machine/Command.lean ====
section
/-! DEFINITION. The commands of the host port (R267), one definition each: run control (R200 to R205), breakpoints
and the manager's internal port (R230 to R237), debug access (R260 to R266). The run-state test comes first in
every command that has one (D20); a command that ends in `err` changes nothing (R12). -/

namespace Sys2Proof.Machine

/-- "respond ok(v)" (R11). -/
def State.ok (s : State) (c : Asked) (v : Value) : State := s.emit (.response c (.ok v))

/-- "respond err(kind)" (R11, R286). -/
def State.err (s : State) (c : Asked) (k : ErrKind) : State := s.emit (.response c (.err k))

/-- The command is valid only while halted (R210, R230, R260); otherwise it ends in `err(precondition)`. -/
def State.whenHalted (s : State) (c : Asked) (f : State → State) : State :=
  if s.run.runState = .halted then f s else s.err c .precondition

/-! ## Run control -/

/-- `Accept()` (R203), the common start of `step` and `run`. -/
def State.accept (s : State) : State :=
  { s with run := { s.run with
      resumeBp := s.run.haltReason == .softwareBreakpoint, haltReason := .none, haltReq := false } }

/-- `step(n)` (R200): `n` is signed; there is no response now, the halt transition gives it (R198). -/
def cmdStep (n : BitVec 32) (s : State) : State :=
  s.whenHalted .step fun s =>
    if n.toInt ≤ 0 then s.err .step .invalidArgument
    else
      let s := s.accept
      { s with run := { s.run with runState := .singleStepping, stepLeft := n.setWidth 31, stepDone := 0 } }

/-- `run()` (R201): answered at once. -/
def cmdRun (s : State) : State :=
  s.whenHalted .run fun s =>
    let s := s.accept
    { s with run := { s.run with runState := .running } }.ok .run .unit

/-- `halt()` (R202): a request; an error while already halted. -/
def cmdHalt (s : State) : State :=
  if s.run.runState = .halted then s.err .halt .precondition
  else (s.requestHalt .userRequest).ok .halt .unit

/-- `wait()` (R205): answered at once while halted, else at the next halt transition. -/
def cmdWait (s : State) : State :=
  if s.run.runState = .halted then s.ok .wait .unit
  else { s with port := { s.port with waiting := s.port.waiting + 1 } }

/-- `get_run_status()` (R204): in every state (C3). -/
def cmdGetRunStatus (s : State) : State := s.ok .getRunStatus (.status s.run.runState)

/-- `get_last_halt_reason()` (R204): only while halted (D21). -/
def cmdGetLastHaltReason (s : State) : State :=
  s.whenHalted .getLastHaltReason fun s => s.ok .getLastHaltReason (.reason s.run.haltReason)

/-! ## Registers and memory -/

/-- The current value of a cell (R261). -/
def State.readCell (s : State) : Cell → Word
  | .x i => s.readX i
  | .pc => s.regs.pc

/-- A host write of a cell (R262): cell 0 ignores it; a write of the pc clears a software-breakpoint halt reason
and nothing else. -/
def State.writeCell (s : State) (c : Cell) (v : Word) : State :=
  match c with
  | .x i => s.writeX i v
  | .pc =>
    let s := s.setPc v
    if s.run.haltReason = .softwareBreakpoint then { s with run := { s.run with haltReason := .none } } else s

/-- `read_register(name)` (R261). -/
def cmdReadRegister (name : String) (s : State) : State :=
  s.whenHalted .readRegister fun s =>
    match cellOf name with
    | none => s.err .readRegister .notFound
    | some c => s.ok .readRegister (.word (s.readCell c))

/-- `write_register(name, value)` (R262). -/
def cmdWriteRegister (name : String) (v : Word) (s : State) : State :=
  s.whenHalted .writeRegister fun s =>
    match cellOf name with
    | none => s.err .writeRegister .notFound
    | some c => (s.writeCell c v).ok .writeRegister .unit

/-- `read_memory(address, length)` (R263): the raw path. -/
def cmdReadMemory (a : Addr) (n : Nat) (s : State) : State :=
  s.whenHalted .readMemory fun s => s.ok .readMemory (.bytes (s.rawRead a n))

/-- `write_memory(address, length, bytes)` (R264): the raw path, then the invalidation of the cache range. -/
def cmdWriteMemory (a : Addr) (b : List Byte) (s : State) : State :=
  s.whenHalted .writeMemory fun s => ((s.rawWrite a b).dcInvalidate a b.length).ok .writeMemory .unit

/-! ## Breakpoints -/

/-- The record of BP at an address (R33). -/
def State.bpAt (s : State) (a : Addr) : Option Bool := Sparse.lookup a.toNat s.bp

/-- `set(a)` (R231): a record that exists is left as it is; the entry is invalidated in both cases. -/
def cmdSetBreakpoint (a : Addr) (s : State) : State :=
  s.whenHalted .setBreakpoint fun s =>
    let s := match s.bpAt a with
      | none => { s with bp := Sparse.insert a.toNat true s.bp }
      | some _ => s
    (s.dcInvalidateAt a).ok .setBreakpoint .unit

/-- `clear(a)` (R232). -/
def cmdClearBreakpoint (a : Addr) (s : State) : State :=
  s.whenHalted .clearBreakpoint fun s =>
    match s.bpAt a with
    | none => s.err .clearBreakpoint .notFound
    | some _ =>
      ({ s with bp := Sparse.erase a.toNat s.bp }.dcInvalidateAt a).ok .clearBreakpoint .unit

/-- The records removed one by one, each with its cache entry (R233). -/
def State.clearRecords (s : State) : BpTable → State
  | [] => s
  | (k, _) :: rest =>
    ({ s with bp := Sparse.erase k s.bp }.dcInvalidateAt (BitVec.ofNat 32 k)).clearRecords rest

/-- `clear_all()` (R233). -/
def cmdClearAllBreakpoints (s : State) : State :=
  s.whenHalted .clearAllBreakpoints fun s => (s.clearRecords s.bp).ok .clearAllBreakpoints .unit

/-- `has(a)` (R234). -/
def cmdHasBreakpoint (a : Addr) (s : State) : State :=
  s.whenHalted .hasBreakpoint fun s => s.ok .hasBreakpoint (.bool (s.bpAt a).isSome)

/-- `is_enabled(a)` (R235). -/
def managerIsEnabled (a : Addr) (s : State) : State :=
  s.whenHalted .isEnabled fun s => s.ok .isEnabled (.bool (s.armed a))

/-- `enable(a)` (R236). -/
def managerEnable (a : Addr) (s : State) : State :=
  s.whenHalted .enable fun s =>
    match s.bpAt a with
    | none => s.err .enable .notFound
    | some _ => (s.setEnabled a true).ok .enable .unit

/-- `disable(a)` (R237). -/
def managerDisable (a : Addr) (s : State) : State :=
  s.whenHalted .disable fun s =>
    match s.bpAt a with
    | none => s.err .disable .notFound
    | some _ => (s.setEnabled a false).ok .disable .unit

/-! ## Introspection -/

/-- `get_instruction(address)` (R265): what the cache serves, the trap at an armed address. -/
def cmdGetInstruction (a : Addr) (s : State) : Result :=
  if s.run.runState = .halted then
    (s.dcGet a).andThen fun r s => .next (s.ok .getInstruction (.record r))
  else .next (s.err .getInstruction .precondition)

/-- The record `disassemble` shows (R266): at an armed address the real instruction, decoded from memory by the watched
path and not cached, else what the cache serves. -/
def State.realInstruction (s : State) (a : Addr) : ResultOf Record :=
  if s.armed a then s.decodeAt a else s.dcGet a

/-- `disassemble(address)` (R266). -/
def cmdDisassemble (a : Addr) (s : State) : Result :=
  if s.run.runState = .halted then
    (s.realInstruction a).andThen fun r s => .next (s.ok .disassemble (.text (s.params.text r)))
  else .next (s.err .disassemble .precondition)

/-! ## The port -/

/-- One host command, one atomic transition (R9, R267). -/
def runCommand (c : Command) (s : State) : Result :=
  match c with
  | .halt => .next (cmdHalt s)
  | .step n => .next (cmdStep n s)
  | .run => .next (cmdRun s)
  | .wait => .next (cmdWait s)
  | .getRunStatus => .next (cmdGetRunStatus s)
  | .getLastHaltReason => .next (cmdGetLastHaltReason s)
  | .readRegister name => .next (cmdReadRegister name s)
  | .writeRegister name v => .next (cmdWriteRegister name v s)
  | .readMemory a n => .next (cmdReadMemory a n s)
  | .writeMemory a b => .next (cmdWriteMemory a b s)
  | .setBreakpoint a => .next (cmdSetBreakpoint a s)
  | .clearBreakpoint a => .next (cmdClearBreakpoint a s)
  | .clearAllBreakpoints => .next (cmdClearAllBreakpoints s)
  | .hasBreakpoint a => .next (cmdHasBreakpoint a s)
  | .getInstruction a => cmdGetInstruction a s
  | .disassemble a => cmdDisassemble a s

/-- One operation of the breakpoint manager's internal port (R230). -/
def runManagerOp (op : ManagerOp) (s : State) : State :=
  match op with
  | .isEnabled a => managerIsEnabled a s
  | .enable a => managerEnable a s
  | .disable a => managerDisable a s

/-- The transition of one agent (R8, R9). -/
def runTurn (t : Turn) (s : State) : Result :=
  match t with
  | .engine => engineStep s
  | .host c => runCommand c s
  | .manager op => .next (runManagerOp op s)
  | .environment e => .next { s with env := e }
  | .storeAroundEngine a _ => .refused (.storeAroundEngine a)

/-- The transition of the agent whose turn is next; with no turn listed it is the engine's (log 6). -/
def nextTurn (s : State) : Result :=
  match s.port.schedule with
  | [] => engineStep s
  | t :: rest => runTurn t { s with port := { s.port with schedule := rest } }

/-- The read-only telemetry port (R37, R293): the total and the seven per-opcode counters. -/
def State.telemetry (s : State) : BitVec 64 × List (BitVec 64) := (s.cnt.total, s.cnt.op.toList)

/-! ## Putting an instruction where the next fetch finds it -/

/-- The address is one of the four bytes at `a`. -/
def inWord (a b : Addr) : Bool := inRange a 4 b

/-- The engine is about to make an ordinary iteration, with the instruction word `w` at its pc and nothing between
the fetch and that word: RUN_STATE is `Running`, no halt is requested, no resume is due, no turn comes first, the
address is not armed and its four bytes are not watched, the decoder reads the word there as DEC6 does, and no
cache entry over the bytes is left (log 5). -/
def State.fetchReady (s : State) (w : Word) : State :=
  let a := s.regs.pc
  let s := (s.rawWrite a (bytesLe32 w)).dcInvalidate a 4
  { s with
    bp := Sparse.erase a.toNat s.bp
    run := { s.run with runState := .running, haltReq := false, resumeBp := false }
    port := { s.port with schedule := [] }
    params := { s.params with
      watch := s.params.watch.filter fun b => !inWord a b
      decoder := s.params.decoder.filter fun p => p.1 != (a, w) }
    cache := { s.cache with entries := s.cache.entries.filter fun e => e.addr != a } }

end Sys2Proof.Machine
end

