-- ==== Sys2Proof/Machine/Step.lean ====
section
/-! DEFINITION. One step of the machine, and the placing of an instruction where the next step fetches it. -/

namespace Sys2Proof.Machine

/-- One step: the next transition of R9's interleaving, of whichever agent `schedule` names (log 6). -/
def step (s : State) : Host.Outcome State Fault Refusal := nextTurn s

/-- `s` with the instruction whose bits are `w` stored where the next step fetches, so that the very next step runs
it (log 5). -/
def State.withFetchWord (s : State) (nbits w : Nat) : State := s.fetchReady (tableWord nbits w)

end Sys2Proof.Machine
end

