-- ==== Sys2Proof/Safety.lean ====
section
/-! DEFINITION. What counts as a good state and a safe run, and the relations the claims use: the invariant of the
engine, equality but for the decode cache, and the frames of the instructions. -/

namespace Sys2Proof.Machine

/-! ## The invariant -/

/-- The validity of the decode cache (R30, R31, R143): at most CACHE_CAP entries, no two with the same key, and each
holds what a fresh fill at its address would produce now, whatever WATCHER would answer. -/
structure State.CacheOk (s : State) : Prop where
  capPositive : 1 ≤ s.params.cacheCap
  bounded : s.cache.entries.length ≤ s.params.cacheCap
  keysDistinct : (s.cache.entries.map CacheEntry.addr).Nodup
  valid : ∀ e ∈ s.cache.entries, s.codeAt e.addr = some e.inst

/-- The register file between two transitions: cell 0 holds zero (R23) and no write is pending (R26). -/
structure State.RegsOk (s : State) : Prop where
  zero : s.regs.x[0] = 0
  pendX : s.regs.pendX = Vector.replicate 32 none
  pendPc : s.regs.pendPc = none

/-- The run-control state between two transitions. -/
structure State.RunOk (s : State) : Prop where
  /-- In `Halted` no halt request, no due resume and no pending `wait` is left (R198, R203, R205). -/
  haltedIdle : s.run.runState = .halted →
    s.run.haltReq = false ∧ s.run.resumeBp = false ∧ s.port.waiting = 0
  /-- In `SingleStepping` the instructions done and left are at most STEP_MAX together, and a due resume iteration
  has a budget (R39, R200, R206). -/
  budget : s.run.runState = .singleStepping →
    s.run.stepLeft.toNat + s.run.stepDone.toNat ≤ Config.stepMax ∧ (s.run.resumeBp = true → s.run.stepLeft ≠ 0)
  /-- While not `Halted` a reason is recorded exactly when a halt is requested (R199, R203). -/
  reason : s.run.runState ≠ .halted → (s.run.haltReq = true ↔ s.run.haltReason ≠ .none)

/-- The breakpoint table is a map from 32-bit addresses (R33). -/
structure State.BpOk (s : State) : Prop where
  sorted : Sparse.sorted s.bp
  addresses : ∀ p ∈ s.bp, p.1 < 4294967296

/-- What holds of the engine between any two transitions. -/
structure State.Inv (s : State) : Prop where
  memory : s.mem.wf
  breakpoints : s.BpOk
  registers : s.RegsOk
  /-- No load is suspended between iterations (R41). -/
  loadDone : s.load = none
  runControl : s.RunOk
  cache : s.CacheOk

/-- Every breakpoint record is enabled (R238). -/
def State.AllEnabled (s : State) : Prop := ∀ p ∈ s.bp, p.2 = true

/-- No runtime fault has been raised: the premise a claim about the real processor carries (R42, U7). -/
def State.FaultFree (s : State) : Prop := s.faultLog = []

/-! ## Equality but for the decode cache (R77, R148) -/

/-- The two states differ in the decode cache, IWBUF and CACHE_CAP at most. -/
def State.SameButCache (s t : State) : Prop :=
  ∃ (c : Cache) (cap : Nat), t = { s with cache := c, params := { s.params with cacheCap := cap } }

/-! ## Frames -/

/-- What a routine that writes one general register leaves alone: every other register, the pc, the other
pending-write slots (its own is empty after), and every other part of the state. -/
structure OnlyRegister (rd : Reg) (s t : State) : Prop where
  registers : ∀ r, r ≠ rd → t.readX r = s.readX r
  pc : t.regs.pc = s.regs.pc
  slots : ∀ k (h : k < 32), k ≠ rd.toNat → t.regs.pendX[k] = s.regs.pendX[k]
  ownSlot : rd ≠ 0 → t.regs.pendX[rd.toNat]'rd.isLt = none
  zeroSlot : rd = 0 → t.regs.pendX = s.regs.pendX
  pcSlot : t.regs.pendPc = s.regs.pendPc
  run : t.run = s.run
  memory : ∀ a, t.mem.byte a = s.mem.byte a
  bp : t.bp = s.bp
  cache : t.cache = s.cache
  counters : t.cnt = s.cnt
  faultLog : t.faultLog = s.faultLog
  port : t.port = s.port
  params : t.params = s.params
  env : t.env = s.env

/-- What a routine that writes no general register leaves alone of the register file but the pc's own slot. -/
structure NoRegister (s t : State) : Prop where
  registers : ∀ r, t.readX r = s.readX r
  slots : t.regs.pendX = s.regs.pendX

/-- The parts of the state no instruction writes (R160): the breakpoint table, the counters, the port, the
parameters, and the run-control state but for the halt request and PC_WRITTEN. -/
structure ControlKept (s t : State) : Prop where
  bp : t.bp = s.bp
  counters : t.cnt = s.cnt
  port : t.port = s.port
  params : t.params = s.params
  runState : t.run.runState = s.run.runState
  haltAddr : t.run.haltAddr = s.run.haltAddr
  stepLeft : t.run.stepLeft = s.run.stepLeft
  stepDone : t.run.stepDone = s.run.stepDone
  resumeBp : t.run.resumeBp = s.run.resumeBp

end Sys2Proof.Machine
end

