-- ==== Sys2Proof/Certificates/Slice0/Obligations.lean ====
section
/-! DEFINITION. The statements for the provers, each from a numbered rule of spec/ or derived from its sections. The
docstring says which, and names the log entry where a clause rests on a choice of the model's. -/

open Sys2Proof Sys2Proof.Machine

/-! ## Encoding -/

/-- Decoding the word of a well-formed instruction gives it back, with every operand at every value (R93 to R96,
R101, R103). -/
def Obligations.DecodeOfEncode : Prop :=
  ∀ i : Instr, wellFormed i = true → decode (encode i) = .ok i

/-- Each word has at most one meaning and the encoder knows it: a decoded instruction is well-formed and is encoded
by the word it came from (R93 to R96, R101, R103). -/
def Obligations.EncodeOfDecode : Prop :=
  ∀ (w : Word) (i : Instr), decode w = .ok i → wellFormed i = true ∧ encode i = w

/-- "no two rows match the same word" (R103). -/
def Obligations.OpcodeRowsDisjoint : Prop :=
  ∀ (w : Word) (r q : OpcodeRow), r ∈ opcodeTable → q ∈ opcodeTable → r.accepts w = true → q.accepts w = true → r = q

/-- Under DEC6 a word is illegal exactly when it matches no row; its record is the illegal one, with the address it
was decoded at and size 4, and any other word's record carries the tag of the row it matches (R105, R97, R98). -/
def Obligations.IllegalExactlyWithoutRow : Prop :=
  ∀ (a : Addr) (w : Word),
    ((∀ r ∈ opcodeTable, r.accepts w = false) → dec6 a w = illegalRecord a) ∧
    (∀ r ∈ opcodeTable, r.accepts w = true → ∃ i, dec6 a w = recordOf a i ∧ rowOf i = r)

/-- A few words of file 95's decode vectors (T1, T4, T14, T18, T24, T10), read as the spec reads them. -/
def Obligations.DecodesSampleWords : Prop :=
  decode 0x00B50533 = .ok (.add 10 10 11) ∧ decode 0x00500513 = .ok (.addi 10 0 5) ∧
  decode 0xFEA5AE23 = .ok (.sw 11 10 (-4)) ∧ decode 0xFF9FF06F = .ok (.jal 0 (-8)) ∧
  decode 0x00100073 = .ok .ebreak ∧ decode 0xFFC5A603 = .ok (.lw 12 11 (-4))

/-- The immediates of DEC6's records are sign-extended: an I- or S-immediate lies in -2048..2047, a J-immediate in
-1048576..1048574 and is even; and each has the value of the word's field read as a signed number (R101). -/
def Obligations.ImmediatesSignExtended : Prop :=
  ∀ (a : Addr) (w : Word) (v : Word),
    ((dec6 a w).op = .addi ∨ (dec6 a w).op = .lw → (dec6 a w).handles.src1 = some (.imm v) →
      v.toInt = (w.extractLsb' 20 12).toInt ∧ -2048 ≤ v.toInt ∧ v.toInt ≤ 2047) ∧
    ((dec6 a w).op = .sw → (dec6 a w).handles.src1 = some (.imm v) →
      v.toInt = (w.extractLsb' 25 7).toInt * 32 + (w.extractLsb' 7 5).toNat ∧ -2048 ≤ v.toInt ∧ v.toInt ≤ 2047) ∧
    ((dec6 a w).op = .jal → (dec6 a w).handles.src0 = some (.imm v) →
      v.toInt = (w.extractLsb' 31 1).toInt * 1048576 + (w.extractLsb' 12 8).toNat * 4096
        + (w.extractLsb' 20 1).toNat * 2048 + (w.extractLsb' 21 10).toNat * 2 ∧
      v.toInt % 2 = 0 ∧ -1048576 ≤ v.toInt ∧ v.toInt ≤ 1048574)

/-- What the decoder contract fixes of every record, whatever decoder the machine is given: address, size, and a
child exactly for the two-phase opcode (R102 (2), (4); R98). That a foreign decoder is a table over DEC6 is the
model's choice (log 8). -/
def Obligations.DecoderContract : Prop :=
  ∀ (p : Params) (a : Addr) (w : Word),
    (p.dec a w).addr = a ∧ (p.dec a w).size = 4 ∧
    ((p.dec a w).child.isSome = true ↔ (p.dec a w).op = .lw) ∧
    (∀ c, (p.dec a w).child = some c → c.op = .lwChild ∧ c.addr = a ∧ c.size = 4)

/-! ## The instructions -/

/-- `add` completes in every state: the sum modulo 2^32 goes to `rd` unless `rd` is 0; nothing else changes, the
pc-written bit included, so the loop falls through (R165, R162, R126). -/
def Obligations.AddWritesSum : Prop :=
  ∀ (s : State) (rd rs1 rs2 : Reg), ∃ t, exec (.add rd rs1 rs2) s = .next t ∧
    (t.readX rd).toNat = (if rd = 0 then 0 else ((s.readX rs1).toNat + (s.readX rs2).toNat) % 4294967296) ∧
    OnlyRegister rd s t ∧ t.load = s.load

/-- `addi` completes in every state: source plus the sign-extended immediate, modulo 2^32, goes to `rd` unless `rd`
is 0; nothing else changes (R166, R101). -/
def Obligations.AddiWritesSum : Prop :=
  ∀ (s : State) (rd rs1 : Reg) (imm : BitVec 12), ∃ t, exec (.addi rd rs1 imm) s = .next t ∧
    t.readX rd = (if rd = 0 then 0 else BitVec.ofInt 32 ((s.readX rs1).toInt + imm.toInt)) ∧
    OnlyRegister rd s t ∧ t.load = s.load

/-- `jal` completes in every state: the pc is the address of the `jal` plus the signed offset, `rd` is that address
plus 4 unless `rd` is 0, the pc counts as written; nothing else changes (R168, R125, R163). -/
def Obligations.JalJumpsAndLinks : Prop :=
  ∀ (s : State) (rd : Reg) (imm : BitVec 21), ∃ t, exec (.jal rd imm) s = .next t ∧
    t.regs.pc = BitVec.ofInt 32 (s.regs.pc.toInt + imm.toInt) ∧
    (t.readX rd).toNat = (if rd = 0 then 0 else (s.regs.pc.toNat + 4) % 4294967296) ∧
    (∀ r, r ≠ rd → t.readX r = s.readX r) ∧
    (∀ k (h : k < 32), k ≠ rd.toNat → t.regs.pendX[k] = s.regs.pendX[k]) ∧
    (rd ≠ 0 → t.regs.pendX[rd.toNat]'rd.isLt = none) ∧ (rd = 0 → t.regs.pendX = s.regs.pendX) ∧
    t.regs.pendPc = none ∧
    t.run = { s.run with pcWritten := true } ∧
    (∀ a, t.mem.byte a = s.mem.byte a) ∧
    t.bp = s.bp ∧ t.cache = s.cache ∧ t.cnt = s.cnt ∧ t.load = s.load ∧ t.faultLog = s.faultLog ∧
    t.port = s.port ∧ t.params = s.params ∧ t.env = s.env

/-- `lw` outside WATCH completes: `rd`, unless it is 0, has the four bytes at the effective address, the lowest
address in its lowest byte; nothing else changes, all of memory included, and no load is left suspended (R170 to
R173, R66, R67). -/
def Obligations.LwLoadsWord : Prop :=
  ∀ (s : State) (rd rs1 : Reg) (imm : BitVec 12),
    s.touchesWatch (s.readX rs1 + sext12 imm) 4 = false →
    ∃ t, exec (.lw rd rs1 imm) s = .next t ∧
      (rd = 0 → t.readX rd = 0) ∧
      (rd ≠ 0 → ∀ k < 4, (t.readX rd).extractLsb' (8 * k) 8
        = s.mem.byte (s.readX rs1 + sext12 imm + BitVec.ofNat 32 k)) ∧
      OnlyRegister rd s t ∧ t.load = none

/-- `lw` on an access that touches WATCH completes with WATCHER's next reply, when that reply keeps the contract:
`rd` has the reply's bytes, memory changes as the reply says and only inside the access, a halt is requested with
`semihost_request` exactly if the reply asks for it and the engine is not Halted (R63, R173, R199). That WATCHER is a list of replies, and that the
cache range of the access is invalidated, are the model's choices (log 10). -/
def Obligations.LwTakesWatcherReply : Prop :=
  ∀ (s : State) (rd rs1 : Reg) (imm : BitVec 12) (r : WatchReply) (rest : List WatchReply),
    s.touchesWatch (s.readX rs1 + sext12 imm) 4 = true → s.env.watcher = r :: rest →
    r.bytes.length = 4 → r.writesInside (s.readX rs1 + sext12 imm) 4 = true →
    ∃ t, exec (.lw rd rs1 imm) s = .next t ∧
      (rd = 0 → t.readX rd = 0) ∧
      (rd ≠ 0 → ∀ k (h : k < r.bytes.length), (t.readX rd).extractLsb' (8 * k) 8 = r.bytes[k]) ∧
      (∀ q, q ≠ rd → t.readX q = s.readX q) ∧
      t.regs.pc = s.regs.pc ∧ t.regs.pendPc = s.regs.pendPc ∧
      (∀ k (h : k < 32), k ≠ rd.toNat → t.regs.pendX[k] = s.regs.pendX[k]) ∧
      (rd ≠ 0 → t.regs.pendX[rd.toNat]'rd.isLt = none) ∧ (rd = 0 → t.regs.pendX = s.regs.pendX) ∧
      t.mem = s.mem.storeCells r.writes ∧
      (∀ a, inRange (s.readX rs1 + sext12 imm) 4 a = false → t.mem.byte a = s.mem.byte a) ∧
      t.run = (if r.halt = true ∧ s.run.runState ≠ .halted then
        { s.run with haltReq := true, haltReason := .semihostRequest } else s.run) ∧
      t.cache = (s.dcInvalidate (s.readX rs1 + sext12 imm) 4).cache ∧
      t.load = none ∧ t.faultLog = s.faultLog ∧ t.bp = s.bp ∧ t.cnt = s.cnt ∧ t.port = s.port ∧
      t.params = s.params ∧ t.env = { s.env with watcher := rest }

/-- `sw` outside WATCH completes: byte k of the value goes to the effective address plus k, every other byte of
memory stays; the cache entries over the four bytes go and the others stay; nothing else changes (R174, R66,
R145). -/
def Obligations.SwStoresWord : Prop :=
  ∀ (s : State) (rs1 rs2 : Reg) (imm : BitVec 12),
    s.touchesWatch (s.effectiveAddress (srcOf rs1) (.imm (sext12 imm))) 4 = false →
    ∃ t, exec (.sw rs1 rs2 imm) s = .next t ∧
      s.effectiveAddress (srcOf rs1) (.imm (sext12 imm)) = BitVec.ofInt 32 ((s.readX rs1).toInt + imm.toInt) ∧
      (∀ k < 4, t.mem.byte (s.effectiveAddress (srcOf rs1) (.imm (sext12 imm)) + BitVec.ofNat 32 k)
        = (s.readX rs2).extractLsb' (8 * k) 8) ∧
      (∀ a, inRange (s.effectiveAddress (srcOf rs1) (.imm (sext12 imm))) 4 a = false →
        t.mem.byte a = s.mem.byte a) ∧
      (∀ e, e ∈ t.cache.entries ↔ e ∈ s.cache.entries ∧
        overlaps e.addr e.inst.size (s.effectiveAddress (srcOf rs1) (.imm (sext12 imm))) 4 = false) ∧
      t.cache.clock = s.cache.clock ∧ t.cache.iwbuf = s.cache.iwbuf ∧
      t.regs = s.regs ∧ t.run = s.run ∧ t.bp = s.bp ∧ t.cnt = s.cnt ∧ t.load = s.load ∧
      t.faultLog = s.faultLog ∧ t.port = s.port ∧ t.params = s.params ∧ t.env = s.env

/-- `sw` on an access that touches WATCH completes with WATCHER's next reply, when that reply keeps the contract:
what lands in memory is the reply's, inside the access; the cache range goes; a halt is requested with
`semihost_request` exactly if the reply asks for it and the engine is not Halted (R63, R174, R199). That WATCHER is a list of replies is the model's
choice (log 10). -/
def Obligations.SwTakesWatcherReply : Prop :=
  ∀ (s : State) (rs1 rs2 : Reg) (imm : BitVec 12) (r : WatchReply) (rest : List WatchReply),
    s.touchesWatch (s.effectiveAddress (srcOf rs1) (.imm (sext12 imm))) 4 = true → s.env.watcher = r :: rest →
    r.writesInside (s.effectiveAddress (srcOf rs1) (.imm (sext12 imm))) 4 = true →
    ∃ t, exec (.sw rs1 rs2 imm) s = .next t ∧
      t.mem = s.mem.storeCells r.writes ∧
      (∀ a, inRange (s.effectiveAddress (srcOf rs1) (.imm (sext12 imm))) 4 a = false →
        t.mem.byte a = s.mem.byte a) ∧
      (∀ e, e ∈ t.cache.entries ↔ e ∈ s.cache.entries ∧
        overlaps e.addr e.inst.size (s.effectiveAddress (srcOf rs1) (.imm (sext12 imm))) 4 = false) ∧
      t.run = (if r.halt = true ∧ s.run.runState ≠ .halted then
        { s.run with haltReq := true, haltReason := .semihostRequest } else s.run) ∧
      t.regs = s.regs ∧ t.bp = s.bp ∧ t.cnt = s.cnt ∧ t.load = s.load ∧ t.faultLog = s.faultLog ∧
      t.port = s.port ∧ t.params = s.params ∧ t.env = { s.env with watcher := rest }

/-- With no reply of WATCHER at hand an access that touches WATCH is refused by name, for `lw` whatever `rd` is, for
`sw`, and for the fetch of an iteration at an address that is not armed: "A model that does not instantiate `WATCHER`
must refuse" (R63, U5). That the empty list of replies stands for "no WATCHER", so that a list used up refuses too, is
the model's choice (log 10). -/
def Obligations.WatchedAccessRefused : Prop :=
  ∀ s : State, s.env.watcher = [] →
    (∀ (rd rs1 rs2 : Reg) (imm : BitVec 12), s.touchesWatch (s.readX rs1 + sext12 imm) 4 = true →
      exec (.lw rd rs1 imm) s = .refused (.watchedAccess (s.readX rs1 + sext12 imm)) ∧
      exec (.sw rs1 rs2 imm) s = .refused (.watchedAccess (s.readX rs1 + sext12 imm))) ∧
    (s.CacheOk → s.armed s.regs.pc = false → s.touchesWatch s.regs.pc 4 = true →
      iteration s = .refused (.watchedAccess s.regs.pc))

/-- `ebreak` whose event no external handler claims completes: a halt is requested with reason
`software_breakpoint` (a request has an effect only while the engine is not Halted, R199), the pc is left at the
instruction's own address and counts as written; nothing else changes (R176, R243, R199). -/
def Obligations.EbreakRequestsHalt : Prop :=
  ∀ s : State, (∀ h ∈ s.env.bpHandlers, h.answer s.regs.pc = .decline) →
    ∃ t, exec .ebreak s = .next t ∧
      t.run = { (if s.run.runState = .halted then s.run
        else { s.run with haltReq := true, haltReason := .softwareBreakpoint }) with pcWritten := true } ∧
      t.regs.pc = s.regs.pc ∧ (∀ r, t.readX r = s.readX r) ∧ t.regs.pendX = s.regs.pendX ∧ t.regs.pendPc = none ∧
      (∀ a, t.mem.byte a = s.mem.byte a) ∧
      t.bp = s.bp ∧ t.cache = s.cache ∧ t.cnt = s.cnt ∧ t.load = s.load ∧ t.faultLog = s.faultLog ∧
      t.port = s.port ∧ t.params = s.params ∧ t.env = s.env

/-- `ebreak` whose event an external handler claims completes: nothing is written, the pc-written bit included, so
that it falls through; the only effect is the halt request with `semihost_request`, if the handler asks for one and
the engine is not Halted (R176, R282, R199). -/
def Obligations.ClaimedEbreakFallsThrough : Prop :=
  ∀ (s : State) (before after : List BpHandler) (h : BpHandler),
    s.env.bpHandlers = before ++ h :: after → (∀ g ∈ before, g.answer s.regs.pc = .decline) →
    (h.answer s.regs.pc = .claim → exec .ebreak s = .next s) ∧
    (h.answer s.regs.pc = .claimAndHalt → exec .ebreak s = .next
      { s with run := if s.run.runState = .halted then s.run
                      else { s.run with haltReq := true, haltReason := .semihostRequest } })

/-- "A load that follows a store to the same bytes returns the stored bytes" (R72): `sw rs2, imm(rs1)` and then
`lw rd, imm(rs1)`, outside WATCH, leave in `rd` what `rs2` held (0 in cell 0, R23). -/
def Obligations.LoadAfterStore : Prop :=
  ∀ (s : State) (rd rs1 rs2 : Reg) (imm : BitVec 12),
    s.touchesWatch (s.readX rs1 + sext12 imm) 4 = false →
    ∃ t u, exec (.sw rs1 rs2 imm) s = .next t ∧ exec (.lw rd rs1 imm) t = .next u ∧
      u.readX rd = (if rd = 0 then 0 else s.readX rs2)

/-! ## Operand handles and foreign records -/

/-- A destination allocated, filled and submitted: a general cell has the value and an empty slot and no other cell
changes (R122, R123); `Discard` changes nothing (R124); `PcDst` writes the pc and sets PC_WRITTEN (R125). Before
the submit no cell and no value a source sees has changed (R20, R26, R121). -/
def Obligations.SubmitCommitsOnce : Prop :=
  ∀ (s : State) (i : Reg) (v : Word), i ≠ 0 →
    (∀ r, ((s.alloc (.reg i)).fill (.reg i) v).readX r = s.readX r) ∧
    (s.writeDst (.reg i) v).readX i = v ∧ (∀ r, r ≠ i → (s.writeDst (.reg i) v).readX r = s.readX r) ∧
    (s.writeDst (.reg i) v).regs.pendX[i.toNat]'i.isLt = none ∧ (s.writeDst (.reg i) v).regs.pc = s.regs.pc ∧
    s.writeDst .discard v = s ∧
    ((s.alloc .pc).fill .pc v).regs.pc = s.regs.pc ∧
    (s.writeDst .pc v).regs.pc = v ∧ (s.writeDst .pc v).run.pcWritten = true ∧
    (s.writeDst .pc v).regs.pendPc = none ∧ (∀ r, (s.writeDst .pc v).readX r = s.readX r)

/-- No record that DEC6 or the trap injector makes is malformed: executing one at its own address raises no
`Internal` (R129, R104, R163). -/
def Obligations.DefaultRecordsNeverInternal : Prop :=
  ∀ (s t : State) (w : Word), execute (dec6 s.regs.pc w) s = .next t ∨ execute (trapRecord s.regs.pc) s = .next t →
    ∀ a, (FaultCode.internal, a) ∈ t.faultLog → (FaultCode.internal, a) ∈ s.faultLog

/-- A record without a handle its routine needs, the handle of a load's child included, raises `Internal` at its own
address on the fault path and does nothing else (R129, R285): what is left is the raise and no more. Only an absent handle is stated here; that every
other misfit is one too is the model's reading (log 19). -/
def Obligations.MissingHandleRaisesInternal : Prop :=
  ∀ (s : State) (r : Record),
    (r.op = .add ∨ r.op = .addi) ∧ (r.handles.src0 = none ∨ r.handles.src1 = none ∨ r.handles.dst0 = none) ∨
    r.op = .jal ∧ (r.handles.src0 = none ∨ r.handles.dst0 = none ∨ r.handles.dst1 = none) ∨
    r.op = .lw ∧ (r.handles.src0 = none ∨ r.handles.src1 = none ∨ r.child = none ∨
      ∃ c, r.child = some c ∧ c.handles.dst0 = none) ∨
    r.op = .sw ∧ (r.handles.src0 = none ∨ r.handles.src1 = none ∨ r.handles.src2 = none) ∨
    r.op = .ebreak ∧ r.handles.dst0 = none →
    execute r s = .next (s.raiseFault .internal r.addr)

/-! ## The decode cache -/

/-- `DC.invalidate(lo, n)` removes exactly the entries of which some byte is one of the range's, modulo 2^32, and
changes nothing else (R145). -/
def Obligations.InvalidateRemovesOverlaps : Prop :=
  ∀ (s : State) (lo : Addr) (n : Nat) (e : CacheEntry),
    (e ∈ (s.dcInvalidate lo n).cache.entries ↔ e ∈ s.cache.entries ∧
      ¬ ∃ k < e.inst.size, ∃ j < n, (e.addr.toNat + k) % 4294967296 = (lo.toNat + j) % 4294967296) ∧
    s.dcInvalidate lo n = { s with cache := { s.cache with entries := (s.dcInvalidate lo n).cache.entries } }

/-- In a state that meets the invariant `DC.get(a)` returns what a fresh fill produces now, or stops as a fill stops;
but for the cache it leaves the state the fill leaves, and the cache valid (R148, R141, R31). Outside WATCH, and at an
armed address, a fill changes the cache only; on watched bytes it takes WATCHER's reply (R142, R62), and that such a
record is not kept is the model's choice (log 11). -/
def Obligations.GetIsFreshDecode : Prop :=
  ∀ (s : State) (a : Addr), s.CacheOk →
    (∀ r u, s.produce a = .next (r, u) → ∃ t, s.dcGet a = .next (r, t) ∧ t = { u with cache := t.cache } ∧ t.CacheOk) ∧
    (∀ f, s.produce a = .fault f → s.dcGet a = .fault f) ∧ (∀ q, s.produce a = .refused q → s.dcGet a = .refused q) ∧
    (s.armed a = true ∨ s.touchesWatch a 4 = false → ∃ c, s.produce a = .next
      (if s.armed a then trapRecord a else s.params.dec a (le32 (s.rawRead a 4)), { s with cache := c }))

/-- A store is seen by the next fetch of the same bytes, with nothing in between (R76, R316, R147): after `sw`, at
every address that is not armed and not watched, the cache serves the decode of the bytes then in memory. -/
def Obligations.StoreSeenByFetch : Prop :=
  ∀ (s t : State) (rs1 rs2 : Reg) (imm : BitVec 12) (a : Addr), s.CacheOk →
    exec (.sw rs1 rs2 imm) s = .next t → t.armed a = false → t.touchesWatch a 4 = false →
    ∃ u, t.dcGet a = .next (t.params.dec a (le32 (t.rawRead a 4)), u)

/-! ## The loop -/

/-- When the bytes at the pc decode to an instruction, and the step is an ordinary iteration, the step is `exec` of
that instruction, at the state after the fetch with PC_WRITTEN cleared, followed by the loop's own work: the
counters, the pc unless the instruction wrote it, and the step budget (R191, R160). Outside WATCH the fetch changes the
cache only; on watched bytes the word is that of WATCHER's next reply, when it keeps the contract, and so are the
changes of memory and the halt request (R62, R63, R91, R142, U5). That an empty schedule is the engine's turn (log 6),
that DEC is DEC6 but for a table (log 8), and that WATCHER is a list of replies (log 10), are the model's choices. -/
def Obligations.StepRunsDecodedInstruction : Prop :=
  ∀ (s : State) (i : Instr), s.Inv → s.port.schedule = [] → s.run.runState ≠ .halted → s.run.resumeBp = false →
    s.stopCondition = false → s.armed s.regs.pc = false →
    (s.touchesWatch s.regs.pc 4 = false →
      s.params.decoder.lookup (s.regs.pc, s.fetchWord s.regs.pc) = none → decode (s.fetchWord s.regs.pc) = .ok i →
      ∃ c, step s = Result.andThen (exec i { s with cache := c, run := { s.run with pcWritten := false } })
        fun u => .next (u.finishIteration s.regs.pc (recordOf s.regs.pc i))) ∧
    (∀ (r : WatchReply) (rest : List WatchReply), s.touchesWatch s.regs.pc 4 = true → s.env.watcher = r :: rest →
      r.bytes.length = 4 → r.writesInside s.regs.pc 4 = true →
      s.params.decoder.lookup (s.regs.pc, le32 r.bytes) = none → decode (le32 r.bytes) = .ok i →
      ∃ c, step s = Result.andThen (exec i { s with
          mem := s.mem.storeCells r.writes
          env := { s.env with watcher := rest }
          cache := c
          run := { s.run with
            haltReq := r.halt
            haltReason := if r.halt then .semihostRequest else s.run.haltReason
            pcWritten := false } })
        fun u => .next (u.finishIteration s.regs.pc (recordOf s.regs.pc i)))

/-- The loop's own work after an instruction (R191 to R193): the tag's counter and the total go up by one, the pc is
the address of the instruction plus 4 unless the instruction wrote it, and in `SingleStepping` one instruction
moves from left to done; nothing else changes. -/
def Obligations.FinishCountsAndAdvances : Prop :=
  ∀ (u : State) (a : Addr) (i : Instr),
    let t := u.finishIteration a (recordOf a i)
    t.cnt.total = u.cnt.total + 1 ∧ t.cntOp (tagOf i) = u.cntOp (tagOf i) + 1 ∧
    (∀ g, g ≠ tagOf i → t.cntOp g = u.cntOp g) ∧
    (u.run.pcWritten = true → t.regs = u.regs) ∧
    (u.run.pcWritten = false → t.regs = { u.regs with pc := a + 4 }) ∧
    (u.run.runState = .singleStepping →
      t.run = { u.run with stepLeft := u.run.stepLeft - 1, stepDone := u.run.stepDone + 1 }) ∧
    (u.run.runState ≠ .singleStepping → t.run = u.run) ∧
    t = { u with regs := t.regs, run := t.run, cnt := t.cnt }

/-- A step over a word that is no instruction (R178, R284, R283): the fault is logged with the instruction's address,
a halt is requested with `user_request` if the fault handler elects to, no register changes, the pc goes on by 4, and
the instruction is counted as ILLEGAL. Here `f` is the state after the fetch's read of memory (R142); outside WATCH it
is the state before, so that no byte of memory changes either. -/
def Obligations.IllegalStepLogsAndGoesOn : Prop :=
  ∀ (s f : State) (b : List Byte) (e : Reject), s.Inv → s.port.schedule = [] → s.run.runState ≠ .halted →
    s.run.resumeBp = false → s.stopCondition = false → s.armed s.regs.pc = false →
    s.memRead s.regs.pc 4 = .next (b, f) →
    s.params.decoder.lookup (s.regs.pc, le32 b) = none → decode (le32 b) = .error e →
    (s.touchesWatch s.regs.pc 4 = false → f = s) ∧
    ∃ t, step s = .next t ∧ t.faultLog = s.faultLog ++ [(.illegalInstruction, s.regs.pc)] ∧
      t.regs = { s.regs with pc := s.regs.pc + 4 } ∧ t.mem = f.mem ∧ t.bp = s.bp ∧ t.load = s.load ∧
      t.cnt.total = s.cnt.total + 1 ∧ t.cntOp .illegal = s.cntOp .illegal + 1 ∧
      (∀ g, g ≠ .illegal → t.cntOp g = s.cntOp g) ∧
      t.run = { s.run with
        pcWritten := false
        stepLeft := if s.run.runState = .singleStepping then s.run.stepLeft - 1 else s.run.stepLeft
        stepDone := if s.run.runState = .singleStepping then s.run.stepDone + 1 else s.run.stepDone
        haltReq := f.run.haltReq || s.env.faultHandler.halts .illegalInstruction s.regs.pc
        haltReason := if s.env.faultHandler.halts .illegalInstruction s.regs.pc then .userRequest
          else f.run.haltReason } ∧
      t.port = s.port ∧ t.params = s.params ∧ t.env = f.env

/-- A step at an armed address that no external handler claims runs the trap whatever bytes lie there (R142, R176, R240,
R241, R243): the halt is requested with `software_breakpoint`, the pc stays, memory and registers and the table
stay, and it counts as an EBREAK. -/
def Obligations.ArmedAddressTraps : Prop :=
  ∀ s : State, s.Inv → s.port.schedule = [] → s.run.runState ≠ .halted → s.run.resumeBp = false →
    s.stopCondition = false → s.armed s.regs.pc = true → (∀ h ∈ s.env.bpHandlers, h.answer s.regs.pc = .decline) →
    ∃ t, step s = .next t ∧ t.regs = s.regs ∧ t.mem = s.mem ∧ t.bp = s.bp ∧ t.faultLog = s.faultLog ∧
      t.run = { s.run with
        haltReq := true
        haltReason := .softwareBreakpoint
        pcWritten := true
        stepLeft := if s.run.runState = .singleStepping then s.run.stepLeft - 1 else s.run.stepLeft
        stepDone := if s.run.runState = .singleStepping then s.run.stepDone + 1 else s.run.stepDone } ∧
      t.cnt.total = s.cnt.total + 1 ∧ t.cntOp .ebreak = s.cntOp .ebreak + 1 ∧
      (∀ g, g ≠ .ebreak → t.cntOp g = s.cntOp g) ∧ t.port = s.port ∧ t.params = s.params ∧ t.env = s.env

/-- The halt transition (R198): taken by the engine's turn when the stop condition holds and no resume is due;
HALT_ADDR is the pc, the state is Halted, HALT_REQ is 0, HALT_REASON stays; a pending `step` is answered with the
count, a background run pulses RUN_DONE, and then every pending `wait` is answered. -/
def Obligations.HaltTransitionAnswers : Prop :=
  ∀ s : State, s.port.schedule = [] → s.run.runState ≠ .halted → s.run.resumeBp = false → s.stopCondition = true →
    step s = .next { s with
      run := { s.run with haltAddr := s.regs.pc, runState := .halted, haltReq := false }
      port := { s.port with
        waiting := 0
        out := s.port.out
          ++ (if s.run.runState = .singleStepping then [.response .step (.ok (.executed s.run.stepDone))]
              else [.runDone])
          ++ List.replicate s.port.waiting (.response .wait (.ok .unit)) } }

/-- Nothing but the engine's own halt transition ends a run (R190, R201, R322): if a step leaves a state that was
not Halted in Halted, the turn was the engine's and the step was the halt transition, with the stop condition
true; for a background run that is a halt request, with a reason recorded where the invariant holds. -/
def Obligations.OnlyHaltTransitionHalts : Prop :=
  ∀ s t : State, step s = .next t → s.run.runState ≠ .halted → t.run.runState = .halted →
    (s.port.schedule = [] ∨ ∃ rest, s.port.schedule = Turn.engine :: rest) ∧
    t = { s with port := { s.port with schedule := s.port.schedule.tail } }.haltTransition ∧
    s.stopCondition = true ∧
    (s.run.runState = .running → s.run.haltReq = true ∧ (s.Inv → t.run.haltReason ≠ .none))

/-- The engine never steps while Halted: its turn changes nothing (R195; that the turn then is an idle step is the
model's choice, log 7), and every turn of another agent leaves the counters, the load record and the fault log as
they are (R37: counters "are updated by the single execution thread only"). -/
def Obligations.OnlyEngineCounts : Prop :=
  ∀ (s t : State) (u : Turn), runTurn u s = .next t → (u ≠ .engine ∨ s.run.runState = .halted) →
    t.cnt = s.cnt ∧ t.load = s.load ∧ t.faultLog = s.faultLog ∧ (u = .engine → t = s)

/-- The resume iteration at an enabled breakpoint (R206): the real instruction is executed once, with the record
disabled around it; afterwards the table is as it was, the record enabled again, and no resume is due. HALT_REQ is
not looked at. Here `f` is the state after the fetch's read of memory (R142), the state before it outside WATCH. -/
def Obligations.ResumeExecutesOriginalOnce : Prop :=
  ∀ (s f : State) (w : List Byte) (i : Instr), s.Inv → s.port.schedule = [] → s.run.runState ≠ .halted →
    s.run.resumeBp = true → s.armed s.regs.pc = true → s.memRead s.regs.pc 4 = .next (w, f) →
    s.params.decoder.lookup (s.regs.pc, le32 w) = none → decode (le32 w) = .ok i →
    (s.touchesWatch s.regs.pc 4 = false → f = s ∧ le32 w = s.fetchWord s.regs.pc) ∧
    ∃ (c : Cache) (b : BpTable), Sparse.lookup s.regs.pc.toNat b = some false ∧
      (∀ x, x ≠ s.regs.pc.toNat → Sparse.lookup x b = Sparse.lookup x s.bp) ∧
      (∀ u, exec i { f with cache := c, bp := b, run := { f.run with pcWritten := false } } = .next u →
        ∃ t, step s = .next t ∧ t.armed s.regs.pc = true ∧
          t = { u.finishIteration s.regs.pc (recordOf s.regs.pc i) with
            bp := s.bp
            cache := t.cache
            run := { (u.finishIteration s.regs.pc (recordOf s.regs.pc i)).run with resumeBp := false } })

/-- A program's own `ebreak` is never stepped past (R208): resuming on one with no record at its address executes it
again, requests the halt again and leaves the pc on it. The word is what the fetch's read of memory gives (R142), on
watched bytes WATCHER's. -/
def Obligations.ProgramEbreakStays : Prop :=
  ∀ (s f : State) (w : List Byte), s.Inv → s.port.schedule = [] → s.run.runState ≠ .halted → s.run.resumeBp = true →
    s.bpAt s.regs.pc = none → s.memRead s.regs.pc 4 = .next (w, f) →
    s.params.decoder.lookup (s.regs.pc, le32 w) = none →
    (∀ h ∈ s.env.bpHandlers, h.answer s.regs.pc = .decline) → decode (le32 w) = .ok .ebreak →
    ∃ t, step s = .next t ∧ t.regs = s.regs ∧ t.run.haltReq = true ∧ t.run.haltReason = .softwareBreakpoint ∧
      t.run.resumeBp = false ∧ t.cnt.total = s.cnt.total + 1

/-! ## Commands -/

/-- `step(n)` (R200, R203): not Halted, a precondition error; n not positive, an invalid argument; else it is
accepted with no response yet, the budget is n, and the resume bit says whether the last halt was a software
breakpoint. -/
def Obligations.StepCommand : Prop :=
  ∀ (s : State) (n : BitVec 32),
    (s.run.runState ≠ .halted →
      runCommand (.step n) s = .next (s.emit (.response .step (.err .precondition)))) ∧
    (s.run.runState = .halted → n.toInt ≤ 0 →
      runCommand (.step n) s = .next (s.emit (.response .step (.err .invalidArgument)))) ∧
    (s.run.runState = .halted → 0 < n.toInt →
      ∃ t, runCommand (.step n) s = .next t ∧ t = { s with run := t.run } ∧
        t.run.runState = .singleStepping ∧ (t.run.stepLeft.toNat : Int) = n.toInt ∧ t.run.stepDone = 0 ∧
        t.run.haltReason = .none ∧ t.run.haltReq = false ∧
        (t.run.resumeBp = true ↔ s.run.haltReason = .softwareBreakpoint) ∧
        t.run.haltAddr = s.run.haltAddr ∧ t.run.pcWritten = s.run.pcWritten)

/-- `run()` (R201, R203): not Halted, a precondition error; else the state is Running at once and the response is
`ok`. -/
def Obligations.RunStartsAtOnce : Prop :=
  ∀ s : State,
    (s.run.runState ≠ .halted → runCommand .run s = .next (s.emit (.response .run (.err .precondition)))) ∧
    (s.run.runState = .halted → runCommand .run s = .next { s with
      run := { s.run with
        runState := .running, haltReason := .none, haltReq := false,
        resumeBp := decide (s.run.haltReason = .softwareBreakpoint) }
      port := { s.port with out := s.port.out ++ [.response .run (.ok .unit)] } })

/-- `halt()` is a request, not a transition (R202, R199), and a precondition error while Halted; `wait()` is
answered at once while Halted and otherwise stays pending, changing nothing else (R205). That pending waits are
counted is the model's choice (log 18). -/
def Obligations.HaltAndWaitCommands : Prop :=
  ∀ s : State,
    (s.run.runState = .halted → runCommand .halt s = .next (s.emit (.response .halt (.err .precondition)))) ∧
    (s.run.runState ≠ .halted → runCommand .halt s = .next
      { s with run := { s.run with haltReq := true, haltReason := .userRequest }
               port := { s.port with out := s.port.out ++ [.response .halt (.ok .unit)] } }) ∧
    (s.run.runState = .halted → runCommand .wait s = .next (s.emit (.response .wait (.ok .unit)))) ∧
    (s.run.runState ≠ .halted → runCommand .wait s = .next
      { s with port := { s.port with waiting := s.port.waiting + 1 } })

/-- "`get_run_status()` responds `ok(RUN_STATE)` in every state"; `get_last_halt_reason()` responds the reason while
Halted and a precondition error otherwise; "Neither command changes anything" (R204). -/
def Obligations.StatusCommands : Prop :=
  ∀ s : State,
    runCommand .getRunStatus s = .next (s.emit (.response .getRunStatus (.ok (.status s.run.runState)))) ∧
    runCommand .getLastHaltReason s = .next (s.emit (.response .getLastHaltReason
      (if s.run.runState = .halted then .ok (.reason s.run.haltReason) else .err .precondition)))

/-- The precondition column of R210 for the commands that need Halted: issued in another state each ends in
`err(precondition)` and nothing changes but the response on the port (R210, R230, R260, R12). -/
def Obligations.PreconditionTable : Prop :=
  ∀ (s : State) (n : BitVec 32) (name : String) (v : Word) (a : Addr) (k : Nat) (b : List Byte),
    s.run.runState ≠ .halted →
    ∀ p ∈ [(Command.step n, Asked.step), (.run, .run), (.getLastHaltReason, .getLastHaltReason),
        (.readRegister name, .readRegister), (.writeRegister name v, .writeRegister),
        (.readMemory a k, .readMemory), (.writeMemory a b, .writeMemory),
        (.setBreakpoint a, .setBreakpoint), (.clearBreakpoint a, .clearBreakpoint),
        (.clearAllBreakpoints, .clearAllBreakpoints), (.hasBreakpoint a, .hasBreakpoint),
        (.getInstruction a, .getInstruction), (.disassemble a, .disassemble)],
      runCommand p.1 s = .next (s.emit (.response p.2 (.err .precondition)))

/-- Every command puts exactly one response on the port, or is a `step` or `wait` accepted now and answered later;
and "A command that ends in `err` changes no state of the engine" (R12, R9). -/
def Obligations.ErrorsChangeNothing : Prop :=
  ∀ (s t : State) (c : Command), runCommand c s = .next t →
    (∃ q r, t.port.out = s.port.out ++ [.response q r] ∧
      ∀ k, r = .err k → t = s.emit (.response q (.err k))) ∨
    (t.port.out = s.port.out ∧ t.run.runState ≠ .halted ∧ ((∃ n, c = .step n) ∨ c = .wait))

/-- `read_register(name)` (R261): a precondition error unless Halted; else `not_found` for an unknown name and the
cell's value for a known one, 0 for cell 0; nothing changes but the response on the port, and two names of one cell
answer alike. -/
def Obligations.ReadRegister : Prop :=
  ∀ (s : State) (name : String),
    (s.run.runState ≠ .halted →
      runCommand (.readRegister name) s = .next (s.emit (.response .readRegister (.err .precondition)))) ∧
    (s.run.runState = .halted → cellOf name = none →
      runCommand (.readRegister name) s = .next (s.emit (.response .readRegister (.err .notFound)))) ∧
    (∀ i, s.run.runState = .halted → cellOf name = some (.x i) →
      runCommand (.readRegister name) s = .next (s.emit (.response .readRegister (.ok (.word
        (if i = 0 then 0 else s.regs.x[i.toNat]'i.isLt)))))) ∧
    (s.run.runState = .halted → cellOf name = some .pc →
      runCommand (.readRegister name) s = .next (s.emit (.response .readRegister (.ok (.word s.regs.pc))))) ∧
    (∀ alt, cellOf alt = cellOf name → runCommand (.readRegister alt) s = runCommand (.readRegister name) s)

/-- `write_register(name, v)` of a general cell while Halted (R262, R23): the cell reads v after, cell 0 reads 0; no
other cell changes, nor the pc, nor anything else but the port. -/
def Obligations.WriteGeneralRegister : Prop :=
  ∀ (s : State) (name : String) (v : Word) (i : Reg), s.run.runState = .halted → cellOf name = some (.x i) →
    ∃ t, runCommand (.writeRegister name v) s = .next t ∧
      t.readX i = (if i = 0 then 0 else v) ∧ (∀ r, r ≠ i → t.readX r = s.readX r) ∧
      t = { s with
        regs := { s.regs with x := t.regs.x }
        port := { s.port with out := s.port.out ++ [.response .writeRegister (.ok .unit)] } }

/-- `write_register("pc", v)` while Halted (R262): the pc is v; a reason `software_breakpoint` becomes `none` and any
other reason stays; nothing else changes, the breakpoint table and HALT_ADDR included. -/
def Obligations.WritePcClearsBreakpointReason : Prop :=
  ∀ (s : State) (v : Word), s.run.runState = .halted →
    runCommand (.writeRegister "pc" v) s = .next { s with
      regs := { s.regs with pc := v }
      run := { s.run with haltReason :=
        if s.run.haltReason = .softwareBreakpoint then .none else s.run.haltReason }
      port := { s.port with out := s.port.out ++ [.response .writeRegister (.ok .unit)] } }

/-- `write_memory` and then `read_memory` while Halted (R263, R264): byte k is at address + k, modulo 2^32; every byte
outside stays; the entries over the range go; nothing else changes; a read gives back what was written and changes
nothing. Of a write of more than 2^32 bytes, which reaches addresses twice, the later byte stays: the model's choice
(log 29). -/
def Obligations.WriteThenReadMemory : Prop :=
  ∀ (s : State) (a : Addr) (b : List Byte), s.run.runState = .halted →
    ∃ t, runCommand (.writeMemory a b) s = .next t ∧
      (∀ k (h : k < b.length), b.length ≤ k + 4294967296 → t.mem.byte (a + BitVec.ofNat 32 k) = b[k]) ∧
      (∀ x, inRange a b.length x = false → t.mem.byte x = s.mem.byte x) ∧
      (∀ e, e ∈ t.cache.entries ↔ e ∈ s.cache.entries ∧ overlaps e.addr e.inst.size a b.length = false) ∧
      t = { s with
        mem := t.mem
        cache := { s.cache with entries := t.cache.entries }
        port := { s.port with out := s.port.out ++ [.response .writeMemory (.ok .unit)] } } ∧
      (b.length ≤ 4294967296 → runCommand (.readMemory a b.length) t
        = .next (t.emit (.response .readMemory (.ok (.bytes b)))))

/-- `set_breakpoint(a)` while Halted (R231, R241): there is a record at a after, enabled if it is new and left as it
is if not; the records elsewhere stay; the cache entry for a goes; nothing else changes, memory included; and a
second time changes the table no more. -/
def Obligations.SetBreakpoint : Prop :=
  ∀ (s : State) (a : Addr), s.run.runState = .halted →
    ∃ t, runCommand (.setBreakpoint a) s = .next t ∧
      t.bpAt a = some ((s.bpAt a).getD true) ∧ (∀ x, x ≠ a → t.bpAt x = s.bpAt x) ∧
      (∀ e, e ∈ t.cache.entries ↔ e ∈ s.cache.entries ∧ e.addr ≠ a) ∧
      t = { s with
        bp := t.bp
        cache := { s.cache with entries := t.cache.entries }
        port := { s.port with out := s.port.out ++ [.response .setBreakpoint (.ok .unit)] } } ∧
      ∃ u, runCommand (.setBreakpoint a) t = .next u ∧ u.bp = t.bp

/-- `clear_breakpoint(a)` while Halted (R232): with no record at a, `not_found` and nothing changes; else the record
and the cache entry go and nothing else. -/
def Obligations.ClearBreakpoint : Prop :=
  ∀ (s : State) (a : Addr), s.run.runState = .halted →
    (s.bpAt a = none → runCommand (.clearBreakpoint a) s
      = .next (s.emit (.response .clearBreakpoint (.err .notFound)))) ∧
    (∀ b, s.bpAt a = some b → ∃ t, runCommand (.clearBreakpoint a) s = .next t ∧
      t.bpAt a = none ∧ (∀ x, x ≠ a → t.bpAt x = s.bpAt x) ∧
      (∀ e, e ∈ t.cache.entries ↔ e ∈ s.cache.entries ∧ e.addr ≠ a) ∧
      t = { s with
        bp := t.bp
        cache := { s.cache with entries := t.cache.entries }
        port := { s.port with out := s.port.out ++ [.response .clearBreakpoint (.ok .unit)] } })

/-- `clear_all_breakpoints()` (R233): a precondition error unless Halted; else the table is empty after, exactly the
cache entries for the addresses that had a record go, and nothing else changes. -/
def Obligations.ClearAllBreakpoints : Prop :=
  ∀ s : State, s.BpOk →
    (s.run.runState ≠ .halted → runCommand .clearAllBreakpoints s
      = .next (s.emit (.response .clearAllBreakpoints (.err .precondition)))) ∧
    (s.run.runState = .halted → ∃ t, runCommand .clearAllBreakpoints s = .next t ∧ t.bp = [] ∧
      (∀ e, e ∈ t.cache.entries ↔ e ∈ s.cache.entries ∧ s.bpAt e.addr = none) ∧
      t = { s with
        bp := []
        cache := { s.cache with entries := t.cache.entries }
        port := { s.port with out := s.port.out ++ [.response .clearAllBreakpoints (.ok .unit)] } })

/-- `has(a)` (R234) and `is_enabled(a)` (R235): a precondition error unless Halted; else whether there is a record, and
whether there is an enabled one, the case of no record included. Neither changes anything. -/
def Obligations.BreakpointQueries : Prop :=
  ∀ (s : State) (a : Addr),
    runCommand (.hasBreakpoint a) s = .next (s.emit (.response .hasBreakpoint
      (if s.run.runState = .halted then .ok (.bool (decide (∃ b, Sparse.lookup a.toNat s.bp = some b)))
       else .err .precondition))) ∧
    runManagerOp (.isEnabled a) s = s.emit (.response .isEnabled
      (if s.run.runState = .halted then .ok (.bool (decide (Sparse.lookup a.toNat s.bp = some true)))
       else .err .precondition))

/-- `enable(a)` (R236) and `disable(a)` (R237), with the bit they write as `on`: a precondition error unless Halted, not
found without a record; else the record's bit is written, the record stays, the cache entry for a goes, and nothing else changes. -/
def Obligations.EnableDisable : Prop :=
  ∀ (s : State) (a : Addr) (on : Bool),
    let op : ManagerOp := if on then .enable a else .disable a
    let q : Asked := if on then .enable else .disable
    (s.run.runState ≠ .halted → runManagerOp op s = s.emit (.response q (.err .precondition))) ∧
    (s.run.runState = .halted → s.bpAt a = none → runManagerOp op s = s.emit (.response q (.err .notFound))) ∧
    (∀ b, s.run.runState = .halted → s.bpAt a = some b →
      (runManagerOp op s).bpAt a = some on ∧ (∀ x, x ≠ a → (runManagerOp op s).bpAt x = s.bpAt x) ∧
      (∀ e, e ∈ (runManagerOp op s).cache.entries ↔ e ∈ s.cache.entries ∧ e.addr ≠ a) ∧
      runManagerOp op s = { s with
        bp := (runManagerOp op s).bp
        cache := { s.cache with entries := (runManagerOp op s).cache.entries }
        port := { s.port with out := s.port.out ++ [.response q (.ok .unit)] } })

/-- `get_instruction(a)` while Halted (R265): the response is the record the loop would execute at a, the trap if a is
armed, else the decode of the word there; nothing but the cache and the port changes. On watched bytes of an address
that is not armed the word is that of WATCHER's next reply, when it keeps the contract, and memory changes as the reply
says; its halt request has no effect while Halted (R63, R199, U5). That WATCHER is a list of replies is the model's
choice (log 10). -/
def Obligations.GetInstructionShowsServedRecord : Prop :=
  ∀ (s : State) (a : Addr), s.Inv → s.run.runState = .halted →
    (s.armed a = true ∨ s.touchesWatch a 4 = false →
      ∃ c : Cache, runCommand (.getInstruction a) s = .next ({ s with cache := c }.emit (.response .getInstruction
        (.ok (.record (if s.armed a then trapRecord a else s.params.dec a (le32 (s.rawRead a 4)))))))) ∧
    (∀ (r : WatchReply) (rest : List WatchReply), s.armed a = false → s.touchesWatch a 4 = true →
      s.env.watcher = r :: rest → r.bytes.length = 4 → r.writesInside a 4 = true →
      ∃ c : Cache, runCommand (.getInstruction a) s = .next ({ s with
          mem := s.mem.storeCells r.writes
          env := { s.env with watcher := rest }
          cache := c }.emit (.response .getInstruction (.ok (.record (s.params.dec a (le32 r.bytes)))))))

/-- Breakpoint transparency (R242, R266): outside WATCH `disassemble(a)` gives after `set_breakpoint(a)` the text it
gave before, whether or not a record was at a, and whatever DISASM is. On watched bytes it gives the text of the word
of WATCHER's next reply, when that keeps the contract, whether or not a is armed; memory changes as the reply says, and
its halt request has no effect while Halted (R63, R199, U5). That DISASM is a text for each record, with a table of
exceptions (log 15), and WATCHER a list of replies (log 10), are the model's choices. -/
def Obligations.DisassembleTransparent : Prop :=
  ∀ (s : State) (a : Addr), s.Inv → s.run.runState = .halted →
    (s.touchesWatch a 4 = false → ∃ (txt : String) (t u v : State),
      runCommand (.disassemble a) s = .next t ∧
      t.port.out = s.port.out ++ [.response .disassemble (.ok (.text txt))] ∧
      runCommand (.setBreakpoint a) s = .next u ∧ runCommand (.disassemble a) u = .next v ∧
      v.port.out = u.port.out ++ [.response .disassemble (.ok (.text txt))]) ∧
    (∀ (r : WatchReply) (rest : List WatchReply), s.touchesWatch a 4 = true → s.env.watcher = r :: rest →
      r.bytes.length = 4 → r.writesInside a 4 = true →
      ∃ c : Cache, runCommand (.disassemble a) s = .next ({ s with
          mem := s.mem.storeCells r.writes
          env := { s.env with watcher := rest }
          cache := c }.emit (.response .disassemble (.ok (.text (s.params.text (s.params.dec a (le32 r.bytes))))))))

/-- The name table (R22, R25), its 65 pairs written out: each architectural name and each alias names its cell, `pc`
names the pc cell, and every other string, a name in capitals or past `x31` too, names nothing. -/
def Obligations.RegisterNames : Prop :=
  let pairs : List (String × Reg) :=
    [("x0", 0), ("zero", 0), ("x1", 1), ("ra", 1), ("x2", 2), ("sp", 2), ("x3", 3), ("gp", 3), ("x4", 4), ("tp", 4),
      ("x5", 5), ("t0", 5), ("x6", 6), ("t1", 6), ("x7", 7), ("t2", 7), ("x8", 8), ("s0", 8), ("fp", 8)] ++
    [("x9", 9), ("s1", 9), ("x10", 10), ("a0", 10), ("x11", 11), ("a1", 11), ("x12", 12), ("a2", 12), ("x13", 13),
      ("a3", 13), ("x14", 14), ("a4", 14), ("x15", 15), ("a5", 15), ("x16", 16), ("a6", 16), ("x17", 17)] ++
    [("a7", 17), ("x18", 18), ("s2", 18), ("x19", 19), ("s3", 19), ("x20", 20), ("s4", 20), ("x21", 21), ("s5", 21),
      ("x22", 22), ("s6", 22), ("x23", 23), ("s7", 23), ("x24", 24), ("s8", 24), ("x25", 25), ("s9", 25)] ++
    [("x26", 26), ("s10", 26), ("x27", 27), ("s11", 27), ("x28", 28), ("t3", 28), ("x29", 29), ("t4", 29),
      ("x30", 30), ("t5", 30), ("x31", 31), ("t6", 31)]
  (∀ p ∈ pairs, cellOf p.1 = some (.x p.2)) ∧ cellOf "pc" = some .pc ∧
  (∀ name, name ≠ "pc" → (∀ p ∈ pairs, p.1 ≠ name) → cellOf name = none) ∧
  cellOf "A0" = none ∧ cellOf "x32" = none

/-! ## Exceptional events -/

/-- `raise K(a)` (R283): the fault is appended to the log; the halt is requested with `user_request` exactly if the
handler answers so and the engine is not Halted (R199); nothing else changes, control included. -/
def Obligations.RaiseLogsAndAsks : Prop :=
  ∀ (s : State) (k : FaultCode) (a : Addr),
    s.raiseFault k a = { s with
      faultLog := s.faultLog ++ [(k, a)]
      run := if s.env.faultHandler.halts k a = true ∧ s.run.runState ≠ .halted then
        { s.run with haltReq := true, haltReason := .userRequest } else s.run }

/-- The handler chain (R282): the first handler in list order that claims ends the chain and its halt request is
made; if none claims, the event is unclaimed and nothing has changed. That a handler is a table is the model's choice
(log 12). -/
def Obligations.FirstResponderWins : Prop :=
  ∀ (s : State) (a : Addr),
    ((∀ h ∈ s.env.bpHandlers, h.answer a = .decline) → s.breakpointEvent a = (false, s)) ∧
    (∀ before h after, s.env.bpHandlers = before ++ h :: after → (∀ g ∈ before, g.answer a = .decline) →
      h.answer a ≠ .decline → s.breakpointEvent a =
        (true, if h.answer a = .claimAndHalt then s.requestHalt .semihostRequest else s))

/-- FAULT_LOG is append-only, and one step raises at most one fault (R42, R288). -/
def Obligations.FaultLogAppendOnly : Prop :=
  ∀ s t : State, step s = .next t → ∃ l, l.length ≤ 1 ∧ t.faultLog = s.faultLog ++ l

/-! ## Reset and the whole machine -/

/-- What reset leaves, for every value of the open parameters (R45, R311): Halted, reason none, no request, no
breakpoint, an empty cache, counters zero, the pc at ENTRY_PC, cell 0 zero, x1..x31 as INIT_REGS, no load
suspended, no fault logged, memory as the loader left it. -/
def Obligations.ResetLeaves : Prop :=
  ∀ (regs : Vector Word 32) (pc : Word) (mem : Memory) (p : Params) (e : Env),
    let s := State.resetWith regs pc mem p e
    s.run.runState = .halted ∧ s.run.haltReason = .none ∧ s.run.haltReq = false ∧ s.run.resumeBp = false ∧
    s.run.pcWritten = false ∧ s.bp = [] ∧ s.cache.entries = [] ∧ s.cnt.total = 0 ∧ (∀ t, s.cntOp t = 0) ∧
    s.regs.pc = pc ∧ s.readX 0 = 0 ∧ (∀ i : Reg, i ≠ 0 → s.readX i = regs[i.toNat]'i.isLt) ∧
    s.regs.pendPc = none ∧ (∀ k (h : k < 32), s.regs.pendX[k] = none) ∧
    s.load = none ∧ s.faultLog = [] ∧ s.mem = mem

/-- The invariant holds after reset, for every value of the open parameters within their constraints. -/
def Obligations.InvariantAtReset : Prop :=
  ∀ (regs : Vector Word 32) (pc : Word) (mem : Memory) (p : Params) (e : Env), mem.wf → 1 ≤ p.cacheCap →
    (State.resetWith regs pc mem p e).Inv

/-- Every step keeps the invariant: memory and the breakpoint table in canonical form, cell 0 zero, no pending write
and no suspended load between steps, the run-control state consistent, and the decode cache never stale (R23, R26,
R31, R41, R147, R320). -/
def Obligations.StepKeepsInvariant : Prop :=
  ∀ s t : State, s.Inv → step s = .next t → t.Inv

/-- The decode cache, its capacity and the history of earlier fetches are unobservable (R148, R77, R143): from two
states that meet the invariant and differ in the cache and CACHE_CAP alone, a step stops for the same reason or
gives two states that again differ in nothing else, the responses on the port included. -/
def Obligations.CacheUnobservable : Prop :=
  ∀ s t : State, s.Inv → t.Inv → s.SameButCache t →
    (∃ s' t', step s = .next s' ∧ step t = .next t' ∧ s'.SameButCache t') ∨
    (∃ f, step s = .fault f ∧ step t = .fault f) ∨ (∃ r, step s = .refused r ∧ step t = .refused r)

/-- The engine's own step changes no breakpoint record, the resume iteration included (R244, R238, R290: the
breakpoint is enabled again "all the same"). -/
def Obligations.EngineKeepsBreakpoints : Prop :=
  ∀ s t : State, s.BpOk → engineStep s = .next t → t.bp = s.bp

/-- A record is disabled only transiently (R238): unless the turn is the manager's `disable`, which a model may
expose and this one does (log 17), a step leaves every record enabled if it was. -/
def Obligations.RecordsStayEnabled : Prop :=
  ∀ s t : State, s.BpOk → s.AllEnabled → (∀ a, s.port.schedule.head? ≠ some (.manager (.disable a))) →
    step s = .next t → t.AllEnabled
end

