-- ==== Sys2Proof/Laws/Sparse.lean ====
section
/-! SUPPORT. The laws of finite maps as sorted lists: what a lookup gives after an insertion or an erasure, and that
both keep the order of the keys. -/

namespace Sys2Proof.Machine.Sparse

variable {β : Type}

@[simp] theorem lookup_insert_self (k : Nat) (v : β) (l : List (Nat × β)) :
    lookup k (insert k v l) = some v := by
  induction l with
  | nil => simp [insert, lookup]
  | cons p l ih =>
    obtain ⟨j, w⟩ := p
    simp only [insert]
    split
    · simp [lookup]
    · split
      · simp [lookup]
      · have : ¬ j = k := by omega
        simp [lookup, this, ih]

theorem lookup_insert_ne {k j : Nat} (h : j ≠ k) (v : β) (l : List (Nat × β)) :
    lookup j (insert k v l) = lookup j l := by
  induction l with
  | nil => simp [insert, lookup, Ne.symm h]
  | cons p l ih =>
    obtain ⟨i, w⟩ := p
    simp only [insert]
    split
    · simp [lookup, Ne.symm h]
    · split
      · next hk => subst hk; simp [lookup, Ne.symm h]
      · simp [lookup, ih]

@[simp] theorem lookup_erase_self (k : Nat) (l : List (Nat × β)) : lookup k (erase k l) = none := by
  induction l with
  | nil => rfl
  | cons p l ih =>
    obtain ⟨i, w⟩ := p
    by_cases h : i = k <;> simp [erase, lookup, h, ih]

theorem lookup_erase_ne {k j : Nat} (h : j ≠ k) (l : List (Nat × β)) :
    lookup j (erase k l) = lookup j l := by
  induction l with
  | nil => rfl
  | cons p l ih =>
    obtain ⟨i, w⟩ := p
    by_cases hi : i = k
    · simp [erase, lookup, hi, ih]; intro e; omega
    · simp [erase, lookup, hi, ih]

/-- A key of an insertion is the inserted one or a key of before. -/
theorem mem_insert {p : Nat × β} {k : Nat} {v : β} {l : List (Nat × β)} (h : p ∈ insert k v l) :
    p = (k, v) ∨ p ∈ l := by
  induction l with
  | nil => simpa [insert] using h
  | cons q l ih =>
    obtain ⟨i, w⟩ := q
    simp only [insert] at h
    split at h
    · simpa using h
    · split at h
      · rcases List.mem_cons.1 h with h | h
        · exact .inl h
        · exact .inr (List.mem_cons_of_mem _ h)
      · rcases List.mem_cons.1 h with h | h
        · exact .inr (h ▸ List.mem_cons_self)
        · exact (ih h).imp_right (List.mem_cons_of_mem _)

theorem mem_erase {p : Nat × β} {k : Nat} {l : List (Nat × β)} (h : p ∈ erase k l) : p ∈ l ∧ p.1 ≠ k := by
  induction l with
  | nil => simp [erase] at h
  | cons q l ih =>
    obtain ⟨i, w⟩ := q
    by_cases hi : i = k
    · simp only [erase, hi, if_true] at h
      exact ⟨List.mem_cons_of_mem _ (ih h).1, (ih h).2⟩
    · simp only [erase, hi, if_false] at h
      rcases List.mem_cons.1 h with h | h
      · subst h; exact ⟨List.mem_cons_self, hi⟩
      · exact ⟨List.mem_cons_of_mem _ (ih h).1, (ih h).2⟩

theorem sorted_insert {l : List (Nat × β)} (h : sorted l) (k : Nat) (v : β) : sorted (insert k v l) := by
  induction l with
  | nil => simp [insert, sorted]
  | cons q l ih =>
    obtain ⟨i, w⟩ := q
    rw [sorted, List.pairwise_cons] at h
    simp only [insert]
    split
    · next hk =>
      refine List.pairwise_cons.2 ⟨?_, List.pairwise_cons.2 h⟩
      intro p hp
      rcases List.mem_cons.1 hp with e | hp
      · rw [e]; exact hk
      · exact Nat.lt_trans hk (h.1 p hp)
    · split
      · next hk => subst hk; exact List.pairwise_cons.2 ⟨h.1, h.2⟩
      · refine List.pairwise_cons.2 ⟨?_, ih h.2⟩
        intro p hp
        rcases mem_insert hp with e | hp
        · subst e; show i < k; omega
        · exact h.1 p hp

theorem sorted_erase {l : List (Nat × β)} (h : sorted l) (k : Nat) : sorted (erase k l) := by
  induction l with
  | nil => exact h
  | cons q l ih =>
    obtain ⟨i, w⟩ := q
    rw [sorted, List.pairwise_cons] at h
    simp only [erase]
    split
    · exact ih h.2
    · exact List.pairwise_cons.2 ⟨fun p hp => h.1 p (mem_erase hp).1, ih h.2⟩

/-- In a sorted map, what is at a key is what a lookup gives. -/
theorem lookup_of_mem {l : List (Nat × β)} (h : sorted l) {k : Nat} {v : β} (hm : (k, v) ∈ l) :
    lookup k l = some v := by
  induction l with
  | nil => cases hm
  | cons q l ih =>
    obtain ⟨i, w⟩ := q
    rw [sorted, List.pairwise_cons] at h
    rcases List.mem_cons.1 hm with e | hm
    · cases e; simp [lookup]
    · have : i ≠ k := by have := h.1 _ hm; simp at this; omega
      simp [lookup, this, ih h.2 hm]

theorem mem_of_lookup {l : List (Nat × β)} {k : Nat} {v : β} (h : lookup k l = some v) : (k, v) ∈ l := by
  induction l with
  | nil => cases h
  | cons q l ih =>
    obtain ⟨i, w⟩ := q
    by_cases hi : i = k
    · simp [lookup, hi] at h; subst h; subst hi; exact List.mem_cons_self
    · simp [lookup, hi] at h; exact List.mem_cons_of_mem _ (ih h)

/-- Writing at a key, in a sorted map that holds something there, and then writing back what was there, changes
nothing. -/
theorem insert_insert_of_lookup {l : List (Nat × β)} (h : sorted l) {k : Nat} {v : β} (w : β)
    (hl : lookup k l = some v) : insert k v (insert k w l) = l := by
  induction l with
  | nil => cases hl
  | cons q l ih =>
    obtain ⟨i, u⟩ := q
    rw [sorted, List.pairwise_cons] at h
    by_cases hi : i = k
    · subst hi
      simp [lookup] at hl
      simp [insert, hl]
    · have hl' : lookup k l = some v := by simpa [lookup, hi] using hl
      have hlt : i < k := h.1 _ (mem_of_lookup hl')
      have h1 : ¬ k < i := by omega
      have h2 : ¬ k = i := by omega
      simp [insert, h1, h2, ih h.2 hl']

end Sys2Proof.Machine.Sparse
end

