-- ==== Sys2Proof/Laws/State.lean ====
section
/-! SUPPORT. What each named update of the state leaves in each part of the state: one lemma for one update and one
part, so that no later proof unfolds a record update. -/

namespace Sys2Proof.Machine

@[simp] theorem State.requestHalt_regs (s : State) (r : HaltReason) : (s.requestHalt r).regs = s.regs := rfl
@[simp] theorem State.requestHalt_cache (s : State) (r : HaltReason) : (s.requestHalt r).cache = s.cache := rfl
@[simp] theorem State.requestHalt_bp (s : State) (r : HaltReason) : (s.requestHalt r).bp = s.bp := rfl
@[simp] theorem State.requestHalt_cnt (s : State) (r : HaltReason) : (s.requestHalt r).cnt = s.cnt := rfl
@[simp] theorem State.requestHalt_load (s : State) (r : HaltReason) : (s.requestHalt r).load = s.load := rfl
@[simp] theorem State.requestHalt_faultLog (s : State) (r : HaltReason) : (s.requestHalt r).faultLog = s.faultLog := rfl
@[simp] theorem State.requestHalt_mem (s : State) (r : HaltReason) : (s.requestHalt r).mem = s.mem := rfl
@[simp] theorem State.requestHalt_port (s : State) (r : HaltReason) : (s.requestHalt r).port = s.port := rfl
@[simp] theorem State.requestHalt_params (s : State) (r : HaltReason) : (s.requestHalt r).params = s.params := rfl
@[simp] theorem State.requestHalt_env (s : State) (r : HaltReason) : (s.requestHalt r).env = s.env := rfl

@[simp] theorem State.setPcWritten_regs (s : State) (b : Bool) : (s.setPcWritten b).regs = s.regs := rfl
@[simp] theorem State.setPcWritten_cache (s : State) (b : Bool) : (s.setPcWritten b).cache = s.cache := rfl
@[simp] theorem State.setPcWritten_bp (s : State) (b : Bool) : (s.setPcWritten b).bp = s.bp := rfl
@[simp] theorem State.setPcWritten_cnt (s : State) (b : Bool) : (s.setPcWritten b).cnt = s.cnt := rfl
@[simp] theorem State.setPcWritten_load (s : State) (b : Bool) : (s.setPcWritten b).load = s.load := rfl
@[simp] theorem State.setPcWritten_faultLog (s : State) (b : Bool) : (s.setPcWritten b).faultLog = s.faultLog := rfl
@[simp] theorem State.setPcWritten_mem (s : State) (b : Bool) : (s.setPcWritten b).mem = s.mem := rfl
@[simp] theorem State.setPcWritten_port (s : State) (b : Bool) : (s.setPcWritten b).port = s.port := rfl
@[simp] theorem State.setPcWritten_params (s : State) (b : Bool) : (s.setPcWritten b).params = s.params := rfl
@[simp] theorem State.setPcWritten_env (s : State) (b : Bool) : (s.setPcWritten b).env = s.env := rfl

@[simp] theorem State.setPc_cache (s : State) (v : Word) : (s.setPc v).cache = s.cache := rfl
@[simp] theorem State.setPc_bp (s : State) (v : Word) : (s.setPc v).bp = s.bp := rfl
@[simp] theorem State.setPc_run (s : State) (v : Word) : (s.setPc v).run = s.run := rfl
@[simp] theorem State.setPc_cnt (s : State) (v : Word) : (s.setPc v).cnt = s.cnt := rfl
@[simp] theorem State.setPc_load (s : State) (v : Word) : (s.setPc v).load = s.load := rfl
@[simp] theorem State.setPc_faultLog (s : State) (v : Word) : (s.setPc v).faultLog = s.faultLog := rfl
@[simp] theorem State.setPc_mem (s : State) (v : Word) : (s.setPc v).mem = s.mem := rfl
@[simp] theorem State.setPc_port (s : State) (v : Word) : (s.setPc v).port = s.port := rfl
@[simp] theorem State.setPc_params (s : State) (v : Word) : (s.setPc v).params = s.params := rfl
@[simp] theorem State.setPc_env (s : State) (v : Word) : (s.setPc v).env = s.env := rfl

@[simp] theorem State.rawWrite_regs (s : State) (a : Addr) (b : List Byte) : (s.rawWrite a b).regs = s.regs := rfl
@[simp] theorem State.rawWrite_cache (s : State) (a : Addr) (b : List Byte) : (s.rawWrite a b).cache = s.cache := rfl
@[simp] theorem State.rawWrite_bp (s : State) (a : Addr) (b : List Byte) : (s.rawWrite a b).bp = s.bp := rfl
@[simp] theorem State.rawWrite_run (s : State) (a : Addr) (b : List Byte) : (s.rawWrite a b).run = s.run := rfl
@[simp] theorem State.rawWrite_cnt (s : State) (a : Addr) (b : List Byte) : (s.rawWrite a b).cnt = s.cnt := rfl
@[simp] theorem State.rawWrite_load (s : State) (a : Addr) (b : List Byte) : (s.rawWrite a b).load = s.load := rfl
@[simp] theorem State.rawWrite_faultLog (s : State) (a : Addr) (b : List Byte) : (s.rawWrite a b).faultLog = s.faultLog := rfl
@[simp] theorem State.rawWrite_port (s : State) (a : Addr) (b : List Byte) : (s.rawWrite a b).port = s.port := rfl
@[simp] theorem State.rawWrite_params (s : State) (a : Addr) (b : List Byte) : (s.rawWrite a b).params = s.params := rfl
@[simp] theorem State.rawWrite_env (s : State) (a : Addr) (b : List Byte) : (s.rawWrite a b).env = s.env := rfl

@[simp] theorem State.dcInvalidate_regs (s : State) (a : Addr) (n : Nat) : (s.dcInvalidate a n).regs = s.regs := rfl
@[simp] theorem State.dcInvalidate_bp (s : State) (a : Addr) (n : Nat) : (s.dcInvalidate a n).bp = s.bp := rfl
@[simp] theorem State.dcInvalidate_run (s : State) (a : Addr) (n : Nat) : (s.dcInvalidate a n).run = s.run := rfl
@[simp] theorem State.dcInvalidate_cnt (s : State) (a : Addr) (n : Nat) : (s.dcInvalidate a n).cnt = s.cnt := rfl
@[simp] theorem State.dcInvalidate_load (s : State) (a : Addr) (n : Nat) : (s.dcInvalidate a n).load = s.load := rfl
@[simp] theorem State.dcInvalidate_faultLog (s : State) (a : Addr) (n : Nat) : (s.dcInvalidate a n).faultLog = s.faultLog := rfl
@[simp] theorem State.dcInvalidate_mem (s : State) (a : Addr) (n : Nat) : (s.dcInvalidate a n).mem = s.mem := rfl
@[simp] theorem State.dcInvalidate_port (s : State) (a : Addr) (n : Nat) : (s.dcInvalidate a n).port = s.port := rfl
@[simp] theorem State.dcInvalidate_params (s : State) (a : Addr) (n : Nat) : (s.dcInvalidate a n).params = s.params := rfl
@[simp] theorem State.dcInvalidate_env (s : State) (a : Addr) (n : Nat) : (s.dcInvalidate a n).env = s.env := rfl

@[simp] theorem State.dcInvalidateAt_regs (s : State) (a : Addr) : (s.dcInvalidateAt a).regs = s.regs := rfl
@[simp] theorem State.dcInvalidateAt_bp (s : State) (a : Addr) : (s.dcInvalidateAt a).bp = s.bp := rfl
@[simp] theorem State.dcInvalidateAt_run (s : State) (a : Addr) : (s.dcInvalidateAt a).run = s.run := rfl
@[simp] theorem State.dcInvalidateAt_cnt (s : State) (a : Addr) : (s.dcInvalidateAt a).cnt = s.cnt := rfl
@[simp] theorem State.dcInvalidateAt_load (s : State) (a : Addr) : (s.dcInvalidateAt a).load = s.load := rfl
@[simp] theorem State.dcInvalidateAt_faultLog (s : State) (a : Addr) : (s.dcInvalidateAt a).faultLog = s.faultLog := rfl
@[simp] theorem State.dcInvalidateAt_mem (s : State) (a : Addr) : (s.dcInvalidateAt a).mem = s.mem := rfl
@[simp] theorem State.dcInvalidateAt_port (s : State) (a : Addr) : (s.dcInvalidateAt a).port = s.port := rfl
@[simp] theorem State.dcInvalidateAt_params (s : State) (a : Addr) : (s.dcInvalidateAt a).params = s.params := rfl
@[simp] theorem State.dcInvalidateAt_env (s : State) (a : Addr) : (s.dcInvalidateAt a).env = s.env := rfl

@[simp] theorem State.setIwbuf_regs (s : State) (w : Word) : (s.setIwbuf w).regs = s.regs := rfl
@[simp] theorem State.setIwbuf_bp (s : State) (w : Word) : (s.setIwbuf w).bp = s.bp := rfl
@[simp] theorem State.setIwbuf_run (s : State) (w : Word) : (s.setIwbuf w).run = s.run := rfl
@[simp] theorem State.setIwbuf_cnt (s : State) (w : Word) : (s.setIwbuf w).cnt = s.cnt := rfl
@[simp] theorem State.setIwbuf_load (s : State) (w : Word) : (s.setIwbuf w).load = s.load := rfl
@[simp] theorem State.setIwbuf_faultLog (s : State) (w : Word) : (s.setIwbuf w).faultLog = s.faultLog := rfl
@[simp] theorem State.setIwbuf_mem (s : State) (w : Word) : (s.setIwbuf w).mem = s.mem := rfl
@[simp] theorem State.setIwbuf_port (s : State) (w : Word) : (s.setIwbuf w).port = s.port := rfl
@[simp] theorem State.setIwbuf_params (s : State) (w : Word) : (s.setIwbuf w).params = s.params := rfl
@[simp] theorem State.setIwbuf_env (s : State) (w : Word) : (s.setIwbuf w).env = s.env := rfl

@[simp] theorem State.touch_regs (s : State) (a : Addr) : (s.touch a).regs = s.regs := rfl
@[simp] theorem State.touch_bp (s : State) (a : Addr) : (s.touch a).bp = s.bp := rfl
@[simp] theorem State.touch_run (s : State) (a : Addr) : (s.touch a).run = s.run := rfl
@[simp] theorem State.touch_cnt (s : State) (a : Addr) : (s.touch a).cnt = s.cnt := rfl
@[simp] theorem State.touch_load (s : State) (a : Addr) : (s.touch a).load = s.load := rfl
@[simp] theorem State.touch_faultLog (s : State) (a : Addr) : (s.touch a).faultLog = s.faultLog := rfl
@[simp] theorem State.touch_mem (s : State) (a : Addr) : (s.touch a).mem = s.mem := rfl
@[simp] theorem State.touch_port (s : State) (a : Addr) : (s.touch a).port = s.port := rfl
@[simp] theorem State.touch_params (s : State) (a : Addr) : (s.touch a).params = s.params := rfl
@[simp] theorem State.touch_env (s : State) (a : Addr) : (s.touch a).env = s.env := rfl

@[simp] theorem State.addEntry_regs (s : State) (a : Addr) (r : Record) : (s.addEntry a r).regs = s.regs := rfl
@[simp] theorem State.addEntry_bp (s : State) (a : Addr) (r : Record) : (s.addEntry a r).bp = s.bp := rfl
@[simp] theorem State.addEntry_run (s : State) (a : Addr) (r : Record) : (s.addEntry a r).run = s.run := rfl
@[simp] theorem State.addEntry_cnt (s : State) (a : Addr) (r : Record) : (s.addEntry a r).cnt = s.cnt := rfl
@[simp] theorem State.addEntry_load (s : State) (a : Addr) (r : Record) : (s.addEntry a r).load = s.load := rfl
@[simp] theorem State.addEntry_faultLog (s : State) (a : Addr) (r : Record) : (s.addEntry a r).faultLog = s.faultLog := rfl
@[simp] theorem State.addEntry_mem (s : State) (a : Addr) (r : Record) : (s.addEntry a r).mem = s.mem := rfl
@[simp] theorem State.addEntry_port (s : State) (a : Addr) (r : Record) : (s.addEntry a r).port = s.port := rfl
@[simp] theorem State.addEntry_params (s : State) (a : Addr) (r : Record) : (s.addEntry a r).params = s.params := rfl
@[simp] theorem State.addEntry_env (s : State) (a : Addr) (r : Record) : (s.addEntry a r).env = s.env := rfl

@[simp] theorem State.count_regs (s : State) (t : OpTag) : (s.count t).regs = s.regs := rfl
@[simp] theorem State.count_cache (s : State) (t : OpTag) : (s.count t).cache = s.cache := rfl
@[simp] theorem State.count_bp (s : State) (t : OpTag) : (s.count t).bp = s.bp := rfl
@[simp] theorem State.count_run (s : State) (t : OpTag) : (s.count t).run = s.run := rfl
@[simp] theorem State.count_load (s : State) (t : OpTag) : (s.count t).load = s.load := rfl
@[simp] theorem State.count_faultLog (s : State) (t : OpTag) : (s.count t).faultLog = s.faultLog := rfl
@[simp] theorem State.count_mem (s : State) (t : OpTag) : (s.count t).mem = s.mem := rfl
@[simp] theorem State.count_port (s : State) (t : OpTag) : (s.count t).port = s.port := rfl
@[simp] theorem State.count_params (s : State) (t : OpTag) : (s.count t).params = s.params := rfl
@[simp] theorem State.count_env (s : State) (t : OpTag) : (s.count t).env = s.env := rfl

@[simp] theorem State.setEnabled_regs (s : State) (a : Addr) (b : Bool) : (s.setEnabled a b).regs = s.regs := rfl
@[simp] theorem State.setEnabled_run (s : State) (a : Addr) (b : Bool) : (s.setEnabled a b).run = s.run := rfl
@[simp] theorem State.setEnabled_cnt (s : State) (a : Addr) (b : Bool) : (s.setEnabled a b).cnt = s.cnt := rfl
@[simp] theorem State.setEnabled_load (s : State) (a : Addr) (b : Bool) : (s.setEnabled a b).load = s.load := rfl
@[simp] theorem State.setEnabled_faultLog (s : State) (a : Addr) (b : Bool) : (s.setEnabled a b).faultLog = s.faultLog := rfl
@[simp] theorem State.setEnabled_mem (s : State) (a : Addr) (b : Bool) : (s.setEnabled a b).mem = s.mem := rfl
@[simp] theorem State.setEnabled_port (s : State) (a : Addr) (b : Bool) : (s.setEnabled a b).port = s.port := rfl
@[simp] theorem State.setEnabled_params (s : State) (a : Addr) (b : Bool) : (s.setEnabled a b).params = s.params := rfl
@[simp] theorem State.setEnabled_env (s : State) (a : Addr) (b : Bool) : (s.setEnabled a b).env = s.env := rfl

@[simp] theorem State.clearResume_regs (s : State) : (s.clearResume).regs = s.regs := rfl
@[simp] theorem State.clearResume_cache (s : State) : (s.clearResume).cache = s.cache := rfl
@[simp] theorem State.clearResume_bp (s : State) : (s.clearResume).bp = s.bp := rfl
@[simp] theorem State.clearResume_cnt (s : State) : (s.clearResume).cnt = s.cnt := rfl
@[simp] theorem State.clearResume_load (s : State) : (s.clearResume).load = s.load := rfl
@[simp] theorem State.clearResume_faultLog (s : State) : (s.clearResume).faultLog = s.faultLog := rfl
@[simp] theorem State.clearResume_mem (s : State) : (s.clearResume).mem = s.mem := rfl
@[simp] theorem State.clearResume_port (s : State) : (s.clearResume).port = s.port := rfl
@[simp] theorem State.clearResume_params (s : State) : (s.clearResume).params = s.params := rfl
@[simp] theorem State.clearResume_env (s : State) : (s.clearResume).env = s.env := rfl

@[simp] theorem State.emit_regs (s : State) (e : PortEvent) : (s.emit e).regs = s.regs := rfl
@[simp] theorem State.emit_cache (s : State) (e : PortEvent) : (s.emit e).cache = s.cache := rfl
@[simp] theorem State.emit_bp (s : State) (e : PortEvent) : (s.emit e).bp = s.bp := rfl
@[simp] theorem State.emit_run (s : State) (e : PortEvent) : (s.emit e).run = s.run := rfl
@[simp] theorem State.emit_cnt (s : State) (e : PortEvent) : (s.emit e).cnt = s.cnt := rfl
@[simp] theorem State.emit_load (s : State) (e : PortEvent) : (s.emit e).load = s.load := rfl
@[simp] theorem State.emit_faultLog (s : State) (e : PortEvent) : (s.emit e).faultLog = s.faultLog := rfl
@[simp] theorem State.emit_mem (s : State) (e : PortEvent) : (s.emit e).mem = s.mem := rfl
@[simp] theorem State.emit_params (s : State) (e : PortEvent) : (s.emit e).params = s.params := rfl
@[simp] theorem State.emit_env (s : State) (e : PortEvent) : (s.emit e).env = s.env := rfl

@[simp] theorem State.haltTransition_regs (s : State) : (s.haltTransition).regs = s.regs := rfl
@[simp] theorem State.haltTransition_cache (s : State) : (s.haltTransition).cache = s.cache := rfl
@[simp] theorem State.haltTransition_bp (s : State) : (s.haltTransition).bp = s.bp := rfl
@[simp] theorem State.haltTransition_cnt (s : State) : (s.haltTransition).cnt = s.cnt := rfl
@[simp] theorem State.haltTransition_load (s : State) : (s.haltTransition).load = s.load := rfl
@[simp] theorem State.haltTransition_faultLog (s : State) : (s.haltTransition).faultLog = s.faultLog := rfl
@[simp] theorem State.haltTransition_mem (s : State) : (s.haltTransition).mem = s.mem := rfl
@[simp] theorem State.haltTransition_params (s : State) : (s.haltTransition).params = s.params := rfl
@[simp] theorem State.haltTransition_env (s : State) : (s.haltTransition).env = s.env := rfl

@[simp] theorem State.accept_regs (s : State) : (s.accept).regs = s.regs := rfl
@[simp] theorem State.accept_cache (s : State) : (s.accept).cache = s.cache := rfl
@[simp] theorem State.accept_bp (s : State) : (s.accept).bp = s.bp := rfl
@[simp] theorem State.accept_cnt (s : State) : (s.accept).cnt = s.cnt := rfl
@[simp] theorem State.accept_load (s : State) : (s.accept).load = s.load := rfl
@[simp] theorem State.accept_faultLog (s : State) : (s.accept).faultLog = s.faultLog := rfl
@[simp] theorem State.accept_mem (s : State) : (s.accept).mem = s.mem := rfl
@[simp] theorem State.accept_port (s : State) : (s.accept).port = s.port := rfl
@[simp] theorem State.accept_params (s : State) : (s.accept).params = s.params := rfl
@[simp] theorem State.accept_env (s : State) : (s.accept).env = s.env := rfl

@[simp] theorem State.requestHalt_run (s : State) (r : HaltReason) :
    (s.requestHalt r).run = if s.run.runState = .halted then s.run
      else { s.run with haltReq := true, haltReason := r } := rfl
@[simp] theorem State.setPcWritten_run (s : State) (b : Bool) :
    (s.setPcWritten b).run = { s.run with pcWritten := b } := rfl
@[simp] theorem State.setPc_regs (s : State) (v : Word) : (s.setPc v).regs = { s.regs with pc := v } := rfl
@[simp] theorem State.rawWrite_mem (s : State) (a : Addr) (b : List Byte) :
    (s.rawWrite a b).mem = s.mem.storeBytes a b := rfl
@[simp] theorem State.setEnabled_bp (s : State) (a : Addr) (b : Bool) :
    (s.setEnabled a b).bp = Sparse.insert a.toNat b s.bp := rfl
@[simp] theorem State.clearResume_run (s : State) :
    s.clearResume.run = { s.run with resumeBp := false } := rfl
@[simp] theorem State.emit_port (s : State) (e : PortEvent) :
    (s.emit e).port = { s.port with out := s.port.out ++ [e] } := rfl
@[simp] theorem State.haltTransition_run (s : State) :
    s.haltTransition.run = { s.run with haltAddr := s.regs.pc, runState := .halted, haltReq := false } := rfl
@[simp] theorem State.haltTransition_port (s : State) :
    s.haltTransition.port = { s.port with out := s.port.out ++ s.haltEvents, waiting := 0 } := rfl
@[simp] theorem State.accept_run (s : State) :
    s.accept.run = { s.run with
      resumeBp := s.run.haltReason == .softwareBreakpoint, haltReason := .none, haltReq := false } := rfl

@[simp] theorem State.writeX_cache (s : State) (i : Reg) (v : Word) : (s.writeX i v).cache = s.cache := by
  unfold State.writeX; split <;> rfl
@[simp] theorem State.writeX_bp (s : State) (i : Reg) (v : Word) : (s.writeX i v).bp = s.bp := by
  unfold State.writeX; split <;> rfl
@[simp] theorem State.writeX_run (s : State) (i : Reg) (v : Word) : (s.writeX i v).run = s.run := by
  unfold State.writeX; split <;> rfl
@[simp] theorem State.writeX_cnt (s : State) (i : Reg) (v : Word) : (s.writeX i v).cnt = s.cnt := by
  unfold State.writeX; split <;> rfl
@[simp] theorem State.writeX_load (s : State) (i : Reg) (v : Word) : (s.writeX i v).load = s.load := by
  unfold State.writeX; split <;> rfl
@[simp] theorem State.writeX_faultLog (s : State) (i : Reg) (v : Word) : (s.writeX i v).faultLog = s.faultLog := by
  unfold State.writeX; split <;> rfl
@[simp] theorem State.writeX_mem (s : State) (i : Reg) (v : Word) : (s.writeX i v).mem = s.mem := by
  unfold State.writeX; split <;> rfl
@[simp] theorem State.writeX_port (s : State) (i : Reg) (v : Word) : (s.writeX i v).port = s.port := by
  unfold State.writeX; split <;> rfl
@[simp] theorem State.writeX_params (s : State) (i : Reg) (v : Word) : (s.writeX i v).params = s.params := by
  unfold State.writeX; split <;> rfl
@[simp] theorem State.writeX_env (s : State) (i : Reg) (v : Word) : (s.writeX i v).env = s.env := by
  unfold State.writeX; split <;> rfl

@[simp] theorem State.makeRoom_regs (s : State) : (s.makeRoom).regs = s.regs := by
  unfold State.makeRoom; split <;> rfl
@[simp] theorem State.makeRoom_bp (s : State) : (s.makeRoom).bp = s.bp := by
  unfold State.makeRoom; split <;> rfl
@[simp] theorem State.makeRoom_run (s : State) : (s.makeRoom).run = s.run := by
  unfold State.makeRoom; split <;> rfl
@[simp] theorem State.makeRoom_cnt (s : State) : (s.makeRoom).cnt = s.cnt := by
  unfold State.makeRoom; split <;> rfl
@[simp] theorem State.makeRoom_load (s : State) : (s.makeRoom).load = s.load := by
  unfold State.makeRoom; split <;> rfl
@[simp] theorem State.makeRoom_faultLog (s : State) : (s.makeRoom).faultLog = s.faultLog := by
  unfold State.makeRoom; split <;> rfl
@[simp] theorem State.makeRoom_mem (s : State) : (s.makeRoom).mem = s.mem := by
  unfold State.makeRoom; split <;> rfl
@[simp] theorem State.makeRoom_port (s : State) : (s.makeRoom).port = s.port := by
  unfold State.makeRoom; split <;> rfl
@[simp] theorem State.makeRoom_params (s : State) : (s.makeRoom).params = s.params := by
  unfold State.makeRoom; split <;> rfl
@[simp] theorem State.makeRoom_env (s : State) : (s.makeRoom).env = s.env := by
  unfold State.makeRoom; split <;> rfl

@[simp] theorem State.setLoad_regs (s : State) (l : Option LoadPending) : (s.setLoad l).regs = s.regs := rfl
@[simp] theorem State.setLoad_cache (s : State) (l : Option LoadPending) : (s.setLoad l).cache = s.cache := rfl
@[simp] theorem State.setLoad_bp (s : State) (l : Option LoadPending) : (s.setLoad l).bp = s.bp := rfl
@[simp] theorem State.setLoad_run (s : State) (l : Option LoadPending) : (s.setLoad l).run = s.run := rfl
@[simp] theorem State.setLoad_cnt (s : State) (l : Option LoadPending) : (s.setLoad l).cnt = s.cnt := rfl
@[simp] theorem State.setLoad_faultLog (s : State) (l : Option LoadPending) : (s.setLoad l).faultLog = s.faultLog := rfl
@[simp] theorem State.setLoad_mem (s : State) (l : Option LoadPending) : (s.setLoad l).mem = s.mem := rfl
@[simp] theorem State.setLoad_port (s : State) (l : Option LoadPending) : (s.setLoad l).port = s.port := rfl
@[simp] theorem State.setLoad_params (s : State) (l : Option LoadPending) : (s.setLoad l).params = s.params := rfl
@[simp] theorem State.setLoad_env (s : State) (l : Option LoadPending) : (s.setLoad l).env = s.env := rfl

@[simp] theorem State.clearSlot_cache (s : State) (i : Reg) : (s.clearSlot i).cache = s.cache := rfl
@[simp] theorem State.clearSlot_bp (s : State) (i : Reg) : (s.clearSlot i).bp = s.bp := rfl
@[simp] theorem State.clearSlot_run (s : State) (i : Reg) : (s.clearSlot i).run = s.run := rfl
@[simp] theorem State.clearSlot_cnt (s : State) (i : Reg) : (s.clearSlot i).cnt = s.cnt := rfl
@[simp] theorem State.clearSlot_load (s : State) (i : Reg) : (s.clearSlot i).load = s.load := rfl
@[simp] theorem State.clearSlot_faultLog (s : State) (i : Reg) : (s.clearSlot i).faultLog = s.faultLog := rfl
@[simp] theorem State.clearSlot_mem (s : State) (i : Reg) : (s.clearSlot i).mem = s.mem := rfl
@[simp] theorem State.clearSlot_port (s : State) (i : Reg) : (s.clearSlot i).port = s.port := rfl
@[simp] theorem State.clearSlot_params (s : State) (i : Reg) : (s.clearSlot i).params = s.params := rfl
@[simp] theorem State.clearSlot_env (s : State) (i : Reg) : (s.clearSlot i).env = s.env := rfl

@[simp] theorem State.clearPcSlot_cache (s : State) : (s.clearPcSlot).cache = s.cache := rfl
@[simp] theorem State.clearPcSlot_bp (s : State) : (s.clearPcSlot).bp = s.bp := rfl
@[simp] theorem State.clearPcSlot_run (s : State) : (s.clearPcSlot).run = s.run := rfl
@[simp] theorem State.clearPcSlot_cnt (s : State) : (s.clearPcSlot).cnt = s.cnt := rfl
@[simp] theorem State.clearPcSlot_load (s : State) : (s.clearPcSlot).load = s.load := rfl
@[simp] theorem State.clearPcSlot_faultLog (s : State) : (s.clearPcSlot).faultLog = s.faultLog := rfl
@[simp] theorem State.clearPcSlot_mem (s : State) : (s.clearPcSlot).mem = s.mem := rfl
@[simp] theorem State.clearPcSlot_port (s : State) : (s.clearPcSlot).port = s.port := rfl
@[simp] theorem State.clearPcSlot_params (s : State) : (s.clearPcSlot).params = s.params := rfl
@[simp] theorem State.clearPcSlot_env (s : State) : (s.clearPcSlot).env = s.env := rfl

@[simp] theorem State.setLoad_load (s : State) (l : Option LoadPending) : (s.setLoad l).load = l := rfl

end Sys2Proof.Machine
end

