-- ==== Sys2Proof/Laws/Memory.lean ====
section
/-! SUPPORT. The laws of memory: reading what was written, leaving every other byte alone, keeping the canonical
form; and the byte order of a word. -/

namespace Sys2Proof.Machine

/-! ## Ranges of addresses modulo 2^32 -/

theorem inRange_iff (a : Addr) (n : Nat) (b : Addr) : inRange a n b = true ↔ (b - a).toNat < n := by
  simp [inRange]

/-- An address is in a range exactly when it is one of its bytes (R145's "for some j in 0..n-1"). -/
theorem inRange_iff_exists (a : Addr) (n : Nat) (b : Addr) :
    inRange a n b = true ↔ ∃ j < n, a + BitVec.ofNat 32 j = b := by
  rw [inRange_iff]
  constructor
  · intro h
    exact ⟨(b - a).toNat, h, by
      rw [BitVec.ofNat_toNat, BitVec.setWidth_eq, BitVec.add_comm, BitVec.sub_add_cancel]⟩
  · rintro ⟨j, hj, rfl⟩
    have : (a + BitVec.ofNat 32 j - a).toNat ≤ j := by
      have h : a + BitVec.ofNat 32 j - a = BitVec.ofNat 32 j := by
        rw [BitVec.add_comm, BitVec.add_sub_cancel]
      rw [h, BitVec.toNat_ofNat]; exact Nat.mod_le _ _
    omega

theorem inRange_succ {a b : Addr} {n : Nat} (h : b ≠ a) :
    inRange (a + 1) n b = inRange a (n + 1) b := by
  have : (b - (a + 1)).toNat + 1 = (b - a).toNat := by
    have h0 : b.toNat ≠ a.toNat := fun e => h (BitVec.eq_of_toNat_eq e)
    bv_omega
  simp only [inRange, decide_eq_decide]; omega

theorem overlaps_iff (a : Addr) (size : Nat) (lo : Addr) (n : Nat) :
    overlaps a size lo n = true ↔
      ∃ k < size, ∃ j < n, a + BitVec.ofNat 32 k = lo + BitVec.ofNat 32 j := by
  simp only [overlaps, List.any_eq_true, List.mem_range, inRange_iff_exists]
  constructor
  · rintro ⟨k, hk, j, hj, e⟩; exact ⟨k, hk, j, hj, e.symm⟩
  · rintro ⟨k, hk, j, hj, e⟩; exact ⟨k, hk, j, hj, e.symm⟩

/-! ## One byte -/

@[simp] theorem Memory.byte_store_self (m : Memory) (a : Addr) (b : Byte) : (m.store a b).byte a = b := by
  unfold Memory.store Memory.byte
  split
  · next h => simp [h]
  · simp

theorem Memory.byte_store_ne (m : Memory) {a x : Addr} (h : x ≠ a) (b : Byte) :
    (m.store a b).byte x = m.byte x := by
  have h' : x.toNat ≠ a.toNat := fun e => h (BitVec.eq_of_toNat_eq e)
  unfold Memory.store Memory.byte
  split
  · rw [Sparse.lookup_erase_ne h']
  · rw [Sparse.lookup_insert_ne h']

theorem Memory.store_wf {m : Memory} (h : m.wf) (a : Addr) (b : Byte) : (m.store a b).wf := by
  unfold Memory.store
  split
  · exact ⟨Sparse.sorted_erase h.1 _, fun c hc => h.2 c (Sparse.mem_erase hc).1⟩
  · next hb =>
    refine ⟨Sparse.sorted_insert h.1 _ _, fun c hc => ?_⟩
    rcases Sparse.mem_insert hc with e | hc
    · subst e; exact ⟨a.isLt, hb⟩
    · exact h.2 c hc

/-! ## Several bytes -/

theorem Memory.storeBytes_wf {m : Memory} (h : m.wf) (a : Addr) (b : List Byte) : (m.storeBytes a b).wf := by
  induction b generalizing m a with
  | nil => exact h
  | cons x xs ih => exact ih (Memory.store_wf h a x) (a + 1)

theorem Memory.storeCells_wf {m : Memory} (h : m.wf) (c : List (Addr × Byte)) : (m.storeCells c).wf := by
  induction c generalizing m with
  | nil => exact h
  | cons x xs ih => exact ih (Memory.store_wf h x.1 x.2)

theorem Memory.byte_storeBytes_outside (m : Memory) (a x : Addr) (b : List Byte)
    (h : inRange a b.length x = false) : (m.storeBytes a b).byte x = m.byte x := by
  induction b generalizing m a with
  | nil => rfl
  | cons y ys ih =>
    have hx : x ≠ a := by
      rintro rfl; simp [inRange] at h
    have h' : inRange (a + 1) ys.length x = false := by rw [inRange_succ hx]; exact h
    show ((m.store a y).storeBytes (a + 1) ys).byte x = _
    rw [ih _ _ h', Memory.byte_store_ne _ hx]

theorem Memory.byte_storeBytes_inside (m : Memory) (a : Addr) (b : List Byte)
    (k : Nat) (hb : b.length ≤ k + 4294967296) (hk : k < b.length) : (m.storeBytes a b).byte (a + BitVec.ofNat 32 k) = b[k] := by
  induction b generalizing m a k with
  | nil => cases hk
  | cons y ys ih =>
    simp only [List.length_cons] at hb hk
    show ((m.store a y).storeBytes (a + 1) ys).byte _ = _
    cases k with
    | zero =>
      have e : a + BitVec.ofNat 32 0 = a := by simp
      rw [e, Memory.byte_storeBytes_outside]
      · simp
      · simp only [inRange, decide_eq_false_iff_not]
        have : (a - (a + 1)).toNat = 4294967295 := by bv_omega
        omega
    | succ k =>
      have e : a + BitVec.ofNat 32 (k + 1) = (a + 1) + BitVec.ofNat 32 k := by
        apply BitVec.eq_of_toNat_eq; simp only [BitVec.toNat_add, BitVec.toNat_ofNat]; simp; omega
      rw [e, ih _ _ k (by omega) (by omega)]
      simp

theorem Memory.byte_storeCells_outside (m : Memory) (c : List (Addr × Byte)) (x : Addr)
    (h : ∀ w ∈ c, w.1 ≠ x) : (m.storeCells c).byte x = m.byte x := by
  induction c generalizing m with
  | nil => rfl
  | cons y ys ih =>
    show ((m.store y.1 y.2).storeCells ys).byte x = _
    rw [ih _ fun w hw => h w (List.mem_cons_of_mem _ hw),
      Memory.byte_store_ne _ (Ne.symm (h y List.mem_cons_self))]

/-- A raw read depends on the bytes of its range alone. -/
theorem State.rawRead_congr {s t : State} {a : Addr} {n : Nat}
    (h : ∀ k < n, t.mem.byte (a + BitVec.ofNat 32 k) = s.mem.byte (a + BitVec.ofNat 32 k)) :
    t.rawRead a n = s.rawRead a n := by
  unfold State.rawRead
  exact List.map_congr_left fun k hk => h k (List.mem_range.1 hk)

/-- Reading back what was written (R72). -/
theorem State.rawRead_rawWrite (s : State) (a : Addr) (b : List Byte) (hb : b.length ≤ 4294967296) :
    (s.rawWrite a b).rawRead a b.length = b := by
  apply List.ext_getElem
  · simp [State.rawRead]
  · intro k h1 h2
    simp only [State.rawRead, List.getElem_map, List.getElem_range, State.rawWrite_mem]
    exact Memory.byte_storeBytes_inside _ _ _ k (by omega) h2

@[simp] theorem State.rawRead_length (s : State) (a : Addr) (n : Nat) : (s.rawRead a n).length = n := by
  simp [State.rawRead]

/-! ## Byte order (R66) -/

@[simp] theorem bytesLe32_length (v : Word) : (bytesLe32 v).length = 4 := rfl

theorem bytesLe32_getElem (v : Word) (k : Nat) (hk : k < 4) :
    (bytesLe32 v)[k] = v.extractLsb' (8 * k) 8 := by
  match k, hk with
  | 0, _ => rfl
  | 1, _ => rfl
  | 2, _ => rfl
  | 3, _ => rfl

@[simp] theorem le32_bytesLe32 (v : Word) : le32 (bytesLe32 v) = v := by
  apply BitVec.eq_of_getLsbD_eq
  intro i hi
  simp only [le32, bytesLe32, List.getD_cons_zero, List.getD_cons_succ, BitVec.getLsbD_append,
    BitVec.getLsbD_extractLsb']
  by_cases h8 : i < 8
  · simp [h8]
  by_cases h16 : i < 16
  · have : i - 8 < 8 := by omega
    simp [h8, this, show 8 + (i - 8) = i by omega]
  by_cases h24 : i < 24
  · have h1 : ¬ i - 8 < 8 := by omega
    have h2 : i - 8 - 8 < 8 := by omega
    simp [h8, h1, h2, show 16 + (i - 8 - 8) = i by omega]
  · have h1 : ¬ i - 8 < 8 := by omega
    have h2 : ¬ i - 8 - 8 < 8 := by omega
    have h3 : i - 8 - 8 - 8 < 8 := by omega
    simp [h8, h1, h2, h3, show 24 + (i - 8 - 8 - 8) = i by omega]

theorem bytesLe32_le32 (b : List Byte) (h : b.length = 4) : bytesLe32 (le32 b) = b := by
  obtain ⟨b0, b1, b2, b3, rfl⟩ : ∃ b0 b1 b2 b3, b = [b0, b1, b2, b3] := by
    match b, h with
    | [b0, b1, b2, b3], _ => exact ⟨b0, b1, b2, b3, rfl⟩
  simp only [bytesLe32, le32, List.getD_cons_zero, List.getD_cons_succ, List.cons.injEq, and_true]
  refine ⟨?_, ?_, ?_, ?_⟩ <;>
  · apply BitVec.eq_of_getLsbD_eq
    intro i hi
    simp only [BitVec.getLsbD_extractLsb', BitVec.getLsbD_append, hi, decide_true, Bool.true_and]
    repeat' split
    all_goals first | omega | (congr 1; omega)

/-! ## The watch layer -/

theorem State.touchesWatch_congr {s t : State} (h : t.params.watch = s.params.watch) (a : Addr) (n : Nat) :
    t.touchesWatch a n = s.touchesWatch a n := by
  simp only [State.touchesWatch, h]

/-- What a load of the memory side can do: give the backing store's bytes outside WATCH, or take WATCHER's next
reply, or stop by name. -/
theorem State.memRead_next {s t : State} {a : Addr} {n : Nat} {b : List Byte} (h : s.memRead a n = .next (b, t)) :
    (s.touchesWatch a n = false ∧ b = s.rawRead a n ∧ t = s) ∨
    (s.touchesWatch a n = true ∧ ∃ r rest, s.env.watcher = r :: rest ∧ r.bytes.length = n ∧
      r.writesInside a n = true ∧ b = r.bytes ∧ t = s.applyReply a n r rest) := by
  unfold State.memRead at h
  split at h
  · next hw =>
    split at h
    · cases h
    · next r rest he =>
      split at h
      · next hc => cases h; exact .inr ⟨hw, r, rest, he, hc.1, hc.2, rfl, rfl⟩
      · cases h
  · next hw => cases h; exact .inl ⟨by simpa using hw, rfl, rfl⟩

theorem State.memRead_unwatched {s : State} {a : Addr} {n : Nat} (h : s.touchesWatch a n = false) :
    s.memRead a n = .next (s.rawRead a n, s) := by
  simp [State.memRead, h]

/-- What a store of the memory side can do. -/
theorem State.memWrite_next {s t : State} {a : Addr} {b : List Byte} (h : s.memWrite a b = .next t) :
    (s.touchesWatch a b.length = false ∧ t = s.rawWrite a b) ∨
    (s.touchesWatch a b.length = true ∧ ∃ r rest, s.env.watcher = r :: rest ∧
      r.writesInside a b.length = true ∧ t = s.applyReply a b.length r rest) := by
  unfold State.memWrite at h
  split at h
  · next hw =>
    split at h
    · cases h
    · next r rest he =>
      split at h
      · next hc => cases h; exact .inr ⟨hw, r, rest, he, hc, rfl⟩
      · cases h
  · next hw => cases h; exact .inl ⟨by simpa using hw, rfl⟩

theorem State.memWrite_unwatched {s : State} {a : Addr} {b : List Byte} (h : s.touchesWatch a b.length = false) :
    s.memWrite a b = .next (s.rawWrite a b) := by
  simp [State.memWrite, h]

/-- A reply of WATCHER as one update: a request to halt counts only outside `Halted` (R63, R199). -/
theorem State.applyReply_eq (s : State) (a : Addr) (n : Nat) (r : WatchReply) (rest : List WatchReply) :
    s.applyReply a n r rest = { s with
      mem := s.mem.storeCells r.writes
      env := { s.env with watcher := rest }
      cache := (s.dcInvalidate a n).cache
      run := if r.halt = true ∧ s.run.runState ≠ .halted then
        { s.run with haltReq := true, haltReason := .semihostRequest } else s.run } := by
  unfold State.applyReply
  cases r.halt
  · rfl
  · by_cases h : s.run.runState = .halted <;> simp [State.requestHalt, h, State.dcInvalidate]

/-- A read of the memory side changes memory, the cache, WATCHER's replies and the halt request at most. -/
theorem State.memRead_shape {s t : State} {a : Addr} {n : Nat} {b : List Byte} (h : s.memRead a n = .next (b, t)) :
    t = { s with mem := t.mem, cache := t.cache, env := { s.env with watcher := t.env.watcher }, run := t.run } := by
  rcases State.memRead_next h with ⟨_, _, rfl⟩ | ⟨_, r, rest, _, _, _, _, rfl⟩
  · rfl
  · rw [State.applyReply_eq]

/-- With a reply at hand that keeps the contract, a watched read is that reply (R63). -/
theorem State.memRead_reply {s : State} {a : Addr} {n : Nat} {r : WatchReply} {rest : List WatchReply}
    (hw : s.touchesWatch a n = true) (he : s.env.watcher = r :: rest) (hl : r.bytes.length = n)
    (hi : r.writesInside a n = true) : s.memRead a n = .next (r.bytes, s.applyReply a n r rest) := by
  simp [State.memRead, hw, he, hl, hi]

/-- What a read depends on: from a state that differs in the cache, the breakpoint table and CACHE_CAP only, it gives
the same bytes or stops the same, and the states after differ in those only. -/
theorem State.memRead_congr (s : State) (c : Cache) (bp : BpTable) (cap : Nat) (a : Addr) (n : Nat) :
    ∃ c', ({ s with cache := c, bp := bp, params := { s.params with cacheCap := cap } } : State).memRead a n =
      (s.memRead a n).andThen fun b t => .next (b, { t with
        cache := c', bp := bp, params := { s.params with cacheCap := cap } }) := by
  have ht : ({ s with cache := c, bp := bp, params := { s.params with cacheCap := cap } } : State).touchesWatch a n
      = s.touchesWatch a n := rfl
  unfold State.memRead
  rw [ht]
  by_cases hw : s.touchesWatch a n = true
  · refine ⟨(({ s with cache := c } : State).dcInvalidate a n).cache, ?_⟩
    simp only [hw, if_true]
    cases s.env.watcher with
    | nil => rfl
    | cons r rest =>
      dsimp only
      by_cases hc : r.bytes.length = n ∧ r.writesInside a n = true
      · simp only [if_pos hc, ResultOf.andThen, State.applyReply_eq]; rfl
      · simp only [if_neg hc, ResultOf.andThen]
  · refine ⟨c, ?_⟩
    simp only [if_neg hw, ResultOf.andThen]; rfl

/-- A reply's changes of memory stay inside the access (R147). -/
theorem WatchReply.byte_outside {r : WatchReply} {a : Addr} {n : Nat} (h : r.writesInside a n = true) (m : Memory)
    (x : Addr) (hx : inRange a n x = false) : (m.storeCells r.writes).byte x = m.byte x := by
  apply Memory.byte_storeCells_outside
  intro w hw e
  have := List.all_eq_true.1 h w hw
  rw [e, hx] at this; cases this

end Sys2Proof.Machine
end

