-- ==== Sys2Proof/Laws/Operands.lean ====
section
/-! SUPPORT. The laws of the register file and of operand handles: what a write of a cell and a submitted
destination leave. -/

namespace Sys2Proof.Machine

/-! ## Cells -/

@[simp] theorem State.readX_zero (s : State) : s.readX 0 = 0 := rfl

theorem State.readX_congr {s t : State} (h : t.regs.x = s.regs.x) (i : Reg) : t.readX i = s.readX i := by
  simp [State.readX, h]

theorem State.readX_writeX_self (s : State) (i : Reg) (v : Word) :
    (s.writeX i v).readX i = if i = 0 then 0 else v := by
  unfold State.readX State.writeX
  split
  · rfl
  · simp

theorem State.readX_writeX_ne (s : State) {i j : Reg} (h : j ≠ i) (v : Word) :
    (s.writeX i v).readX j = s.readX j := by
  unfold State.readX State.writeX
  split
  · rfl
  · split
    · rfl
    · have : i.toNat ≠ j.toNat := fun e => h (BitVec.eq_of_toNat_eq e.symm)
      exact Vector.getElem_set_ne i.isLt j.isLt this

@[simp] theorem State.writeX_pc (s : State) (i : Reg) (v : Word) : (s.writeX i v).regs.pc = s.regs.pc := by
  unfold State.writeX; split <;> rfl

@[simp] theorem State.writeX_pendX (s : State) (i : Reg) (v : Word) :
    (s.writeX i v).regs.pendX = s.regs.pendX := by
  unfold State.writeX; split <;> rfl

@[simp] theorem State.writeX_pendPc (s : State) (i : Reg) (v : Word) :
    (s.writeX i v).regs.pendPc = s.regs.pendPc := by
  unfold State.writeX; split <;> rfl

@[simp] theorem State.readX_clearSlot (s : State) (i j : Reg) : (s.clearSlot i).readX j = s.readX j := rfl

/-! ## Handles -/

@[simp] theorem State.val_srcOf (s : State) (i : Reg) : s.val (srcOf i) = s.readX i := by
  unfold srcOf
  split
  · next h => subst h; rfl
  · rfl

@[simp] theorem State.val_imm (s : State) (v : Word) : s.val (.imm v) = v := rfl

/-- The three operations on a register destination, in a row (R122, R123): the cell has the value, its slot is
empty. -/
theorem State.writeDst_reg (s : State) (i : Reg) (v : Word) :
    s.writeDst (.reg i) v = (s.writeX i v).clearSlot i := by
  have hs : (s.regs.pendX.set i.toNat (some (Config.allocValue i.toNat)) i.isLt).set i.toNat (some v) i.isLt
      = s.regs.pendX.set i.toNat (some v) i.isLt := by simp
  simp only [State.writeDst, State.alloc, State.fill, State.submit, hs, Vector.getElem_set_self,
    State.writeX, State.clearSlot]
  split <;> simp

/-- On `Discard` they change nothing (R124). -/
@[simp] theorem State.writeDst_discard (s : State) (v : Word) : s.writeDst .discard v = s := rfl

/-- On `PcDst` they write the pc and set PC_WRITTEN (R125). -/
theorem State.writeDst_pc (s : State) (v : Word) :
    s.writeDst .pc v =
      { s with regs := { s.regs with pc := v, pendPc := none }, run := { s.run with pcWritten := true } } := rfl

/-- The parts of the state other than the register file, after a register destination is written. -/
theorem State.writeDst_dstOf_rest (s : State) (i : Reg) (v : Word) :
    s.writeDst (dstOf i) v = { s with regs := (s.writeDst (dstOf i) v).regs } := by
  unfold dstOf
  split
  · rfl
  · rw [State.writeDst_reg]
    simp only [State.writeX, State.clearSlot]; split <;> rfl

/-- What a submitted register destination leaves (R122 to R124): the register has the value, unless it is cell 0;
nothing else but its own slot changes. -/
theorem State.readX_writeDst_dstOf (s : State) (i : Reg) (v : Word) :
    (s.writeDst (dstOf i) v).readX i = if i = 0 then 0 else v := by
  unfold dstOf
  split
  · next h => subst h; rfl
  · next h =>
    rw [State.writeDst_reg]
    rw [State.readX_clearSlot, State.readX_writeX_self, if_neg h]

theorem State.writeDst_dstOf_only (s : State) (rd : Reg) (v : Word) :
    OnlyRegister rd s (s.writeDst (dstOf rd) v) := by
  have hrest := State.writeDst_dstOf_rest s rd v
  by_cases h0 : rd = 0
  · subst h0
    exact ⟨fun _ _ => rfl, rfl, fun _ _ _ => rfl, fun h => absurd rfl h, fun _ => rfl, rfl, rfl, fun _ => rfl, rfl, rfl, rfl,
      rfl, rfl, rfl, rfl⟩
  · have hd : dstOf rd = .reg rd := if_neg h0
    have e := State.writeDst_reg s rd v
    rw [hd] at hrest ⊢
    refine ⟨?_, ?_, ?_, ?_, fun h => absurd h h0, ?_, ?_, ?_, ?_, ?_, ?_, ?_, ?_, ?_, ?_⟩
    · intro r hr
      rw [e, State.readX_clearSlot]
      exact State.readX_writeX_ne s hr v
    · rw [e]; exact State.writeX_pc s rd v
    · intro k hk hne
      simp only [e, State.clearSlot, State.writeX_pendX]
      exact Vector.getElem_set_ne _ _ (Ne.symm hne)
    · intro _
      simp [e, State.clearSlot]
    · rw [e]; exact State.writeX_pendPc s rd v
    all_goals first | (intro a; rw [hrest]) | rw [hrest]

/-- A register destination that is written keeps cell 0 at zero and the slots empty. -/
theorem State.RegsOk.writeDst_dstOf {s : State} (h : s.RegsOk) (rd : Reg) (v : Word) :
    (s.writeDst (dstOf rd) v).RegsOk := by
  unfold dstOf
  split
  · exact h
  · next h0 =>
    rw [State.writeDst_reg]
    have hne : rd.toNat ≠ 0 := fun e => h0 (BitVec.eq_of_toNat_eq e)
    refine ⟨?_, ?_, ?_⟩
    · show (s.writeX rd v).regs.x[0] = 0
      simp only [State.writeX, if_neg h0]
      rw [Vector.getElem_set_ne _ _ hne]; exact h.zero
    · show (s.writeX rd v).regs.pendX.set rd.toNat none rd.isLt = _
      rw [State.writeX_pendX, h.pendX]
      apply Vector.ext
      intro k hk
      by_cases hk' : rd.toNat = k
      · subst hk'; simp
      · rw [Vector.getElem_set_ne _ _ hk']
    · show (s.writeX rd v).regs.pendPc = none
      rw [State.writeX_pendPc]; exact h.pendPc

theorem State.RegsOk.writeDst_pc {s : State} (h : s.RegsOk) (v : Word) : (s.writeDst .pc v).RegsOk :=
  ⟨h.zero, h.pendX, rfl⟩

theorem State.RegsOk.of_regs {s t : State} (h : s.RegsOk) (e : t.regs = s.regs) : t.RegsOk :=
  ⟨e ▸ h.zero, e ▸ h.pendX, e ▸ h.pendPc⟩

end Sys2Proof.Machine
end

