-- ==== Sys2Proof/Laws/Cache.lean ====
section
/-! SUPPORT. The laws of the decode cache: what `get` gives and changes, what an invalidation leaves, and that its
validity (R31) is kept by both. -/

namespace Sys2Proof.Machine

/-! ## Records -/

theorem dec6_addr_size (a : Addr) (w : Word) : (dec6 a w).addr = a ∧ (dec6 a w).size = 4 := by
  unfold dec6; split <;> exact ⟨rfl, rfl⟩

theorem Params.dec_addr_size (p : Params) (a : Addr) (w : Word) : (p.dec a w).addr = a ∧ (p.dec a w).size = 4 := by
  unfold Params.dec
  split
  · exact ⟨rfl, rfl⟩
  · exact dec6_addr_size a w

/-- The code visible at an address is a record of that address, of size 4 (R102 (2), R240). -/
theorem State.codeAt_addr_size {s : State} {a : Addr} {r : Record} (h : s.codeAt a = some r) :
    r.addr = a ∧ r.size = 4 := by
  unfold State.codeAt at h
  split at h
  · cases h; exact ⟨rfl, rfl⟩
  · split at h
    · cases h
    · cases h; exact Params.dec_addr_size _ _ _

/-! ## What a fill depends on (R147) -/

theorem State.fetchWord_congr {s t : State} {a : Addr}
    (h : ∀ k < 4, t.mem.byte (a + BitVec.ofNat 32 k) = s.mem.byte (a + BitVec.ofNat 32 k)) :
    t.fetchWord a = s.fetchWord a := by
  unfold State.fetchWord; rw [State.rawRead_congr h]

/-- "`Produce(a)` depends on `BP[a]` and on the four bytes at a" (R147). -/
theorem State.codeAt_congr {s t : State} {a : Addr} (hbp : t.armed a = s.armed a)
    (hw : t.params.watch = s.params.watch) (hd : t.params.decoder = s.params.decoder)
    (hm : ∀ k < 4, t.mem.byte (a + BitVec.ofNat 32 k) = s.mem.byte (a + BitVec.ofNat 32 k)) :
    t.codeAt a = s.codeAt a := by
  simp only [State.codeAt, hbp, State.touchesWatch_congr hw, State.fetchWord_congr hm, Params.dec, hd]

theorem State.codeAt_of_same {s t : State} (hbp : t.bp = s.bp) (hp : t.params = s.params) (hm : t.mem = s.mem)
    (a : Addr) : t.codeAt a = s.codeAt a :=
  State.codeAt_congr (by simp [State.armed, hbp]) (by rw [hp]) (by rw [hp]) fun _ _ => by rw [hm]

theorem State.codeAt_eq {s : State} {a : Addr} (h : s.armed a = true ∨ s.touchesWatch a 4 = false) :
    s.codeAt a = some (if s.armed a then trapRecord a else s.params.dec a (s.fetchWord a)) := by
  unfold State.codeAt
  by_cases ha : s.armed a = true
  · simp [ha]
  · simp [ha, h.resolve_left ha]

theorem State.codeAt_eq_none {s : State} {a : Addr} :
    s.codeAt a = none ↔ s.armed a = false ∧ s.touchesWatch a 4 = true := by
  unfold State.codeAt
  cases s.armed a <;> cases s.touchesWatch a 4 <;> simp

/-! ## The fill (R142) -/

/-- What a decode does: a read of the memory side, the word in IWBUF, the decoder's record. -/
theorem State.decodeAt_next {s t : State} {a : Addr} {r : Record} (h : s.decodeAt a = .next (r, t)) :
    ∃ b u, s.memRead a 4 = .next (b, u) ∧ r = u.params.dec a (le32 b) ∧ t = u.setIwbuf (le32 b) := by
  unfold State.decodeAt at h
  cases hm : s.memRead a 4 with
  | next p => rw [hm] at h; cases h; exact ⟨p.1, p.2, rfl, rfl, rfl⟩
  | fault f => rw [hm] at h; cases h
  | refused q => rw [hm] at h; cases h

theorem State.decodeAt_of_memRead {s u : State} {a : Addr} {b : List Byte} (h : s.memRead a 4 = .next (b, u)) :
    s.decodeAt a = .next (s.params.dec a (le32 b), u.setIwbuf (le32 b)) := by
  have hp : u.params = s.params := by rw [State.memRead_shape h]
  simp [State.decodeAt, h, ResultOf.andThen, hp]

/-- Where the word is not WATCHER's, a fill gives the visible code and writes IWBUF at most. -/
theorem State.produce_of_codeAt {s : State} {a : Addr} {r : Record} (h : s.codeAt a = some r) :
    s.produce a = .next (r, if s.armed a then s else s.setIwbuf (s.fetchWord a)) := by
  unfold State.codeAt at h
  unfold State.produce
  split at h
  · next ha => cases h; simp [ha]
  · next ha =>
    split at h
    · cases h
    · next hw =>
      cases h
      rw [if_neg ha, if_neg ha, State.decodeAt_of_memRead (State.memRead_unwatched (by simpa using hw))]; rfl

theorem State.produce_of_codeAt_none {s : State} {a : Addr} (h : s.codeAt a = none) : s.produce a = s.decodeAt a := by
  simp [State.produce, (State.codeAt_eq_none.1 h).1]

/-! ## Invalidation (R145, R146) -/

theorem State.mem_dcInvalidate {s : State} {lo : Addr} {n : Nat} {e : CacheEntry} :
    e ∈ (s.dcInvalidate lo n).cache.entries ↔ e ∈ s.cache.entries ∧ overlaps e.addr e.inst.size lo n = false := by
  simp [State.dcInvalidate]

theorem State.mem_dcInvalidateAt {s : State} {a : Addr} {e : CacheEntry} :
    e ∈ (s.dcInvalidateAt a).cache.entries ↔ e ∈ s.cache.entries ∧ e.addr ≠ a := by
  simp [State.dcInvalidateAt]

/-- A cache with some of the entries, each still the code visible at its address, is valid. -/
theorem State.CacheOk.of_sublist {s t : State} (h : s.CacheOk)
    (hs : t.cache.entries.Sublist s.cache.entries) (hc : t.params.cacheCap = s.params.cacheCap)
    (hv : ∀ e ∈ t.cache.entries, t.codeAt e.addr = s.codeAt e.addr) : t.CacheOk where
  capPositive := hc ▸ h.capPositive
  bounded := hc ▸ Nat.le_trans hs.length_le h.bounded
  keysDistinct := h.keysDistinct.sublist (hs.map _)
  valid e he := (hv e he).trans (h.valid e (hs.subset he))

theorem State.CacheOk.of_same {s t : State} (h : s.CacheOk) (hc : t.cache.entries = s.cache.entries)
    (hbp : t.bp = s.bp) (hp : t.params = s.params) (hm : t.mem = s.mem) : t.CacheOk :=
  h.of_sublist (hc ▸ List.Sublist.refl _) (by rw [hp]) fun _ _ => State.codeAt_of_same hbp hp hm _

/-- A change of memory inside a range, with the range invalidated, keeps the cache valid (R147). -/
theorem State.CacheOk.dcInvalidate {s t : State} (h : s.CacheOk) (hc : t.cache.entries = s.cache.entries)
    (hbp : t.bp = s.bp) (hp : t.params = s.params) {lo : Addr} {n : Nat}
    (hm : ∀ x, inRange lo n x = false → t.mem.byte x = s.mem.byte x) : (t.dcInvalidate lo n).CacheOk := by
  have hsub : (t.dcInvalidate lo n).cache.entries.Sublist s.cache.entries := by
    rw [← hc]; exact List.filter_sublist
  refine h.of_sublist hsub (by rw [State.dcInvalidate_params, hp]) fun e he => ?_
  have ho := (State.mem_dcInvalidate.1 he).2
  rw [(State.codeAt_addr_size (h.valid e (hsub.subset he))).2] at ho
  refine State.codeAt_congr (by simp [State.armed, hbp]) (by simp [hp]) (by simp [hp]) fun k hk => ?_
  apply hm
  have := List.any_eq_false.1 ho k (List.mem_range.2 hk)
  simpa using this

/-- A change of the breakpoint records at one address, with the entry there invalidated, keeps the cache valid
(R147). -/
theorem State.CacheOk.dcInvalidateAt {s t : State} (h : s.CacheOk) (hc : t.cache.entries = s.cache.entries)
    (hp : t.params = s.params) (hm : t.mem = s.mem) {a : Addr}
    (hbp : ∀ x, x ≠ a → t.armed x = s.armed x) : (t.dcInvalidateAt a).CacheOk := by
  have hsub : (t.dcInvalidateAt a).cache.entries.Sublist s.cache.entries := by
    rw [← hc]; exact List.filter_sublist
  refine h.of_sublist hsub (by rw [State.dcInvalidateAt_params, hp]) fun e he => ?_
  exact State.codeAt_congr (hbp _ (State.mem_dcInvalidateAt.1 he).2) (by simp [hp]) (by simp [hp])
    fun _ _ => by simp [hm]

/-! ## WATCHER (R63) -/

/-- WATCHER's changes stay inside the access, whose cache entries go, so that the cache stays valid (R147). -/
theorem State.CacheOk.applyReply {s : State} (hs : s.CacheOk) {a : Addr} {n : Nat} {r : WatchReply}
    {rest : List WatchReply} (h : r.writesInside a n = true) : (s.applyReply a n r rest).CacheOk := by
  have h1 := hs.dcInvalidate
    (t := { s with mem := s.mem.storeCells r.writes, env := { s.env with watcher := rest } }) rfl rfl rfl
    fun x hx => r.byte_outside h s.mem x hx
  rw [State.applyReply_eq]
  exact h1.of_same rfl rfl rfl rfl

theorem State.CacheOk.memRead {s t : State} (hs : s.CacheOk) {a : Addr} {n : Nat} {b : List Byte}
    (h : s.memRead a n = .next (b, t)) : t.CacheOk := by
  rcases State.memRead_next h with ⟨_, _, rfl⟩ | ⟨_, r, rest, _, _, hin, _, rfl⟩
  · exact hs
  · exact hs.applyReply hin

/-! ## `get` (R141 to R143) -/

theorem State.CacheOk.setIwbuf {s : State} (hs : s.CacheOk) (w : Word) : (s.setIwbuf w).CacheOk :=
  hs.of_same rfl rfl rfl rfl

theorem State.CacheOk.touch {s : State} (hs : s.CacheOk) (a : Addr) : (s.touch a).CacheOk := by
  have hmap : (s.touch a).cache.entries.map CacheEntry.addr = s.cache.entries.map CacheEntry.addr := by
    simp only [State.touch, List.map_map]
    apply List.map_congr_left
    intro e _
    simp only [Function.comp]
    split <;> rfl
  refine ⟨hs.capPositive, ?_, hmap ▸ hs.keysDistinct, ?_⟩
  · simp only [State.touch, List.length_map]; exact hs.bounded
  · intro e he
    simp only [State.touch, List.mem_map] at he
    obtain ⟨e', he', rfl⟩ := he
    rw [State.codeAt_of_same (s := s) (t := s.touch a) rfl rfl rfl]
    split
    · exact hs.valid e' he'
    · exact hs.valid e' he'

theorem State.makeRoom_sublist (s : State) : s.makeRoom.cache.entries.Sublist s.cache.entries := by
  unfold State.makeRoom
  split
  · exact List.eraseIdx_sublist _ _
  · exact List.Sublist.refl _

theorem State.CacheOk.makeRoom_length {s : State} (hs : s.CacheOk) :
    s.makeRoom.cache.entries.length + 1 ≤ s.params.cacheCap := by
  unfold State.makeRoom
  split
  · next h =>
    have hpos : 0 < s.cache.entries.length := Nat.lt_of_lt_of_le hs.capPositive h
    have := List.length_eraseIdx_of_lt (Nat.mod_lt (Config.evict (s.cache.entries.map fun e => (e.addr, e.stamp))) hpos)
    have hb := hs.bounded
    simp only [this]; omega
  · next h => omega

theorem State.CacheOk.decodeAt {s t : State} (hs : s.CacheOk) {a : Addr} {r : Record}
    (h : s.decodeAt a = .next (r, t)) : t.CacheOk := by
  obtain ⟨b, u, hu, _, rfl⟩ := State.decodeAt_next h
  exact (hs.memRead hu).setIwbuf _

/-- A new entry that holds the code visible at its address, at a key that had none, keeps the cache valid. -/
theorem State.CacheOk.addEntry {s : State} (hs : s.CacheOk) {a : Addr} {r : Record} (h : s.codeAt a = some r)
    (hnone : s.cache.entries.find? (fun e => e.addr == a) = none) : (s.makeRoom.addEntry a r).CacheOk := by
  have hsub := s.makeRoom_sublist
  have hp : ∀ x, (s.makeRoom.addEntry a r).codeAt x = s.codeAt x := fun x =>
    State.codeAt_of_same (by simp) (by simp) (by simp) x
  refine ⟨by simpa using hs.capPositive, ?_, ?_, ?_⟩
  · simpa [State.addEntry] using hs.makeRoom_length
  · simp only [State.addEntry, List.map_append, List.map_cons, List.map_nil]
    refine List.nodup_append.2 ⟨hs.keysDistinct.sublist (hsub.map _), by simp, ?_⟩
    intro x hx y hy
    simp only [List.mem_singleton] at hy
    rintro rfl
    obtain ⟨e, he, hx⟩ := List.mem_map.1 hx
    exact List.find?_eq_none.1 hnone e (hsub.subset he) (by simp [hx, hy])
  · intro e he
    rw [hp]
    simp only [State.addEntry, List.mem_append, List.mem_singleton] at he
    rcases he with he | rfl
    · exact hs.valid e (hsub.subset he)
    · exact h

/-- `get` where the word is not WATCHER's: the code visible at the address, and nothing but the cache changes. -/
theorem State.CacheOk.dcGet_of_codeAt {s : State} (hs : s.CacheOk) {a : Addr} {r : Record}
    (h : s.codeAt a = some r) : ∃ t, s.dcGet a = .next (r, t) ∧ t = { s with cache := t.cache } ∧ t.CacheOk := by
  unfold State.dcGet
  split
  · next e he =>
    have hk : e.addr = a := by simpa using List.find?_some he
    have hv := hs.valid e (List.mem_of_find?_eq_some he)
    rw [hk, h] at hv; cases hv
    exact ⟨_, rfl, rfl, hs.touch a⟩
  · next hnone =>
    refine ⟨_, by simp only [State.dcFill, State.produce_of_codeAt h, ResultOf.andThen, h, Option.isSome_some, if_true]; rfl,
      ?_, ?_⟩
    · split <;> · unfold State.makeRoom State.addEntry; split <;> rfl
    · split
      · exact hs.addEntry h hnone
      · exact (hs.setIwbuf _).addEntry h hnone

/-- `get` where the word is WATCHER's: no entry is there, and `get` is a fill. -/
theorem State.CacheOk.dcGet_of_codeAt_none {s : State} (hs : s.CacheOk) {a : Addr} (h : s.codeAt a = none) :
    s.dcGet a = s.decodeAt a := by
  unfold State.dcGet
  split
  · next e he =>
    have hk : e.addr = a := by simpa using List.find?_some he
    have hv := hs.valid e (List.mem_of_find?_eq_some he)
    rw [hk, h] at hv; cases hv
  · simp only [State.dcFill, State.produce_of_codeAt_none h, h, Option.isSome_none]
    cases s.decodeAt a <;> rfl

theorem State.CacheOk.dcGet {s t : State} (hs : s.CacheOk) {a : Addr} {r : Record}
    (h : s.dcGet a = .next (r, t)) : t.CacheOk := by
  cases hv : s.codeAt a with
  | none => rw [hs.dcGet_of_codeAt_none hv] at h; exact hs.decodeAt h
  | some r' =>
    obtain ⟨u, hu, _, hok⟩ := hs.dcGet_of_codeAt hv
    rw [hu] at h; cases h; exact hok

/-- Transparency (R148): `get` answers as a fill would, and leaves what it leaves but for the cache. -/
theorem State.CacheOk.dcGet_of_produce {s u : State} (hs : s.CacheOk) {a : Addr} {r : Record}
    (h : s.produce a = .next (r, u)) : ∃ t, s.dcGet a = .next (r, t) ∧ t = { u with cache := t.cache } ∧ t.CacheOk := by
  cases hv : s.codeAt a with
  | none =>
    rw [State.produce_of_codeAt_none hv] at h
    exact ⟨u, (hs.dcGet_of_codeAt_none hv).trans h, rfl, hs.decodeAt h⟩
  | some r' =>
    obtain ⟨t, ht, he, hok⟩ := hs.dcGet_of_codeAt hv
    rw [State.produce_of_codeAt hv] at h; cases h
    refine ⟨t, ht, ?_, hok⟩
    split
    · exact he
    · rw [he]; rfl

/-- What `get` can change, whatever the cache holds: what a read of the memory side changes, and the cache. -/
theorem State.dcGet_next {s t : State} {a : Addr} {r : Record} (h : s.dcGet a = .next (r, t)) :
    ∃ u, (u = s ∨ ∃ b, s.memRead a 4 = .next (b, u)) ∧ t = { u with cache := t.cache } := by
  unfold State.dcGet at h
  split at h
  · cases h; exact ⟨s, .inl rfl, rfl⟩
  · unfold State.dcFill at h
    have key : ∀ (v : State) (p : Prop) [Decidable p],
        (if p then v.makeRoom.addEntry a r else v) = { v with
          cache := (if p then v.makeRoom.addEntry a r else v).cache } := by
      intro v p _
      split
      · unfold State.makeRoom State.addEntry; split <;> rfl
      · rfl
    unfold State.produce at h
    split at h
    · simp only [ResultOf.andThen] at h
      cases h; exact ⟨s, .inl rfl, key s _⟩
    · cases hd : s.decodeAt a with
      | next p =>
        obtain ⟨b, u, hu, hr, hp⟩ := State.decodeAt_next (r := p.1) (t := p.2) hd
        rw [hd] at h
        simp only [ResultOf.andThen] at h
        cases h
        refine ⟨u, .inr ⟨b, hu⟩, ?_⟩
        rw [key]; rw [hp]; rfl
      | fault f => rw [hd] at h; cases h
      | refused q => rw [hd] at h; cases h

end Sys2Proof.Machine
end

