-- ==== Sys2Proof/Laws/Encoding.lean ====
section
/-! SUPPORT. The laws of instruction words: which fields a row of the opcode table fixes, and what each field of an
assembled word is. -/

namespace Sys2Proof

theorem forall_le_one {p : Nat → Prop} : (∀ m ≤ 1, p m) ↔ p 0 ∧ p 1 := by
  constructor
  · intro h; exact ⟨h 0 (by omega), h 1 (by omega)⟩
  · rintro ⟨h0, h1⟩ m hm
    match m, hm with
    | 0, _ => exact h0
    | 1, _ => exact h1

/-! ## What a row fixes (R103) -/

theorem rowAdd_accepts (w : Word) : rowAdd.accepts w = true ↔
    w.extractLsb' 0 7 = 0b0110011#7 ∧ w.extractLsb' 12 3 = 0#3 ∧ w.extractLsb' 25 7 = 0#7 := by
  simp only [OpcodeRow.accepts, rowAdd, beq_iff_eq, BitVec.eq_of_getLsbD_eq_iff]
  simp +decide [Nat.forall_lt_succ_right, forall_le_one]
  tauto

theorem rowAddi_accepts (w : Word) : rowAddi.accepts w = true ↔
    w.extractLsb' 0 7 = 0b0010011#7 ∧ w.extractLsb' 12 3 = 0#3 := by
  simp only [OpcodeRow.accepts, rowAddi, beq_iff_eq, BitVec.eq_of_getLsbD_eq_iff]
  simp +decide [Nat.forall_lt_succ_right, forall_le_one]
  tauto

theorem rowLw_accepts (w : Word) : rowLw.accepts w = true ↔
    w.extractLsb' 0 7 = 0b0000011#7 ∧ w.extractLsb' 12 3 = 0b010#3 := by
  simp only [OpcodeRow.accepts, rowLw, beq_iff_eq, BitVec.eq_of_getLsbD_eq_iff]
  simp +decide [Nat.forall_lt_succ_right, forall_le_one]
  tauto

theorem rowSw_accepts (w : Word) : rowSw.accepts w = true ↔
    w.extractLsb' 0 7 = 0b0100011#7 ∧ w.extractLsb' 12 3 = 0b010#3 := by
  simp only [OpcodeRow.accepts, rowSw, beq_iff_eq, BitVec.eq_of_getLsbD_eq_iff]
  simp +decide [Nat.forall_lt_succ_right, forall_le_one]
  tauto

theorem rowJal_accepts (w : Word) : rowJal.accepts w = true ↔ w.extractLsb' 0 7 = 0b1101111#7 := by
  simp only [OpcodeRow.accepts, rowJal, beq_iff_eq, BitVec.eq_of_getLsbD_eq_iff]
  simp +decide [Nat.forall_lt_succ_right, forall_le_one]

theorem rowEbreak_accepts (w : Word) : rowEbreak.accepts w = true ↔ w = 0x00100073#32 := by
  simp only [OpcodeRow.accepts, rowEbreak, beq_iff_eq]
  rw [show (0xFFFFFFFF : Word) = BitVec.allOnes 32 from rfl, BitVec.and_allOnes]
  exact Iff.rfl

/-! ## The fields of an assembled word (R93 to R96) -/

@[simp] theorem fieldRd_formatR (f7 : BitVec 7) (rs2 rs1 : Reg) (f3 : BitVec 3) (rd : Reg) (op : BitVec 7) :
    fieldRd (formatR f7 rs2 rs1 f3 rd op) = rd := by
  apply BitVec.eq_of_getLsbD_eq
  intro i hi
  simp only [fieldRd, formatR, BitVec.getLsbD_extractLsb', BitVec.getLsbD_append]
  interval_cases i <;> simp

@[simp] theorem fieldRs1_formatR (f7 : BitVec 7) (rs2 rs1 : Reg) (f3 : BitVec 3) (rd : Reg) (op : BitVec 7) :
    fieldRs1 (formatR f7 rs2 rs1 f3 rd op) = rs1 := by
  apply BitVec.eq_of_getLsbD_eq
  intro i hi
  simp only [fieldRs1, formatR, BitVec.getLsbD_extractLsb', BitVec.getLsbD_append]
  interval_cases i <;> simp

@[simp] theorem fieldRs2_formatR (f7 : BitVec 7) (rs2 rs1 : Reg) (f3 : BitVec 3) (rd : Reg) (op : BitVec 7) :
    fieldRs2 (formatR f7 rs2 rs1 f3 rd op) = rs2 := by
  apply BitVec.eq_of_getLsbD_eq
  intro i hi
  simp only [fieldRs2, formatR, BitVec.getLsbD_extractLsb', BitVec.getLsbD_append]
  interval_cases i <;> simp

@[simp] theorem opcode_formatR (f7 : BitVec 7) (rs2 rs1 : Reg) (f3 : BitVec 3) (rd : Reg) (op : BitVec 7) :
    (formatR f7 rs2 rs1 f3 rd op).extractLsb' 0 7 = op := by
  apply BitVec.eq_of_getLsbD_eq
  intro i hi
  simp only [formatR, BitVec.getLsbD_extractLsb', BitVec.getLsbD_append]
  interval_cases i <;> simp

@[simp] theorem funct3_formatR (f7 : BitVec 7) (rs2 rs1 : Reg) (f3 : BitVec 3) (rd : Reg) (op : BitVec 7) :
    (formatR f7 rs2 rs1 f3 rd op).extractLsb' 12 3 = f3 := by
  apply BitVec.eq_of_getLsbD_eq
  intro i hi
  simp only [formatR, BitVec.getLsbD_extractLsb', BitVec.getLsbD_append]
  interval_cases i <;> simp

@[simp] theorem funct7_formatR (f7 : BitVec 7) (rs2 rs1 : Reg) (f3 : BitVec 3) (rd : Reg) (op : BitVec 7) :
    (formatR f7 rs2 rs1 f3 rd op).extractLsb' 25 7 = f7 := by
  apply BitVec.eq_of_getLsbD_eq
  intro i hi
  simp only [formatR, BitVec.getLsbD_extractLsb', BitVec.getLsbD_append]
  interval_cases i <;> simp

@[simp] theorem fieldRd_formatI (imm : BitVec 12) (rs1 : Reg) (f3 : BitVec 3) (rd : Reg) (op : BitVec 7) :
    fieldRd (formatI imm rs1 f3 rd op) = rd := by
  apply BitVec.eq_of_getLsbD_eq
  intro i hi
  simp only [fieldRd, formatI, BitVec.getLsbD_extractLsb', BitVec.getLsbD_append]
  interval_cases i <;> simp

@[simp] theorem fieldRs1_formatI (imm : BitVec 12) (rs1 : Reg) (f3 : BitVec 3) (rd : Reg) (op : BitVec 7) :
    fieldRs1 (formatI imm rs1 f3 rd op) = rs1 := by
  apply BitVec.eq_of_getLsbD_eq
  intro i hi
  simp only [fieldRs1, formatI, BitVec.getLsbD_extractLsb', BitVec.getLsbD_append]
  interval_cases i <;> simp

@[simp] theorem opcode_formatI (imm : BitVec 12) (rs1 : Reg) (f3 : BitVec 3) (rd : Reg) (op : BitVec 7) :
    (formatI imm rs1 f3 rd op).extractLsb' 0 7 = op := by
  apply BitVec.eq_of_getLsbD_eq
  intro i hi
  simp only [formatI, BitVec.getLsbD_extractLsb', BitVec.getLsbD_append]
  interval_cases i <;> simp

@[simp] theorem funct3_formatI (imm : BitVec 12) (rs1 : Reg) (f3 : BitVec 3) (rd : Reg) (op : BitVec 7) :
    (formatI imm rs1 f3 rd op).extractLsb' 12 3 = f3 := by
  apply BitVec.eq_of_getLsbD_eq
  intro i hi
  simp only [formatI, BitVec.getLsbD_extractLsb', BitVec.getLsbD_append]
  interval_cases i <;> simp

@[simp] theorem fieldI_formatI (imm : BitVec 12) (rs1 : Reg) (f3 : BitVec 3) (rd : Reg) (op : BitVec 7) :
    fieldI (formatI imm rs1 f3 rd op) = imm := by
  apply BitVec.eq_of_getLsbD_eq
  intro i hi
  simp only [fieldI, formatI, BitVec.getLsbD_extractLsb', BitVec.getLsbD_append]
  interval_cases i <;> simp

@[simp] theorem fieldRs1_formatS (imm : BitVec 12) (rs2 rs1 : Reg) (f3 : BitVec 3) (op : BitVec 7) :
    fieldRs1 (formatS imm rs2 rs1 f3 op) = rs1 := by
  apply BitVec.eq_of_getLsbD_eq
  intro i hi
  simp only [fieldRs1, formatS, BitVec.getLsbD_extractLsb', BitVec.getLsbD_append]
  interval_cases i <;> simp

@[simp] theorem fieldRs2_formatS (imm : BitVec 12) (rs2 rs1 : Reg) (f3 : BitVec 3) (op : BitVec 7) :
    fieldRs2 (formatS imm rs2 rs1 f3 op) = rs2 := by
  apply BitVec.eq_of_getLsbD_eq
  intro i hi
  simp only [fieldRs2, formatS, BitVec.getLsbD_extractLsb', BitVec.getLsbD_append]
  interval_cases i <;> simp

@[simp] theorem opcode_formatS (imm : BitVec 12) (rs2 rs1 : Reg) (f3 : BitVec 3) (op : BitVec 7) :
    (formatS imm rs2 rs1 f3 op).extractLsb' 0 7 = op := by
  apply BitVec.eq_of_getLsbD_eq
  intro i hi
  simp only [formatS, BitVec.getLsbD_extractLsb', BitVec.getLsbD_append]
  interval_cases i <;> simp

@[simp] theorem funct3_formatS (imm : BitVec 12) (rs2 rs1 : Reg) (f3 : BitVec 3) (op : BitVec 7) :
    (formatS imm rs2 rs1 f3 op).extractLsb' 12 3 = f3 := by
  apply BitVec.eq_of_getLsbD_eq
  intro i hi
  simp only [formatS, BitVec.getLsbD_extractLsb', BitVec.getLsbD_append]
  interval_cases i <;> simp

@[simp] theorem fieldS_formatS (imm : BitVec 12) (rs2 rs1 : Reg) (f3 : BitVec 3) (op : BitVec 7) :
    fieldS (formatS imm rs2 rs1 f3 op) = imm := by
  apply BitVec.eq_of_getLsbD_eq
  intro i hi
  simp only [fieldS, formatS, BitVec.getLsbD_extractLsb', BitVec.getLsbD_append]
  interval_cases i <;> simp

@[simp] theorem fieldRd_formatJ (imm : BitVec 21) (rd : Reg) (op : BitVec 7) :
    fieldRd (formatJ imm rd op) = rd := by
  apply BitVec.eq_of_getLsbD_eq
  intro i hi
  simp only [fieldRd, formatJ, BitVec.getLsbD_extractLsb', BitVec.getLsbD_append]
  interval_cases i <;> simp

@[simp] theorem opcode_formatJ (imm : BitVec 21) (rd : Reg) (op : BitVec 7) :
    (formatJ imm rd op).extractLsb' 0 7 = op := by
  apply BitVec.eq_of_getLsbD_eq
  intro i hi
  simp only [formatJ, BitVec.getLsbD_extractLsb', BitVec.getLsbD_append]
  interval_cases i <;> simp

/-- The J format and the J-immediate are inverse on immediates whose bit 0 is 0 (R96, R101). -/
theorem fieldJ_formatJ (imm : BitVec 21) (rd : Reg) (op : BitVec 7) (h : imm.getLsbD 0 = false) :
    fieldJ (formatJ imm rd op) = imm := by
  have h0 : imm[0] = false := h
  apply BitVec.eq_of_getLsbD_eq
  intro i hi
  simp only [fieldJ, formatJ, BitVec.getLsbD_extractLsb', BitVec.getLsbD_append]
  interval_cases i <;> simp [h0]

/-! ## A word from its fields -/

theorem formatR_fields (w : Word) :
    formatR (w.extractLsb' 25 7) (fieldRs2 w) (fieldRs1 w) (w.extractLsb' 12 3) (fieldRd w) (w.extractLsb' 0 7) = w := by
  apply BitVec.eq_of_getLsbD_eq
  intro i hi
  simp only [formatR, fieldRd, fieldRs1, fieldRs2, BitVec.getLsbD_extractLsb', BitVec.getLsbD_append]
  interval_cases i <;> simp

theorem formatI_fields (w : Word) :
    formatI (fieldI w) (fieldRs1 w) (w.extractLsb' 12 3) (fieldRd w) (w.extractLsb' 0 7) = w := by
  apply BitVec.eq_of_getLsbD_eq
  intro i hi
  simp only [formatI, fieldRd, fieldRs1, fieldI, BitVec.getLsbD_extractLsb', BitVec.getLsbD_append]
  interval_cases i <;> simp

theorem formatS_fields (w : Word) :
    formatS (fieldS w) (fieldRs2 w) (fieldRs1 w) (w.extractLsb' 12 3) (w.extractLsb' 0 7) = w := by
  apply BitVec.eq_of_getLsbD_eq
  intro i hi
  simp only [formatS, fieldRs2, fieldRs1, fieldS, BitVec.getLsbD_extractLsb', BitVec.getLsbD_append]
  interval_cases i <;> simp

theorem formatJ_fields (w : Word) : formatJ (fieldJ w) (fieldRd w) (w.extractLsb' 0 7) = w := by
  apply BitVec.eq_of_getLsbD_eq
  intro i hi
  simp only [formatJ, fieldRd, fieldJ, BitVec.getLsbD_extractLsb', BitVec.getLsbD_append]
  interval_cases i <;> simp

/-! ## Immediates as integers (R101) -/

theorem sext12_toInt (imm : BitVec 12) : (sext12 imm).toInt = imm.toInt := BitVec.toInt_signExtend_of_le (by omega)

theorem sext21_toInt (imm : BitVec 21) : (sext21 imm).toInt = imm.toInt := BitVec.toInt_signExtend_of_le (by omega)

@[simp] theorem setWidth_sext12 (imm : BitVec 12) : (sext12 imm).setWidth 12 = imm := by
  apply BitVec.eq_of_getLsbD_eq
  intro k hk
  simp [sext12, BitVec.getLsbD_signExtend, hk]
  omega

@[simp] theorem setWidth_sext21 (imm : BitVec 21) : (sext21 imm).setWidth 21 = imm := by
  apply BitVec.eq_of_getLsbD_eq
  intro k hk
  simp [sext21, BitVec.getLsbD_signExtend, hk]
  omega

end Sys2Proof
end

