-- ==== Sys2Proof/Laws/Exec.lean ====
section
/-! SUPPORT. What executing a record can do: one account for every routine, from which the invariants of the loop
follow without unfolding a meaning again. -/

namespace Sys2Proof.Machine

/-! ## Sequences -/

theorem Result.andThen_next {o : Result} {f : State → Result} {u : State} (h : Result.andThen o f = .next u) :
    ∃ t, o = .next t ∧ f t = .next u := by
  cases o with
  | next t => exact ⟨t, rfl, h⟩
  | fault r => cases h
  | refused r => cases h

theorem ResultOf.andThen_next {α : Type} {o : ResultOf α} {f : α → State → Result} {u : State}
    (h : o.andThen f = .next u) : ∃ v t, o = .next (v, t) ∧ f v t = .next u := by
  cases o with
  | next p => exact ⟨p.1, p.2, rfl, h⟩
  | fault r => cases h
  | refused r => cases h

/-! ## The account -/

/-- What every routine keeps (R160): the parts it may not touch, the invariants of the parts it may, and that a halt
request comes with a reason. -/
structure Kept (s t : State) : Prop where
  control : ControlKept s t
  memory : s.mem.wf → t.mem.wf
  registers : s.RegsOk → t.RegsOk
  loadDone : s.load = none → t.load = none
  cache : s.CacheOk → t.CacheOk
  request : (t.run.haltReq = s.run.haltReq ∧ t.run.haltReason = s.run.haltReason) ∨
    (t.run.haltReq = true ∧ t.run.haltReason ≠ .none)
  faults : ∃ l, l.length ≤ 1 ∧ t.faultLog = s.faultLog ++ l

theorem ControlKept.refl (s : State) : ControlKept s s := ⟨rfl, rfl, rfl, rfl, rfl, rfl, rfl, rfl, rfl⟩

theorem Kept.refl (s : State) : Kept s s :=
  ⟨.refl s, id, id, id, id, .inl ⟨rfl, rfl⟩, [], Nat.zero_le _, by simp⟩

theorem ControlKept.trans {s t u : State} (h : ControlKept s t) (k : ControlKept t u) : ControlKept s u :=
  ⟨k.bp.trans h.bp, k.counters.trans h.counters, k.port.trans h.port, k.params.trans h.params,
    k.runState.trans h.runState, k.haltAddr.trans h.haltAddr, k.stepLeft.trans h.stepLeft,
    k.stepDone.trans h.stepDone, k.resumeBp.trans h.resumeBp⟩

/-- Two accounts in a row, the second of which raises no fault. -/
theorem Kept.trans {s t u : State} (h : Kept s t) (k : Kept t u) (hf : u.faultLog = t.faultLog) : Kept s u where
  control := h.control.trans k.control
  memory := k.memory ∘ h.memory
  registers := k.registers ∘ h.registers
  loadDone := k.loadDone ∘ h.loadDone
  cache := k.cache ∘ h.cache
  request := by
    rcases k.request with ⟨a, b⟩ | r
    · rw [a, b]; exact h.request
    · exact .inr r
  faults := by rw [hf]; exact h.faults

theorem Kept.requestHalt (s : State) {r : HaltReason} (hr : r ≠ .none) : Kept s (s.requestHalt r) where
  control := by
    by_cases h : s.run.runState = .halted <;> refine ⟨rfl, rfl, rfl, rfl, ?_, ?_, ?_, ?_, ?_⟩ <;> simp [h]
  memory := id
  registers h := h.of_regs rfl
  loadDone := id
  cache h := h.of_same rfl rfl rfl rfl
  request := by
    by_cases h : s.run.runState = .halted
    · exact .inl (by simp [h])
    · exact .inr (by simp [h, hr])
  faults := ⟨[], Nat.zero_le _, by simp⟩

theorem Kept.writeDst_dstOf (s : State) (rd : Reg) (v : Word) : Kept s (s.writeDst (dstOf rd) v) := by
  have e := State.writeDst_dstOf_rest s rd v
  refine ⟨⟨?_, ?_, ?_, ?_, ?_, ?_, ?_, ?_, ?_⟩, ?_, fun h => h.writeDst_dstOf rd v, ?_, ?_, .inl ⟨?_, ?_⟩, [], Nat.zero_le _, ?_⟩
  any_goals (rw [e])
  · exact id
  · exact id
  · intro h; exact h.of_same (by rw [e]) (by rw [e]) (by rw [e]) (by rw [e])
  · simp

/-- A handle that fits the convention for a register destination is the binding of a field (R100). -/
theorem Dst.eq_dstOf {d : Dst} (h : d.isRegister = true) : d = dstOf d.field := by
  cases d with
  | reg i =>
    have : i ≠ 0 := by simpa [Dst.isRegister] using h
    exact (if_neg this).symm
  | discard => rfl
  | pc => cases h

theorem Src.eq_srcOf {d : Src} (h : d.isRegister = true) : d = srcOf d.field := by
  cases d with
  | reg i =>
    have : i ≠ 0 := by simpa [Src.isRegister] using h
    exact (if_neg this).symm
  | zero => rfl
  | imm v => cases h

theorem Kept.writeDst_reg {s : State} {d : Dst} (h : d.isRegister = true) (v : Word) : Kept s (s.writeDst d v) := by
  rw [Dst.eq_dstOf h]; exact .writeDst_dstOf s _ v

theorem Kept.writeDst_pc (s : State) (v : Word) : Kept s (s.writeDst .pc v) where
  control := ⟨rfl, rfl, rfl, rfl, rfl, rfl, rfl, rfl, rfl⟩
  memory := id
  registers h := h.writeDst_pc v
  loadDone := id
  cache h := h.of_same rfl rfl rfl rfl
  request := .inl ⟨rfl, rfl⟩
  faults := ⟨[], Nat.zero_le _, by simp [State.writeDst_pc]⟩

theorem State.writeDst_faultLog {s : State} {d : Dst} (h : d.isRegister = true) (v : Word) :
    (s.writeDst d v).faultLog = s.faultLog := by
  rw [Dst.eq_dstOf h, State.writeDst_dstOf_rest]

theorem Kept.raiseFault (s : State) (k : FaultCode) (a : Addr) : Kept s (s.raiseFault k a) := by
  have h1 : Kept s { s with faultLog := s.faultLog ++ [(k, a)] } :=
    ⟨⟨rfl, rfl, rfl, rfl, rfl, rfl, rfl, rfl, rfl⟩, id, fun h => h.of_regs rfl, id, fun h => h.of_same rfl rfl rfl rfl,
      .inl ⟨rfl, rfl⟩, [(k, a)], Nat.le_refl _, rfl⟩
  unfold State.raiseFault
  dsimp only
  split
  · exact h1.trans (.requestHalt _ (by simp)) rfl
  · exact h1

/-- WATCHER's effects of one access keep what a routine keeps: they stay inside the access, whose cache entries
go. -/
theorem Kept.applyReply {s : State} {a : Addr} {n : Nat} {r : WatchReply} {rest : List WatchReply}
    (h : r.writesInside a n = true) : Kept s (s.applyReply a n r rest) ∧
      (s.applyReply a n r rest).faultLog = s.faultLog := by
  have h1 : Kept s ({ s with mem := s.mem.storeCells r.writes, env := { s.env with watcher := rest } }.dcInvalidate a n) :=
    ⟨⟨rfl, rfl, rfl, rfl, rfl, rfl, rfl, rfl, rfl⟩, fun hm => Memory.storeCells_wf hm _, fun h => h.of_regs rfl, id,
      fun hc => hc.dcInvalidate
        (t := { s with mem := s.mem.storeCells r.writes, env := { s.env with watcher := rest } }) rfl rfl rfl
        fun x hx => r.byte_outside h s.mem x hx, .inl ⟨rfl, rfl⟩,
      [], Nat.zero_le _, by simp⟩
  unfold State.applyReply
  dsimp only
  split
  · exact ⟨h1.trans (.requestHalt _ (by simp)) rfl, rfl⟩
  · exact ⟨h1, rfl⟩

/-- A read of the memory side keeps what a routine keeps, and touches no register and no fault log. -/
theorem State.memRead_kept {s t : State} {a : Addr} {n : Nat} {b : List Byte} (h : s.memRead a n = .next (b, t)) :
    Kept s t ∧ t.faultLog = s.faultLog := by
  rcases State.memRead_next h with ⟨_, _, rfl⟩ | ⟨_, r, rest, _, _, hin, _, rfl⟩
  · exact ⟨.refl _, rfl⟩
  · exact Kept.applyReply hin

/-- `get` keeps what a routine keeps: it changes the cache, and what a read of the memory side changes. -/
theorem State.dcGet_kept {s t : State} {a : Addr} {r : Record} (h : s.dcGet a = .next (r, t)) :
    Kept s t ∧ t.faultLog = s.faultLog := by
  obtain ⟨u, hu, ht⟩ := State.dcGet_next h
  have hk : Kept s u ∧ u.faultLog = s.faultLog := by
    rcases hu with rfl | ⟨b, hb⟩
    · exact ⟨.refl _, rfl⟩
    · exact State.memRead_kept hb
  have hc : s.CacheOk → t.CacheOk := fun hs => hs.dcGet h
  rw [ht] at hc ⊢
  exact ⟨⟨⟨hk.1.control.bp, hk.1.control.counters, hk.1.control.port, hk.1.control.params, hk.1.control.runState,
    hk.1.control.haltAddr, hk.1.control.stepLeft, hk.1.control.stepDone, hk.1.control.resumeBp⟩, hk.1.memory,
    fun hr => (hk.1.registers hr).of_regs rfl, hk.1.loadDone, hc, hk.1.request, hk.1.faults⟩, hk.2⟩

/-! ## The routines -/

theorem addRoutine_kept {a b : Src} {d : Dst} {s t : State} (hd : d.isRegister = true)
    (h : addRoutine a b d s = .next t) : Kept s t := by
  cases h; exact .writeDst_reg hd _

theorem jalRoutine_kept {addr : Addr} {size : Nat} {off : Src} {link : Dst} {s t : State}
    (hd : link.isRegister = true) (h : jalRoutine addr size off .pc link s = .next t) : Kept s t := by
  cases h
  exact (Kept.writeDst_pc s _).trans (.writeDst_reg hd _) (State.writeDst_faultLog hd _)

theorem ebreakRoutine_kept {addr : Addr} {s t : State} (h : ebreakRoutine addr .pc s = .next t) : Kept s t := by
  unfold ebreakRoutine State.breakpointEvent at h
  cases ha : askHandlers addr s.env.bpHandlers with
  | decline =>
    simp only [ha, Bool.false_eq_true, if_false] at h
    cases h; exact (Kept.requestHalt s (by simp)).trans (.writeDst_pc _ _) rfl
  | claim => simp only [ha, if_true] at h; cases h; exact .refl s
  | claimAndHalt => simp only [ha, if_true] at h; cases h; exact .requestHalt s (by simp)

theorem Kept.setLoad_none (s : State) : Kept s (s.setLoad none) where
  control := ⟨rfl, rfl, rfl, rfl, rfl, rfl, rfl, rfl, rfl⟩
  memory := id
  registers h := h.of_regs rfl
  loadDone _ := rfl
  cache h := h.of_same rfl rfl rfl rfl
  request := .inl ⟨rfl, rfl⟩
  faults := ⟨[], Nat.zero_le _, by simp⟩

theorem State.writeDst_setLoad (s : State) (l : Option LoadPending) (d : Dst) (v : Word) :
    (s.setLoad l).writeDst d v = (s.writeDst d v).setLoad l := by
  cases d with
  | reg i => rw [State.writeDst_reg, State.writeDst_reg]; unfold State.writeX; split <;> rfl
  | discard => rfl
  | pc => rfl

/-- The memory side does not look at the suspended-load record. -/
theorem State.memRead_setLoad (s : State) (l : Option LoadPending) (a : Addr) (n : Nat) :
    (s.setLoad l).memRead a n = (s.memRead a n).andThen fun b u => .next (b, u.setLoad l) := by
  have ht : (s.setLoad l).touchesWatch a n = s.touchesWatch a n := rfl
  unfold State.memRead
  rw [ht]
  by_cases hw : s.touchesWatch a n = true
  · simp only [hw, if_true, State.setLoad_env]
    cases s.env.watcher with
    | nil => rfl
    | cons r rest =>
      dsimp only
      by_cases hc : r.bytes.length = n ∧ r.writesInside a n = true
      · simp only [if_pos hc, ResultOf.andThen]
        unfold State.applyReply
        dsimp only
        split <;> rfl
      · simp only [if_neg hc, ResultOf.andThen]
  · simp only [if_neg hw, ResultOf.andThen]; rfl

/-- The three phases of a load (R64, R171 to R173) as one read and one write: nothing of the suspended-load record
is left, and its value is the one read. -/
theorem lwRoutine_eq (base disp : Src) (d : Dst) (s : State) :
    lwRoutine base disp d s =
      (s.memRead (s.effectiveAddress base disp) 4).andThen fun b u => .next ((u.writeDst d (le32 b)).setLoad none) := by
  simp only [lwRoutine, loadComplete, lwMain, State.setLoad_load, State.memRead_setLoad]
  cases s.memRead (s.effectiveAddress base disp) 4 with
  | next p =>
    obtain ⟨b, u⟩ := p
    simp only [ResultOf.andThen, Result.andThen, lwChildRoutine, State.setLoad_load, Option.bind_some]
    rw [State.writeDst_setLoad, State.writeDst_setLoad]; rfl
  | fault r => rfl
  | refused r => rfl

/-- A load keeps what a routine keeps, and leaves no load suspended (R64, R172). -/
theorem lwRoutine_kept {base disp : Src} {d : Dst} {s t : State} (hd : d.isRegister = true)
    (h : lwRoutine base disp d s = .next t) : Kept s t := by
  rw [lwRoutine_eq] at h
  obtain ⟨b, u, hu, ht⟩ := ResultOf.andThen_next h
  cases ht
  have hfl := State.writeDst_faultLog (s := u) hd (le32 b)
  exact ((State.memRead_kept hu).1.trans (.writeDst_reg hd _) hfl).trans (.setLoad_none _) rfl

theorem State.CacheOk.dcInvalidate_self {s : State} (h : s.CacheOk) (a : Addr) (n : Nat) :
    (s.dcInvalidate a n).CacheOk := h.dcInvalidate rfl rfl rfl fun _ _ => rfl

/-- A store keeps what a routine keeps: the invalidation makes up for the change of memory (R147, R174). -/
theorem swRoutine_kept {base disp value : Src} {s t : State} (h : swRoutine base disp value s = .next t) :
    Kept s t := by
  obtain ⟨u, hu, ht⟩ := Result.andThen_next h
  cases ht
  rcases State.memWrite_next hu with ⟨_, rfl⟩ | ⟨_, r, rest, _, hin, rfl⟩
  · exact ⟨⟨rfl, rfl, rfl, rfl, rfl, rfl, rfl, rfl, rfl⟩, fun hm => Memory.storeBytes_wf hm _ _, fun h => h.of_regs rfl, id,
      fun hc => hc.dcInvalidate (t := s.rawWrite _ _) rfl rfl rfl
        fun x hx => Memory.byte_storeBytes_outside _ _ _ _ (by simpa using hx),
      .inl ⟨rfl, rfl⟩, [], Nat.zero_le _, by simp⟩
  · obtain ⟨hk, hf⟩ := Kept.applyReply (s := s) (rest := rest) hin
    refine hk.trans ⟨⟨rfl, rfl, rfl, rfl, rfl, rfl, rfl, rfl, rfl⟩, id, fun h => h.of_regs rfl, id,
      fun hc => hc.dcInvalidate_self _ _, .inl ⟨rfl, rfl⟩, [], Nat.zero_le _, by simp⟩ rfl

/-- What an instruction can do (R160): every meaning keeps what a routine keeps. -/
theorem exec_kept {i : Instr} {s t : State} (h : exec i s = .next t) : Kept s t := by
  have hd : ∀ rd : Reg, (dstOf rd).isRegister = true := by
    intro rd
    unfold dstOf
    split
    · rfl
    · next h => simpa [Dst.isRegister] using h
  cases i with
  | add rd rs1 rs2 => exact addRoutine_kept (hd rd) h
  | addi rd rs1 imm => exact addRoutine_kept (hd rd) h
  | lw rd rs1 imm => exact lwRoutine_kept (hd rd) h
  | sw rs1 rs2 imm => exact swRoutine_kept h
  | jal rd imm => exact jalRoutine_kept (hd rd) h
  | ebreak => exact ebreakRoutine_kept h

theorem malformedRoutine_kept {a : Addr} {s t : State} (h : malformedRoutine a s = .next t) : Kept s t := by
  cases h; exact .raiseFault _ _ _

theorem Dst.eq_pc {d : Dst} (h : d.isPc = true) : d = .pc := by
  cases d with
  | reg i => cases h
  | discard => cases h
  | pc => rfl

theorem executeForeign_kept {r : Record} {s t : State} (h : executeForeign r s = .next t) : Kept s t := by
  unfold executeForeign at h
  split at h
  · split at h
    · next hc => simp only [Bool.and_eq_true] at hc; exact addRoutine_kept hc.2 h
    · exact malformedRoutine_kept h
  · split at h
    · next hc => simp only [Bool.and_eq_true] at hc; exact addRoutine_kept hc.2 h
    · exact malformedRoutine_kept h
  · split at h
    · next hc =>
      simp only [Bool.and_eq_true] at hc
      rw [Dst.eq_pc hc.1.2] at h
      exact jalRoutine_kept hc.2 h
    · exact malformedRoutine_kept h
  · split at h
    · next hc => simp only [Bool.and_eq_true] at hc; exact lwRoutine_kept hc.2 h
    · exact malformedRoutine_kept h
  · split at h
    · exact swRoutine_kept h
    · exact malformedRoutine_kept h
  · split at h
    · next hc => rw [Dst.eq_pc hc] at h; exact ebreakRoutine_kept h
    · exact malformedRoutine_kept h
  · cases h; exact .raiseFault _ _ _
  · exact malformedRoutine_kept h

/-- What executing a record can do. -/
theorem execute_kept {r : Record} {s t : State} (h : execute r s = .next t) : Kept s t := by
  unfold execute at h
  split at h
  · exact exec_kept h
  · exact executeForeign_kept h

end Sys2Proof.Machine
end

