-- ==== Sys2Proof/Laws/PerInstr.lean ====
section
/-! SUPPORT. Statements made instruction by instruction, about the instruction as syntax. -/

namespace Sys2Proof.Laws

/-- The word an instruction is encoded by matches the instruction's own row of the opcode table (R103). -/
def EncodeFitsTableRow.Statement (i : Instr) : Prop :=
  (rowOf i).accepts (encode i) = true

theorem EncodeFitsTableRow.add (rd rs1 rs2 : Reg) : EncodeFitsTableRow.Statement (.add rd rs1 rs2) :=
  (rowAdd_accepts _).2 (by simp [encode])

theorem EncodeFitsTableRow.addi (rd rs1 : Reg) (imm : BitVec 12) : EncodeFitsTableRow.Statement (.addi rd rs1 imm) :=
  (rowAddi_accepts _).2 (by simp [encode])

theorem EncodeFitsTableRow.lw (rd rs1 : Reg) (imm : BitVec 12) : EncodeFitsTableRow.Statement (.lw rd rs1 imm) :=
  (rowLw_accepts _).2 (by simp [encode])

theorem EncodeFitsTableRow.sw (rs1 rs2 : Reg) (imm : BitVec 12) : EncodeFitsTableRow.Statement (.sw rs1 rs2 imm) :=
  (rowSw_accepts _).2 (by simp [encode])

theorem EncodeFitsTableRow.jal (rd : Reg) (imm : BitVec 21) : EncodeFitsTableRow.Statement (.jal rd imm) :=
  (rowJal_accepts _).2 (by simp [encode])

theorem EncodeFitsTableRow.ebreak : EncodeFitsTableRow.Statement .ebreak :=
  (rowEbreak_accepts _).2 (by decide)

end Sys2Proof.Laws
end

