-- ==== Sys2Proof/Laws/Step.lean ====
section
/-! SUPPORT. What the loop makes of a record: which instruction a record is, what an iteration is over a fetched
record, what it adds around `execute`, and what it keeps. -/

namespace Sys2Proof.Machine

/-! ## Records and instructions (R104) -/

@[simp] theorem Src.field_srcOf (i : Reg) : (srcOf i).field = i := by unfold srcOf; split <;> simp_all [Src.field]

@[simp] theorem Dst.field_dstOf (i : Reg) : (dstOf i).field = i := by unfold dstOf; split <;> simp_all [Dst.field]

@[simp] theorem Dst.isRegister_dstOf (i : Reg) : (dstOf i).isRegister = true := by
  unfold dstOf
  split
  · rfl
  · next h => simpa [Dst.isRegister] using h

theorem candidate_recordOf (a : Addr) (i : Instr) : (recordOf a i).candidate = some i := by
  cases i <;> simp [Record.candidate, recordOf, tagOf, handlesOf, childOf, Handles.none, Src.immediate]

theorem instrAt_recordOf (a : Addr) (i : Instr) : (recordOf a i).instrAt a = some i := by
  simp [Record.instrAt, candidate_recordOf]

theorem recordOf_of_instrAt {r : Record} {a : Addr} {i : Instr} (h : r.instrAt a = some i) : recordOf a i = r := by
  simp only [Record.instrAt, Option.filter_eq_some_iff] at h
  simpa using h.2

/-- Executing an instruction's record at its own address is the instruction (R160, R163). -/
theorem execute_recordOf {s : State} {a : Addr} (h : s.regs.pc = a) (i : Instr) :
    execute (recordOf a i) s = exec i s := by
  subst h; simp [execute, instrAt_recordOf]

theorem execute_illegalRecord (s : State) (a : Addr) : execute (illegalRecord a) s = illegalRoutine a s := by
  simp [execute, Record.instrAt, illegalRecord, Record.candidate, executeForeign, Handles.none]

/-! ## Updates as one record -/

theorem State.finishIteration_eq (u : State) (a : Addr) (r : Record) :
    u.finishIteration a r = { u.count r.op with
      regs := if u.run.pcWritten then u.regs else { u.regs with pc := a + BitVec.ofNat 32 r.size }
      run := if u.run.runState = .singleStepping then
        { u.run with stepLeft := u.run.stepLeft - 1, stepDone := u.run.stepDone + 1 } else u.run } := by
  unfold State.finishIteration
  by_cases h : u.run.pcWritten = true <;> by_cases h2 : u.run.runState = .singleStepping <;>
    simp [h, h2] <;> rfl

theorem State.cntOp_count (s : State) {t : OpTag} (ht : t ≠ .lwChild) (g : OpTag) :
    (s.count t).cntOp g = if g = t then s.cntOp g + 1 else s.cntOp g := by
  cases t <;> cases g <;> simp [State.count, State.cntOp, OpTag.counter] at ht ⊢

/-! ## The iteration (R191) -/

/-- An iteration over a record that a fill produces: but for the cache the fetch leaves what the fill leaves. -/
theorem iteration_of_produce {s f : State} (hc : s.CacheOk) {r : Record} (hp : s.produce s.regs.pc = .next (r, f)) :
    ∃ c, iteration s =
      Result.andThen (execute r { f with cache := c, run := { f.run with pcWritten := false } })
        fun u => .next (u.finishIteration s.regs.pc r) := by
  obtain ⟨t, ht, he, _⟩ := hc.dcGet_of_produce hp
  refine ⟨t.cache, ?_⟩
  simp only [iteration, ht, ResultOf.andThen]
  rw [he]; rfl

/-- An iteration at an address that is not armed: the read of the memory side gives the word (R91, R142). -/
theorem iteration_of_memRead {s f : State} (hc : s.CacheOk) {b : List Byte} (ha : s.armed s.regs.pc = false)
    (hm : s.memRead s.regs.pc 4 = .next (b, f)) :
    ∃ c, iteration s =
      Result.andThen (execute (s.params.dec s.regs.pc (le32 b))
          { f with cache := c, run := { f.run with pcWritten := false } })
        fun u => .next (u.finishIteration s.regs.pc (s.params.dec s.regs.pc (le32 b))) :=
  iteration_of_produce hc (f := f.setIwbuf (le32 b)) (by
    simp [State.produce, ha, State.decodeAt_of_memRead hm])

/-- What an ended iteration was: a fetch, a record executed, and the loop's own work. -/
theorem iteration_next {s t : State} (h : iteration s = .next t) :
    ∃ r c u, s.dcGet s.regs.pc = .next (r, c) ∧ Kept (c.setPcWritten false) u ∧ t = u.finishIteration s.regs.pc r := by
  obtain ⟨r, c, hg, h⟩ := ResultOf.andThen_next h
  obtain ⟨u, hu, h⟩ := Result.andThen_next h
  cases h
  exact ⟨r, c, u, hg, execute_kept hu, rfl⟩

end Sys2Proof.Machine
end

