-- ==== Sys2Proof/Tests/Slice0.lean ====
section
/-! SUPPORT. Tests: the expected values are file 95's vectors (T.. and V.. below) or are worked out by hand from the
rule named. Then one witness for each statement with hypotheses: a concrete state that meets them together. -/

namespace Sys2Proof.Tests

open Sys2Proof.Machine

/-! ## Helpers -/

/-- The outcome is a next state with the property. -/
def onNext (o : Result) (p : State → Bool) : Bool :=
  match o with
  | .next s => p s
  | .fault _ => false
  | .refused _ => false

/-- Reset, with the pc, some registers and some memory given (R45: ENTRY_PC, INIT_REGS, INIT_MEM). -/
def start (pc : Word) (regs : List (Reg × Word)) (mem : Memory) : State :=
  regs.foldl (fun s p => s.writeX p.1 p.2)
    (State.resetWith (Vector.replicate 32 0) pc mem Params.default Env.default)

/-- In `Running`, so that the next turn is an iteration. -/
def going (s : State) : State := { s with run := { s.run with runState := .running } }

/-- The bytes at 0x2000 of file 95's section 2.4. -/
def scratch : Memory :=
  [(0x2000, 0x44), (0x2001, 0x33), (0x2002, 0x22), (0x2003, 0x11), (0x2004, 0x88), (0x2005, 0x77), (0x2006, 0x66),
    (0x2007, 0x55)]

/-- V1's third and fourth instruction in memory: `add a0, a0, a1` at 0x1008, `ebreak` at 0x100C. -/
def program : Memory :=
  [(0x1008, 0x33), (0x1009, 0x05), (0x100A, 0xB5), (0x100C, 0x73), (0x100E, 0x10)]

/-! ## Well-formedness, decoding, encoding -/

theorem test_wf_odd_jal_refused : wellFormed (.jal 1 3) = false := by decide
theorem test_wf_rest_accepted : wellFormed (.add 0 0 0) = true ∧ wellFormed (.addi 31 31 0xFFF) = true ∧
    wellFormed (.lw 0 31 0x800) = true ∧ wellFormed (.sw 31 0 0x7FF) = true ∧ wellFormed (.jal 0 2) = true ∧
    wellFormed .ebreak = true := by decide

/-- T1, T3: funct7, rs2, rs1, funct3, rd, opcode (R93). -/
theorem test_decode_add :
    decode 0b00000000101101010000010100110011 = .ok (.add 10 10 11) ∧
    decode 0b00000000101101010000000000110011 = .ok (.add 0 10 11) := by decide
/-- T5, T6: imm, rs1, funct3, rd, opcode (R94). -/
theorem test_decode_addi :
    decode 0b11111111111101010000010100010011 = .ok (.addi 10 10 (-1)) ∧
    decode 0b10000000000000000000010100010011 = .ok (.addi 10 0 (-2048)) := by decide
/-- T10, T12 (R94). -/
theorem test_decode_lw :
    decode 0b11111111110001011010011000000011 = .ok (.lw 12 11 (-4)) ∧
    decode 0b00000000000001011010000000000011 = .ok (.lw 0 11 0) := by decide
/-- T15, T16: imm[11:5], rs2, rs1, funct3, imm[4:0], opcode (R95). -/
theorem test_decode_sw :
    decode 0b01111110101001011010111110100011 = .ok (.sw 11 10 2047) ∧
    decode 0b10000000101001011010000000100011 = .ok (.sw 11 10 (-2048)) := by decide
/-- T19 to T23: imm[20], imm[10:1], imm[11], imm[19:12], rd, opcode (R96). -/
theorem test_decode_jal :
    decode 0b01111111111111111111000011101111 = .ok (.jal 1 1048574) ∧
    decode 0b10000000000000000000000011101111 = .ok (.jal 1 (-1048576)) ∧
    decode 0b00000000000100000000000011101111 = .ok (.jal 1 0x800) ∧
    decode 0b00000000000000000001000011101111 = .ok (.jal 1 0x1000) ∧
    decode 0b00000000001000000000000001101111 = .ok (.jal 0 2) := by decide
/-- T24 (R103). -/
theorem test_decode_ebreak : decode 0b00000000000100000000000001110011 = .ok .ebreak := by decide
/-- T25 to T33: each is rejected with its own word. -/
theorem test_decode_illegal :
    decode 0x00000000 = .error (.unrecognised 0x00000000) ∧
    decode 0xFFFFFFFF = .error (.unrecognised 0xFFFFFFFF) ∧
    decode 0x40B50533 = .error (.unrecognised 0x40B50533) ∧
    decode 0x00B51533 = .error (.unrecognised 0x00B51533) ∧
    decode 0x00001013 = .error (.unrecognised 0x00001013) ∧
    decode 0x0005B683 = .error (.unrecognised 0x0005B683) ∧
    decode 0x00000073 = .error (.unrecognised 0x00000073) ∧
    decode 0x00008067 = .error (.unrecognised 0x00008067) ∧
    decode 0x0FF0000F = .error (.unrecognised 0x0FF0000F) := by decide
/-- V1's bytes, least significant first (R66, R91). -/
theorem test_decode_bytes : decodeBytes [0x13, 0x05, 0x50, 0x00] = .ok (.addi 10 0 5, []) ∧
    decodeBytes [0x13, 0x05, 0x50] = .error .truncated := by decide
theorem test_decode_table_word : decodeTableWord 32 0x00100073 = some .ebreak ∧ decodeTableWord 32 0 = none := by decide
/-- T2, T14, T17, T18 from their instructions. -/
theorem test_encode : encode (.add 5 6 7) = 0x007302B3 ∧ encode (.sw 11 10 (-4)) = 0xFEA5AE23 ∧
    encode (.jal 1 16) = 0x010000EF ∧ encode (.jal 0 (-8)) = 0xFF9FF06F := by decide
/-- "no two rows match the same word" (R103): two rows differ in a bit that both fix. -/
theorem test_rows_disjoint :
    ∀ r ∈ opcodeTable, ∀ q ∈ opcodeTable, r = q ∨ (r.pattern ^^^ q.pattern) &&& r.mask &&& q.mask ≠ 0 := by decide
/-- The handles of T3 and T12: a destination field 0 is `Discard` (R100), the load's on the child (R104). -/
theorem test_record_handles : (dec6 0x1000 0x00B50033).handles.dst0 = some .discard ∧
    ((dec6 0x1000 0x0005A003).child.map fun c => c.handles.dst0) = some (some .discard) := by decide

/-! ## The instructions, one step each -/

/-- T41. -/
theorem test_add_wraps : onNext (exec (.add 10 10 11) (start 0x1000 [(10, 0xFFFFFFFF), (11, 1)] []))
    (fun t => t.readX 10 == 0 && !t.run.pcWritten) = true := by decide
/-- T43: a source that is also the destination. -/
theorem test_add_same_register : onNext (step ((start 0x1000 [(10, 0x80000001)] []).withFetchWord 32 0x00A50533))
    (fun t => t.readX 10 == 2 && t.regs.pc == 0x1004 && t.cnt.total == 1 && t.cntOp .add == 1) = true := by decide
/-- T48. -/
theorem test_addi_negative : onNext (step ((start 0x1000 [] []).withFetchWord 32 0xFFF50513))
    (fun t => t.readX 10 == 0xFFFFFFFF && t.regs.pc == 0x1004) = true := by decide
/-- T53, and T71 for the pc. -/
theorem test_addi_zero_register : onNext (step ((start 0xFFFFFFFC [] []).withFetchWord 32 0x00000013))
    (fun t => t.readX 0 == 0 && t.regs.pc == 0 && t.cntOp .addi == 1) = true := by decide
/-- T82. -/
theorem test_lw_misaligned : onNext (step ((start 0x1000 [(11, 0x2000)] scratch).withFetchWord 32 0x0015A603))
    (fun t => t.readX 12 == 0x88112233 && t.load == none) = true := by decide
/-- T83. -/
theorem test_lw_base_is_destination : onNext (step ((start 0x1000 [(11, 0x2000)] scratch).withFetchWord 32 0x0005A583))
    (fun t => t.readX 11 == 0x11223344) = true := by decide
/-- T92: the access wraps past the top of memory (R61). -/
theorem test_sw_wraps :
    onNext (step ((start 0x1000 [(10, 0xA1B2C3D4), (11, 0xFFFFFFFE)] []).withFetchWord 32 0x00A5A023))
      (fun t => t.mem.byte 0xFFFFFFFE == 0xD4 && t.mem.byte 0xFFFFFFFF == 0xC3 && t.mem.byte 0 == 0xB2
        && t.mem.byte 1 == 0xA1 && t.mem.byte 2 == 0) = true := by decide
/-- T90: zeros leave nothing listed; T123: the entry at 0x1002 goes. -/
theorem test_sw_invalidates : onNext (exec (.sw 11 0 0)
      { start 0x1000 [(11, 0x1004)] [(0x1005, 7)] with
        cache := { entries := [⟨0x1002, dec6 0x1002 0, 0⟩, ⟨0x1008, dec6 0x1008 0, 1⟩], clock := 2, iwbuf := 0 } })
    (fun t => t.mem == [] && t.cache.entries.map CacheEntry.addr == [0x1008]) = true := by decide
/-- T66. -/
theorem test_jal_negative : onNext (step ((start 0x1000 [] []).withFetchWord 32 0x800000EF))
    (fun t => t.regs.pc == 0xFFF01000 && t.readX 1 == 0x1004) = true := by decide
/-- T68. -/
theorem test_jal_wraps : onNext (step ((start 0xFFFFFFFC [] []).withFetchWord 32 0x008000EF))
    (fun t => t.regs.pc == 4 && t.readX 1 == 0 && t.cntOp .jal == 1) = true := by decide
/-- T100. -/
theorem test_ebreak_stays : onNext (step ((start 0x1000 [] []).withFetchWord 32 0x00100073))
    (fun t => t.regs.pc == 0x1000 && t.run.haltReq && t.run.haltReason == .softwareBreakpoint) = true := by decide
/-- T108, first instruction: the handler claims and asks for a halt; the pc falls through. -/
theorem test_ebreak_claimed :
    onNext (step ({ start 0x1000 [] [] with env := { Env.default with bpHandlers := [⟨.claimAndHalt, []⟩] } }.withFetchWord
        32 0x00100073))
      (fun t => t.regs.pc == 0x1004 && t.run.haltReason == .semihostRequest) = true := by decide

/-! ## The loop and the port -/

/-- T112, first instruction. -/
theorem test_illegal_with_halting_handler :
    onNext (step ({ start 0x1000 [] [] with env := { Env.default with faultHandler := ⟨true, []⟩ } }.withFetchWord 32 0))
      (fun t => t.faultLog == [(.illegalInstruction, 0x1000)] && t.regs.pc == 0x1004 && t.cntOp .illegal == 1
        && t.run.haltReason == .userRequest) = true := by decide
/-- V7: the resume iteration runs the real instruction and arms the breakpoint again. -/
theorem test_resume_iteration : onNext (step
      { start 0x1008 [(10, 5), (11, 7)] program with
        bp := [(0x1008, true)], run := { RunControl.reset with runState := .running, resumeBp := true } })
    (fun t => t.readX 10 == 12 && t.regs.pc == 0x100C && t.armed 0x1008 && !t.run.resumeBp) = true := by decide
/-- V6: at an armed address `get_instruction` shows the trap. -/
theorem test_armed_get_instruction : onNext
      (runCommand (.getInstruction 0x1008) { start 0x1008 [] program with bp := [(0x1008, true)] })
    (fun t => t.port.out == [.response .getInstruction (.ok (.record (trapRecord 0x1008)))]) = true := by decide
/-- V6: `disassemble` shows the real instruction, in the syntax of R107. -/
theorem test_disassemble : onNext
      (runCommand (.disassemble 0x1008) { start 0x1008 [] program with bp := [(0x1008, true)] })
    (fun t => t.port.out == [.response .disassemble (.ok (.text "add a0, a0, a1"))]) = true := by decide
/-- A fetch whose last byte is watched takes WATCHER's word, `addi a0, zero, 5`, not the bytes in memory, and its halt
request (R62, R63, U5); the record is not kept (log 11). -/
theorem test_watched_fetch : onNext (step { going (start 0x1000 [] []) with
        params := { Params.default with watch := [0x1003] }
        env := { Env.default with watcher := [⟨[0x13, 0x05, 0x50, 0x00], [(0x1003, 9)], true⟩] } })
    (fun t => t.readX 10 == 5 && t.regs.pc == 0x1004 && t.run.haltReason == .semihostRequest && t.run.haltReq
      && t.mem == [(0x1003, 9)] && t.cache.entries == [] && t.cache.iwbuf == 0x00500513) = true := by decide
/-- `disassemble` at a watched armed address shows WATCHER's word; while Halted the halt request has no effect (R199). -/
theorem test_watched_disassemble : onNext (runCommand (.disassemble 0x1000) { start 0x1000 [] [] with
        bp := [(0x1000, true)]
        params := { Params.default with watch := [0x1000] }
        env := { Env.default with watcher := [⟨[0x73, 0x00, 0x10, 0x00], [], true⟩] } })
    (fun t => t.port.out == [.response .disassemble (.ok (.text "ebreak"))] && t.run == RunControl.reset) = true := by
  decide
/-- T130. -/
theorem test_step_zero_invalid : onNext (runCommand (.step (-1)) State.reset)
    (fun t => t.port.out == [.response .step (.err .invalidArgument)] && t.run == State.reset.run) = true := by decide
/-- From reset a host can run: the turn of the command `run` (R45, R201). -/
theorem test_reset_then_run : onNext (step { State.reset with port := { State.reset.port with schedule := [.host .run] } })
    (fun t => t.run.runState == .running && t.port.out == [.response .run (.ok .unit)]) = true := by decide

/-! ## Witnesses

For each statement with hypotheses, a concrete state and operands that meet them together. -/

/-- The invariant of a state whose cache is empty, from facts that `decide` settles. -/
theorem inv_of_empty_cache {s : State} (hm : s.mem.wf) (hs : Sparse.sorted s.bp) (hb : ∀ p ∈ s.bp, p.1 < 4294967296)
    (hr : s.RegsOk) (hl : s.load = none) (ho : s.RunOk) (hc : s.cache.entries = [])
    (h1 : 1 ≤ s.params.cacheCap) : s.Inv :=
  ⟨hm, ⟨hs, hb⟩, hr, hl, ho,
    ⟨h1, by simp [hc], by simp [hc], by intro e he; rw [hc] at he; cases he⟩⟩

/-- Running at 0x1008 over V1's program. -/
def running : State := going (start 0x1008 [(10, 5), (11, 7)] program)

theorem running_inv : running.Inv :=
  inv_of_empty_cache (by decide) (by decide) (by decide) ⟨by decide, by decide, by decide⟩ rfl
    ⟨by decide, by decide, by decide⟩ rfl (by decide)

/-- In `SingleStepping` with a budget of one, at an illegal word. -/
def stepping : State :=
  { start 0x2000 [] scratch with run := { RunControl.reset with runState := .singleStepping, stepLeft := 1 } }

theorem stepping_inv : stepping.Inv :=
  inv_of_empty_cache (by decide) (by decide) (by decide) ⟨by decide, by decide, by decide⟩ rfl
    ⟨by decide, by decide, by decide⟩ rfl (by decide)

/-- Resuming at a breakpoint at 0x1008 (V7). -/
def resuming : State :=
  { start 0x1008 [(10, 5), (11, 7)] program with
    bp := [(0x1008, true)], run := { RunControl.reset with runState := .singleStepping, stepLeft := 1, resumeBp := true } }

theorem resuming_inv : resuming.Inv :=
  inv_of_empty_cache (by decide) (by decide) (by decide) ⟨by decide, by decide, by decide⟩ rfl
    ⟨by decide, by decide, by decide⟩ rfl (by decide)

/-- Running at an armed address (V7). -/
def armedState : State := { running with bp := [(0x1008, true)] }

theorem armedState_inv : armedState.Inv :=
  inv_of_empty_cache (by decide) (by decide) (by decide) ⟨by decide, by decide, by decide⟩ rfl
    ⟨by decide, by decide, by decide⟩ rfl (by decide)

/-- Halted, with a record at 0x1008, one at the top address, disabled, and a cache entry for the word at 0x100C. -/
def halted : State :=
  { start 0x1008 [] program with
    bp := [(0x1008, true), (0xFFFFFFFF, false)]
    cache := { entries := [⟨0x100C, recordOf 0x100C .ebreak, 0⟩], clock := 1, iwbuf := 0 } }

theorem halted_cache : halted.CacheOk where
  capPositive := by decide
  bounded := by decide
  keysDistinct := by decide
  valid e he := by
    have : e = ⟨0x100C, recordOf 0x100C .ebreak, 0⟩ := by simpa [halted] using he
    subst this; rfl

theorem halted_inv : halted.Inv :=
  ⟨by decide, ⟨by decide, by decide⟩, ⟨by decide, by decide, by decide⟩, rfl, ⟨by decide, by decide, by decide⟩,
    halted_cache⟩

/-- Bytes 0 to 3 and 0xFFFFFFFF watched, WATCHER with one reply at hand, which writes the last byte and halts. -/
def watched : State :=
  { start 0 [(11, 0xFFFFFFFE)] [] with
    params := { Params.default with watch := [0, 1, 2, 3, 0xFFFFFFFF] }
    env := { Env.default with watcher := [⟨[1, 2, 3, 4], [(1, 9)], true⟩] } }

/-- `watched` with its pc at an address whose fetch touches the watched byte 0xFFFFFFFF only, and the reply a word that
decodes, `add a0, a0, a1`. -/
def watchedFetch : State :=
  { going (start 0xFFFFFFFC [] []) with
    params := { Params.default with watch := [0, 1, 2, 3, 0xFFFFFFFF] }
    env := { Env.default with watcher := [⟨[0x33, 0x05, 0xB5, 0x00], [(0xFFFFFFFC, 9)], true⟩] } }

theorem watchedFetch_inv : watchedFetch.Inv :=
  inv_of_empty_cache (by decide) (by decide) (by decide) ⟨by decide, by decide, by decide⟩ rfl
    ⟨by decide, by decide, by decide⟩ rfl (by decide)

/-- `watched` meets the invariant, Halted as it is. -/
theorem watched_inv : watched.Inv :=
  inv_of_empty_cache (by decide) (by decide) (by decide) ⟨by decide, by decide, by decide⟩ rfl
    ⟨by decide, by decide, by decide⟩ rfl (by decide)

/-- Three handlers: one declines, one claims at 0x1000 only, one asks for a halt. -/
def handlers : List BpHandler :=
  [⟨.decline, []⟩, ⟨.decline, [(0x1000, .claim)]⟩, ⟨.claimAndHalt, []⟩]

def handled (pc : Word) : State := { start pc [] [] with env := { Env.default with bpHandlers := handlers } }

theorem witness_DecodeOfEncode : wellFormed (.jal 31 0x100000) = true ∧ wellFormed (.sw 0 31 0x800) = true := by decide
theorem witness_EncodeOfDecode : decode 0x800000EF = .ok (.jal 1 0x100000) := by decide
theorem witness_OpcodeRowsDisjoint : rowAdd ∈ opcodeTable ∧ rowAdd.accepts 0x01FF8FB3 = true := by decide
theorem witness_IllegalExactlyWithoutRow : (∀ r ∈ opcodeTable, r.accepts 0x00008067 = false) ∧
    rowEbreak ∈ opcodeTable ∧ rowEbreak.accepts 0x00100073 = true := by decide
/-- The least and the greatest immediates (T6, T11, T16, T19, T20). -/
theorem witness_ImmediatesSignExtended :
    ((dec6 0 0x80000513).op = .addi ∧ (dec6 0 0x80000513).handles.src1 = some (.imm 0xFFFFF800)) ∧
    ((dec6 0 0x7FF5A603).op = .lw ∧ (dec6 0 0x7FF5A603).handles.src1 = some (.imm 0x7FF)) ∧
    ((dec6 0 0x80A5A023).op = .sw ∧ (dec6 0 0x80A5A023).handles.src1 = some (.imm 0xFFFFF800)) ∧
    ((dec6 0 0x7FFFF0EF).op = .jal ∧ (dec6 0 0x7FFFF0EF).handles.src0 = some (.imm 0xFFFFE)) ∧
    ((dec6 0 0x800000EF).op = .jal ∧ (dec6 0 0x800000EF).handles.src0 = some (.imm 0xFFF00000)) := by decide
theorem witness_DecoderContract :
    (Params.default.dec 0xFFFFFFFC 0x0005A003).child.isSome = true ∧
    (({ Params.default with decoder := [((0, 0), ⟨.lw, Handles.none, Handles.none⟩)] } : Params).dec 0 0).child.isSome
      = true := by decide
theorem witness_LwLoadsWord :
    (start 0 [(11, 0xFFFFFFFE)] []).touchesWatch ((start 0 [(11, 0xFFFFFFFE)] []).readX 11 + sext12 0) 4 = false := by
  decide
theorem witness_LwTakesWatcherReply : watched.touchesWatch (watched.readX 11 + sext12 0) 4 = true ∧
    watched.env.watcher = [⟨[1, 2, 3, 4], [(1, 9)], true⟩] ∧ ([1, 2, 3, 4] : List Byte).length = 4 ∧
    (⟨[1, 2, 3, 4], [(1, 9)], true⟩ : WatchReply).writesInside (watched.readX 11 + sext12 0) 4 = true := by decide
theorem witness_SwStoresWord : (start 0 [(11, 0xFFFFFFFE)] []).touchesWatch
    ((start 0 [(11, 0xFFFFFFFE)] []).effectiveAddress (srcOf 11) (.imm (sext12 0x800))) 4 = false := by decide
theorem witness_SwTakesWatcherReply :
    watched.touchesWatch (watched.effectiveAddress (srcOf 11) (.imm (sext12 0))) 4 = true ∧
    watched.env.watcher = [⟨[1, 2, 3, 4], [(1, 9)], true⟩] ∧ (⟨[1, 2, 3, 4], [(1, 9)], true⟩ : WatchReply).writesInside
      (watched.effectiveAddress (srcOf 11) (.imm (sext12 0))) 4 = true := by decide
/-- The first and the last address whose access touches the watched bytes 0 to 3, and a fetch that does. -/
theorem witness_WatchedAccessRefused : ({ watched with env := Env.default } : State).env.watcher = [] ∧
    watched.touchesWatch (watched.readX 11 + sext12 0) 4 = true ∧
    watched.touchesWatch (watched.readX 0 + sext12 3) 4 = true ∧
    watched.touchesWatch (watched.readX 0 + sext12 4) 4 = false ∧
    ({ watched with env := Env.default } : State).CacheOk ∧ watched.armed watched.regs.pc = false ∧
    watched.touchesWatch watched.regs.pc 4 = true :=
  ⟨by decide, by decide, by decide, by decide, ⟨by decide, by decide, by decide, by intro e he; cases he⟩, by decide,
    by decide⟩
theorem witness_EbreakRequestsHalt : ∀ h ∈ [(⟨.decline, []⟩ : BpHandler), ⟨.claim, [(0x1000, .decline)]⟩],
    h.answer 0x1000 = .decline := by decide
/-- At 0x1000 the second handler claims; elsewhere the third asks for a halt. -/
theorem witness_ClaimedEbreakFallsThrough :
    ((handled 0x1000).env.bpHandlers = [⟨.decline, []⟩] ++ ⟨.decline, [(0x1000, .claim)]⟩ :: [⟨.claimAndHalt, []⟩] ∧
      (⟨.decline, []⟩ : BpHandler).answer (handled 0x1000).regs.pc = .decline ∧
      (⟨.decline, [(0x1000, .claim)]⟩ : BpHandler).answer (handled 0x1000).regs.pc = .claim) ∧
    (handled 0x1004).env.bpHandlers = [⟨.decline, []⟩, ⟨.decline, [(0x1000, .claim)]⟩] ++ ⟨.claimAndHalt, []⟩ :: [] ∧
    (⟨.decline, [(0x1000, .claim)]⟩ : BpHandler).answer (handled 0x1004).regs.pc = .decline ∧
    (⟨.claimAndHalt, []⟩ : BpHandler).answer (handled 0x1004).regs.pc = .claimAndHalt := by decide
theorem witness_LoadAfterStore : (start 0 [(11, 0xFFFFFFFE)] []).touchesWatch
    ((start 0 [(11, 0xFFFFFFFE)] []).readX 11 + sext12 0) 4 = false := by decide
theorem witness_SubmitCommitsOnce : (1 : Reg) ≠ 0 ∧ (31 : Reg) ≠ 0 := by decide
/-- A state whose log holds an `Internal` fault of before. -/
theorem witness_DefaultRecordsNeverInternal : onNext
    (execute (dec6 0x1008 0x00B50533) { running with faultLog := [(.internal, 4)] })
    (fun t => t.faultLog.contains (.internal, 4)) = true := by decide
/-- One record for each opcode, with the last handle of its row missing. -/
theorem witness_MissingHandleRaisesInternal :
    (({ op := .add, addr := 4, size := 4, handles := { Handles.none with src0 := some .zero, src1 := some .zero },
        child := none } : Record).handles.dst0 = none) ∧
    (({ recordOf 4 (.jal 1 8) with handles := { handlesOf (.jal 1 8) with dst1 := none } } : Record).handles.dst1 = none) ∧
    (({ recordOf 4 (.lw 1 2 8) with child := none } : Record).child = none) ∧
    (({ recordOf 4 (.lw 1 2 8) with child := some ⟨.lwChild, 4, 4, Handles.none⟩ } : Record).child
      = some ⟨.lwChild, 4, 4, Handles.none⟩ ∧ Handles.none.dst0 = none) ∧
    (({ recordOf 4 (.sw 1 2 8) with handles := { handlesOf (.sw 1 2 8) with src2 := none } } : Record).handles.src2
      = none) ∧
    (({ recordOf 4 .ebreak with handles := Handles.none } : Record).handles.dst0 = none) := by decide
/-- A hit, a trap, a fill of WATCHER's word, one refused for want of a reply, one that a reply too short stops. -/
theorem witness_GetIsFreshDecode : halted.CacheOk ∧
    (∃ u, halted.produce 0x100C = .next (recordOf 0x100C .ebreak, u)) ∧
    (∃ u, halted.produce 0x1008 = .next (trapRecord 0x1008, u)) ∧ watched.CacheOk ∧
    (∃ u, watched.produce 1 = .next (illegalRecord 1, u)) ∧
    ({ watched with env := Env.default } : State).produce 0 = .refused (.watchedAccess 0) ∧
    ({ watched with env := { Env.default with watcher := [⟨[1], [], false⟩] } } : State).produce 0
      = .fault (.watcherContract 0) ∧
    halted.armed 0x1008 = true ∧ halted.touchesWatch 0x100C 4 = false :=
  ⟨halted_cache, ⟨_, rfl⟩, ⟨_, rfl⟩, watched_inv.cache, ⟨_, rfl⟩, rfl, rfl, by decide, by decide⟩
theorem witness_StoreSeenByFetch : halted.CacheOk ∧ onNext (exec (.sw 0 1 0) halted)
    (fun t => !t.armed 0x100C && !t.touchesWatch 0x100C 4) = true := ⟨halted_cache, by decide⟩
/-- A fetch that touches the last watched byte. -/
theorem witness_StepRunsDecodedInstruction_watched : watchedFetch.Inv ∧ watchedFetch.port.schedule = [] ∧
    watchedFetch.run.runState ≠ .halted ∧ watchedFetch.run.resumeBp = false ∧ watchedFetch.stopCondition = false ∧
    watchedFetch.armed watchedFetch.regs.pc = false ∧ watchedFetch.touchesWatch watchedFetch.regs.pc 4 = true ∧
    watchedFetch.env.watcher = [⟨[0x33, 0x05, 0xB5, 0x00], [(0xFFFFFFFC, 9)], true⟩] ∧
    ([0x33, 0x05, 0xB5, 0x00] : List Byte).length = 4 ∧
    (⟨[0x33, 0x05, 0xB5, 0x00], [(0xFFFFFFFC, 9)], true⟩ : WatchReply).writesInside watchedFetch.regs.pc 4 = true ∧
    watchedFetch.params.decoder.lookup (watchedFetch.regs.pc, le32 [0x33, 0x05, 0xB5, 0x00]) = none ∧
    decode (le32 [0x33, 0x05, 0xB5, 0x00]) = .ok (.add 10 10 11) :=
  ⟨watchedFetch_inv, by decide, by decide, by decide, by decide, by decide, by decide, by decide, by decide, by decide,
    by decide, by decide⟩
theorem witness_StepRunsDecodedInstruction : running.Inv ∧ running.port.schedule = [] ∧
    running.run.runState ≠ .halted ∧ running.run.resumeBp = false ∧ running.stopCondition = false ∧
    running.armed running.regs.pc = false ∧ running.touchesWatch running.regs.pc 4 = false ∧
    running.params.decoder.lookup (running.regs.pc, running.fetchWord running.regs.pc) = none ∧
    decode (running.fetchWord running.regs.pc) = .ok (.add 10 10 11) :=
  ⟨running_inv, by decide, by decide, by decide, by decide, by decide, by decide, by decide, by decide⟩
/-- In `SingleStepping` and not, with the pc written and not. -/
theorem witness_FinishCountsAndAdvances : stepping.run.runState = .singleStepping ∧
    running.run.runState ≠ .singleStepping ∧ running.run.pcWritten = false ∧
    (running.setPcWritten true).run.pcWritten = true := by decide
theorem witness_IllegalStepLogsAndGoesOn : stepping.Inv ∧ stepping.port.schedule = [] ∧
    stepping.run.runState ≠ .halted ∧ stepping.run.resumeBp = false ∧ stepping.stopCondition = false ∧
    stepping.armed stepping.regs.pc = false ∧
    stepping.memRead stepping.regs.pc 4 = .next ([0x44, 0x33, 0x22, 0x11], stepping) ∧
    stepping.touchesWatch stepping.regs.pc 4 = false ∧
    stepping.params.decoder.lookup (stepping.regs.pc, le32 [0x44, 0x33, 0x22, 0x11]) = none ∧
    decode (le32 [0x44, 0x33, 0x22, 0x11]) = .error (.unrecognised 0x11223344) :=
  ⟨stepping_inv, by decide, by decide, by decide, by decide, by decide, rfl, by decide, by decide, by decide⟩
theorem witness_ArmedAddressTraps : armedState.Inv ∧ armedState.port.schedule = [] ∧
    armedState.run.runState ≠ .halted ∧ armedState.run.resumeBp = false ∧ armedState.stopCondition = false ∧
    armedState.armed armedState.regs.pc = true ∧
    ∀ h ∈ armedState.env.bpHandlers, h.answer armedState.regs.pc = .decline :=
  ⟨armedState_inv, by decide, by decide, by decide, by decide, by decide, by decide⟩
/-- A step whose budget is used up, and a background run with a halt requested. -/
theorem witness_HaltTransitionAnswers :
    (({ stepping with run := { stepping.run with stepLeft := 0 } } : State).stopCondition = true ∧
      stepping.port.schedule = [] ∧ stepping.run.runState ≠ .halted ∧ stepping.run.resumeBp = false) ∧
    (running.requestHalt .userRequest).stopCondition = true ∧ running.port.schedule = [] ∧
    running.run.runState ≠ .halted ∧ running.run.resumeBp = false := by decide
theorem witness_OnlyHaltTransitionHalts :
    onNext (step (running.requestHalt .userRequest)) (fun t => t.run.runState == .halted) = true ∧
    running.run.runState ≠ .halted ∧ (running.requestHalt .userRequest).run.runState = .running := by decide
theorem witness_OnlyEngineCounts : onNext (runTurn (.host .getRunStatus) running) (fun _ => true) = true ∧
    onNext (runTurn .engine halted) (fun _ => true) = true ∧ halted.run.runState = .halted := by decide
theorem witness_ResumeExecutesOriginalOnce : resuming.Inv ∧ resuming.port.schedule = [] ∧
    resuming.run.runState ≠ .halted ∧ resuming.run.resumeBp = true ∧ resuming.armed resuming.regs.pc = true ∧
    resuming.memRead resuming.regs.pc 4 = .next ([0x33, 0x05, 0xB5, 0x00], resuming) ∧
    resuming.touchesWatch resuming.regs.pc 4 = false ∧
    resuming.params.decoder.lookup (resuming.regs.pc, le32 [0x33, 0x05, 0xB5, 0x00]) = none ∧
    decode (le32 [0x33, 0x05, 0xB5, 0x00]) = .ok (.add 10 10 11) ∧
    onNext (exec (.add 10 10 11) resuming) (fun _ => true) = true :=
  ⟨resuming_inv, by decide, by decide, by decide, by decide, rfl, by decide, by decide, by decide, by decide⟩

/-- Resuming on V1's own `ebreak`, at 0x100C. -/
def onEbreak : State := { resuming with regs := { resuming.regs with pc := 0x100C } }

theorem witness_ProgramEbreakStays : onEbreak.Inv ∧ onEbreak.port.schedule = [] ∧ onEbreak.run.runState ≠ .halted ∧
    onEbreak.run.resumeBp = true ∧ onEbreak.bpAt onEbreak.regs.pc = none ∧
    onEbreak.memRead onEbreak.regs.pc 4 = .next ([0x73, 0x00, 0x10, 0x00], onEbreak) ∧
    onEbreak.params.decoder.lookup (onEbreak.regs.pc, le32 [0x73, 0x00, 0x10, 0x00]) = none ∧
    (∀ h ∈ onEbreak.env.bpHandlers, h.answer onEbreak.regs.pc = .decline) ∧
    decode (le32 [0x73, 0x00, 0x10, 0x00]) = .ok .ebreak :=
  ⟨inv_of_empty_cache (by decide) (by decide) (by decide) ⟨by decide, by decide, by decide⟩ rfl
    ⟨by decide, by decide, by decide⟩ rfl (by decide), by decide, by decide, by decide, by decide, rfl, by decide,
    by decide, by decide⟩
/-- The counts where the clauses meet: 0 and the most negative are invalid, 1 and STEP_MAX are not (R200). -/
theorem witness_StepCommand : running.run.runState ≠ .halted ∧ halted.run.runState = .halted ∧
    (0 : BitVec 32).toInt ≤ 0 ∧ (0x80000000 : BitVec 32).toInt ≤ 0 ∧ 0 < (1 : BitVec 32).toInt ∧
    0 < (0x7FFFFFFF : BitVec 32).toInt := by decide
theorem witness_RunStartsAtOnce : running.run.runState ≠ .halted ∧ halted.run.runState = .halted := by decide
theorem witness_HaltAndWaitCommands : running.run.runState ≠ .halted ∧ halted.run.runState = .halted := by decide
theorem witness_PreconditionTable : running.run.runState ≠ .halted ∧ stepping.run.runState ≠ .halted := by decide
/-- An error, an answer, and an accepted `step` with none. -/
theorem witness_ErrorsChangeNothing :
    onNext (runCommand .run running) (fun t => t.port.out == [.response .run (.err .precondition)]) = true ∧
    onNext (runCommand .run halted) (fun t => t.port.out == [.response .run (.ok .unit)]) = true ∧
    onNext (runCommand (.step 1) halted) (fun t => t.port.out == []) = true := by decide
theorem witness_ReadRegister : halted.run.runState = .halted ∧ cellOf "x32" = none ∧ cellOf "zero" = some (.x 0) ∧
    cellOf "x31" = some (.x 31) ∧ cellOf "pc" = some .pc := by decide
theorem witness_WriteGeneralRegister : halted.run.runState = .halted ∧ cellOf "x0" = some (.x 0) ∧
    cellOf "t6" = some (.x 31) := by decide
theorem witness_WritePcClearsBreakpointReason : halted.run.runState = .halted := by decide
theorem witness_WriteThenReadMemory : halted.run.runState = .halted ∧ ([] : List Byte).length ≤ 4294967296 ∧
    ([0xAA, 0xBB] : List Byte).length ≤ 0 + 4294967296 := by decide
theorem witness_SetBreakpoint : halted.run.runState = .halted := by decide
/-- No record, a record, and one at the top address. -/
theorem witness_ClearBreakpoint : halted.run.runState = .halted ∧ halted.bpAt 0x100C = none ∧
    halted.bpAt 0x1008 = some true ∧ halted.bpAt 0xFFFFFFFF = some false := by decide
theorem witness_ClearAllBreakpoints : halted.run.runState = .halted ∧ halted.BpOk := ⟨rfl, halted_inv.breakpoints⟩
theorem witness_EnableDisable : running.run.runState ≠ .halted ∧ halted.run.runState = .halted ∧
    halted.bpAt 0x1000 = none ∧ halted.bpAt 0xFFFFFFFF = some false := by decide
/-- An armed address, an address whose record is disabled, and one without a record. -/
theorem witness_GetInstructionShowsServedRecord : halted.Inv ∧ halted.run.runState = .halted ∧
    halted.armed 0x1008 = true ∧ halted.armed 0xFFFFFFFF = false ∧ halted.touchesWatch 0xFFFFFFFF 4 = false ∧
    halted.armed 0x100C = false ∧ halted.touchesWatch 0x100C 4 = false :=
  ⟨halted_inv, by decide, by decide, by decide, by decide, by decide, by decide⟩
/-- For the clauses on watched bytes of GetInstructionShowsServedRecord and of DisassembleTransparent: the first and the
last address whose fetch takes in byte 1, to which the reply writes. -/
theorem witness_GetInstructionShowsServedRecord_watched : watched.Inv ∧ watched.run.runState = .halted ∧
    watched.env.watcher = [⟨[1, 2, 3, 4], [(1, 9)], true⟩] ∧ ([1, 2, 3, 4] : List Byte).length = 4 ∧
    (watched.armed 0xFFFFFFFE = false ∧ watched.touchesWatch 0xFFFFFFFE 4 = true ∧
      (⟨[1, 2, 3, 4], [(1, 9)], true⟩ : WatchReply).writesInside 0xFFFFFFFE 4 = true) ∧
    (watched.armed 1 = false ∧ watched.touchesWatch 1 4 = true ∧
      (⟨[1, 2, 3, 4], [(1, 9)], true⟩ : WatchReply).writesInside 1 4 = true) :=
  ⟨watched_inv, by decide, by decide, by decide, by decide, by decide⟩
theorem witness_DisassembleTransparent : halted.Inv ∧ halted.run.runState = .halted ∧
    halted.touchesWatch 0x1008 4 = false ∧ halted.touchesWatch 0x100C 4 = false :=
  ⟨halted_inv, by decide, by decide, by decide⟩
/-- A name past the table. -/
theorem witness_RegisterNames : "A0" ≠ "pc" ∧ ∀ p ∈ archNames ++ altNames, p.1 ≠ "A0" := by decide
/-- A list in which all decline; one in which the first that does not is the second. -/
theorem witness_FirstResponderWins : (∀ h ∈ [(⟨.decline, []⟩ : BpHandler)], h.answer 0x1000 = .decline) ∧
    (handled 0x1000).env.bpHandlers = [⟨.decline, []⟩] ++ ⟨.decline, [(0x1000, .claim)]⟩ :: [⟨.claimAndHalt, []⟩] ∧
    (⟨.decline, [(0x1000, .claim)]⟩ : BpHandler).answer 0x1000 ≠ .decline := by decide
theorem witness_FaultLogAppendOnly : onNext (step stepping) (fun t => t.faultLog.length == 1) = true := by decide
theorem witness_InvariantAtReset : Memory.wf program ∧ 1 ≤ Params.default.cacheCap := by decide
theorem reset_inv : State.reset.Inv :=
  inv_of_empty_cache (by decide) (by decide) (by decide) ⟨by decide, by decide, by decide⟩ rfl
    ⟨by decide, by decide, by decide⟩ rfl (by decide)
theorem witness_StepKeepsInvariant : running.Inv ∧ onNext (step running) (fun t => t.readX 10 == 12) = true :=
  ⟨running_inv, by decide⟩
/-- Two states that differ in the cache and its capacity (T124). -/
theorem witness_CacheUnobservable :
    halted.Inv ∧ ({ halted with cache := ⟨[], 9, 7⟩, params := { halted.params with cacheCap := 1 } } : State).Inv ∧
    halted.SameButCache { halted with cache := ⟨[], 9, 7⟩, params := { halted.params with cacheCap := 1 } } :=
  ⟨halted_inv, inv_of_empty_cache (by decide) (by decide) (by decide) ⟨by decide, by decide, by decide⟩ rfl
    ⟨by decide, by decide, by decide⟩ rfl (by decide), _, _, rfl⟩
theorem witness_EngineKeepsBreakpoints : resuming.BpOk ∧
    onNext (engineStep resuming) (fun t => t.bp == [(0x1008, true)]) = true := ⟨resuming_inv.breakpoints, by decide⟩
theorem witness_RecordsStayEnabled : resuming.BpOk ∧ resuming.AllEnabled ∧
    (∀ a, resuming.port.schedule.head? ≠ some (.manager (.disable a))) ∧
    onNext (step resuming) (fun _ => true) = true :=
  ⟨resuming_inv.breakpoints, by simp [State.AllEnabled, resuming], fun _ h => (by cases h), by decide⟩

end Sys2Proof.Tests
end

/-! What a host command puts on the port (R12, R267): one response, which when it is an error is all that
changes; or, for a `step` and a `wait` that wait for the halt transition, nothing yet. -/

namespace Sys2Proof.Machine

/-! ## What the commands' own updates leave of the port -/

@[simp] theorem State.writeCell_port (s : State) (c : Cell) (v : Word) : (s.writeCell c v).port = s.port := by
  cases c with
  | x i => exact State.writeX_port s i v
  | pc => unfold State.writeCell; dsimp only; split <;> rfl

@[simp] theorem State.clearRecords_port (s : State) (l : BpTable) : (s.clearRecords l).port = s.port := by
  induction l generalizing s with
  | nil => rfl
  | cons p l ih => exact ih _

theorem State.decodeAt_port {s t : State} {a : Addr} {r : Record} (h : s.decodeAt a = .next (r, t)) :
    t.port = s.port := by
  obtain ⟨b, u, hu, -, rfl⟩ := State.decodeAt_next h
  exact (State.memRead_kept hu).1.control.port

theorem State.dcGet_port {s t : State} {a : Addr} {r : Record} (h : s.dcGet a = .next (r, t)) : t.port = s.port :=
  (State.dcGet_kept h).1.control.port

theorem State.realInstruction_port {s t : State} {a : Addr} {r : Record}
    (h : s.realInstruction a = .next (r, t)) : t.port = s.port := by
  unfold State.realInstruction at h
  split at h
  · exact State.decodeAt_port h
  · exact State.dcGet_port h

/-! ## One response -/

/-- From `s` to `t` exactly one response went out, and nothing else changed if it is an error (R12). -/
def Answers (s t : State) : Prop :=
  ∃ q r, t.port.out = s.port.out ++ [.response q r] ∧ ∀ k, r = .err k → t = s.emit (.response q (.err k))

theorem Answers.ok {s u : State} (h : u.port = s.port) (q : Asked) (v : Value) : Answers s (u.ok q v) :=
  ⟨q, .ok v, by simp [State.ok, h], fun _ he => nomatch he⟩

theorem Answers.err (s : State) (q : Asked) (k : ErrKind) : Answers s (s.err q k) :=
  ⟨q, .err k, rfl, fun _ he => by cases he; rfl⟩

theorem Answers.whenHalted {s : State} {q : Asked} {f : State → State} (h : Answers s (f s)) :
    Answers s (s.whenHalted q f) := by
  unfold State.whenHalted
  split
  · exact h
  · exact .err s q .precondition

/-! ## The commands, one by one where they branch -/

theorem cmdHalt_answers (s : State) : Answers s (cmdHalt s) := by
  unfold cmdHalt
  split
  · exact .err s _ _
  · exact .ok (by simp) _ _

theorem cmdReadRegister_answers (name : String) (s : State) : Answers s (cmdReadRegister name s) := by
  refine .whenHalted ?_
  split
  · exact .err s _ _
  · exact .ok rfl _ _

theorem cmdWriteRegister_answers (name : String) (v : Word) (s : State) : Answers s (cmdWriteRegister name v s) := by
  refine .whenHalted ?_
  split
  · exact .err s _ _
  · exact .ok (by simp) _ _

theorem cmdSetBreakpoint_answers (a : Addr) (s : State) : Answers s (cmdSetBreakpoint a s) :=
  .whenHalted (.ok (by split <;> rfl) _ _)

theorem cmdClearBreakpoint_answers (a : Addr) (s : State) : Answers s (cmdClearBreakpoint a s) := by
  refine .whenHalted ?_
  split
  · exact .err s _ _
  · exact .ok (by simp) _ _

theorem cmdGetInstruction_answers {a : Addr} {s t : State} (h : cmdGetInstruction a s = .next t) : Answers s t := by
  unfold cmdGetInstruction at h
  split at h
  · obtain ⟨r, u, hu, h⟩ := ResultOf.andThen_next h
    cases h
    exact .ok (State.dcGet_port hu) _ _
  · cases h
    exact .err s _ _

theorem cmdDisassemble_answers {a : Addr} {s t : State} (h : cmdDisassemble a s = .next t) : Answers s t := by
  unfold cmdDisassemble at h
  split at h
  · obtain ⟨r, u, hu, h⟩ := ResultOf.andThen_next h
    cases h
    exact .ok (State.realInstruction_port hu) _ _
  · cases h
    exact .err s _ _

/-! ## The two commands answered later (R200, R205) -/

/-- From `s` to `t` a command was accepted whose response the halt transition gives. -/
def AnsweredLater (s t : State) : Prop := t.port.out = s.port.out ∧ t.run.runState ≠ .halted

theorem cmdStep_answers (n : BitVec 32) (s : State) : Answers s (cmdStep n s) ∨ AnsweredLater s (cmdStep n s) := by
  unfold cmdStep State.whenHalted
  split
  · dsimp only
    split
    · exact .inl (.err s _ _)
    · exact .inr ⟨rfl, by simp⟩
  · exact .inl (.err s _ _)

theorem cmdWait_answers (s : State) : Answers s (cmdWait s) ∨ AnsweredLater s (cmdWait s) := by
  unfold cmdWait
  split
  · exact .inl (.ok rfl _ _)
  · next h => exact .inr ⟨rfl, h⟩

/-- What a command does on the port: one response now, or an accepted `step` or `wait`. -/
theorem runCommand_answers {c : Command} {s t : State} (h : runCommand c s = .next t) :
    Answers s t ∨ AnsweredLater s t ∧ ((∃ n, c = .step n) ∨ c = .wait) := by
  cases c with
  | halt => cases h; exact .inl (cmdHalt_answers s)
  | step n => cases h; exact (cmdStep_answers n s).imp_right fun k => ⟨k, .inl ⟨n, rfl⟩⟩
  | run => cases h; exact .inl (.whenHalted (.ok (by simp) _ _))
  | wait => cases h; exact (cmdWait_answers s).imp_right fun k => ⟨k, .inr rfl⟩
  | getRunStatus => cases h; exact .inl (.ok rfl _ _)
  | getLastHaltReason => cases h; exact .inl (.whenHalted (.ok rfl _ _))
  | readRegister name => cases h; exact .inl (cmdReadRegister_answers name s)
  | writeRegister name v => cases h; exact .inl (cmdWriteRegister_answers name v s)
  | readMemory a n => cases h; exact .inl (.whenHalted (.ok rfl _ _))
  | writeMemory a b => cases h; exact .inl (.whenHalted (.ok (by simp) _ _))
  | setBreakpoint a => cases h; exact .inl (cmdSetBreakpoint_answers a s)
  | clearBreakpoint a => cases h; exact .inl (cmdClearBreakpoint_answers a s)
  | clearAllBreakpoints => cases h; exact .inl (.whenHalted (.ok (State.clearRecords_port s s.bp) _ _))
  | hasBreakpoint a => cases h; exact .inl (.whenHalted (.ok rfl _ _))
  | getInstruction a => exact .inl (cmdGetInstruction_answers h)
  | disassemble a => exact .inl (cmdDisassemble_answers h)

/-- Settles O39: every command answers once and an error is all it does, or it is answered later. -/
theorem errorsChangeNothing : Obligations.ErrorsChangeNothing := by
  unfold Obligations.ErrorsChangeNothing
  intro s t c h
  obtain answered | ⟨⟨hout, hrun⟩, hc⟩ := runCommand_answers h
  · exact .inl answered
  · exact .inr ⟨hout, hrun, hc⟩

end Sys2Proof.Machine

/-! The invariant of the engine over a step of any agent (R9): what keeps each of its parts, then what a host
command, an operation of the breakpoint manager and an iteration of the loop keep, and from these the claims about
reset, the fault log and the invariant itself. -/

namespace Sys2Proof.Machine

/-! ## The parts of the invariant -/

/-- Run control is consistent whenever its state and the number of pending waits are those of a state where it
is. -/
theorem State.RunOk.of_same {s t : State} (h : s.RunOk) (hr : t.run = s.run)
    (hw : t.port.waiting = s.port.waiting) : t.RunOk where
  haltedIdle := by rw [hr, hw]; exact h.haltedIdle
  budget := by rw [hr]; exact h.budget
  reason := by rw [hr]; exact h.reason

theorem State.BpOk.of_bp {s t : State} (h : s.BpOk) (e : t.bp = s.bp) : t.BpOk :=
  ⟨e ▸ h.sorted, e ▸ h.addresses⟩

theorem State.BpOk.insert {s t : State} (h : s.BpOk) {a : Addr} {b : Bool}
    (e : t.bp = Sparse.insert a.toNat b s.bp) : t.BpOk where
  sorted := e ▸ Sparse.sorted_insert h.sorted _ _
  addresses p hp := by
    rw [e] at hp
    rcases Sparse.mem_insert hp with rfl | hp
    · exact a.isLt
    · exact h.addresses p hp

theorem State.BpOk.erase {s t : State} (h : s.BpOk) {k : Nat} (e : t.bp = Sparse.erase k s.bp) : t.BpOk where
  sorted := e ▸ Sparse.sorted_erase h.sorted _
  addresses p hp := h.addresses p (Sparse.mem_erase (e ▸ hp)).1

theorem State.RegsOk.writeX {s : State} (h : s.RegsOk) (i : Reg) (v : Word) : (s.writeX i v).RegsOk where
  zero := by
    unfold State.writeX
    split
    · exact h.zero
    · next h0 =>
      have hne : i.toNat ≠ 0 := fun e => h0 (BitVec.eq_of_toNat_eq e)
      rw [Vector.getElem_set_ne _ _ hne]; exact h.zero
  pendX := (State.writeX_pendX s i v).trans h.pendX
  pendPc := (State.writeX_pendPc s i v).trans h.pendPc

/-- An update of run control, the port, the counters, the log or the environment keeps the invariant as far as it
keeps run control consistent. -/
theorem State.Inv.of_same {s t : State} (h : s.Inv) (hr : t.RunOk) (hregs : t.regs = s.regs)
    (hc : t.cache.entries = s.cache.entries) (hbp : t.bp = s.bp) (hl : t.load = s.load) (hm : t.mem = s.mem)
    (hp : t.params = s.params) : t.Inv where
  memory := hm ▸ h.memory
  breakpoints := h.breakpoints.of_bp hbp
  registers := h.registers.of_regs hregs
  loadDone := hl.trans h.loadDone
  runControl := hr
  cache := h.cache.of_same hc hbp hp hm

/-- What a routine keeps is the whole invariant, but for run control. -/
theorem Kept.inv {s t : State} (k : Kept s t) (h : s.Inv) (hr : t.RunOk) : t.Inv where
  memory := k.memory h.memory
  breakpoints := h.breakpoints.of_bp k.control.bp
  registers := k.registers h.registers
  loadDone := k.loadDone h.loadDone
  runControl := hr
  cache := k.cache h.cache

/-- While not `Halted`, what a routine keeps includes that run control is consistent. -/
theorem Kept.runOk {s t : State} (k : Kept s t) (h : s.RunOk) (hh : s.run.runState ≠ .halted) : t.RunOk where
  haltedIdle e := absurd (k.control.runState ▸ e) hh
  budget := by
    rw [k.control.runState, k.control.stepLeft, k.control.stepDone, k.control.resumeBp]
    exact h.budget
  reason _ := by
    rcases k.request with ⟨hreq, hreason⟩ | ⟨hreq, hreason⟩
    · rw [hreq, hreason]; exact h.reason hh
    · simp [hreq, hreason]

/-- A change of the records at one address, with the cache entry there invalidated (R146, R147). -/
theorem State.Inv.changeRecord {s : State} (h : s.Inv) {bp : BpTable} {a : Addr}
    (hok : ({ s with bp := bp } : State).BpOk)
    (hne : ∀ x, x ≠ a → Sparse.lookup x.toNat bp = Sparse.lookup x.toNat s.bp) :
    (({ s with bp := bp } : State).dcInvalidateAt a).Inv where
  memory := h.memory
  breakpoints := hok.of_bp rfl
  registers := h.registers.of_regs rfl
  loadDone := h.loadDone
  runControl := h.runControl.of_same rfl rfl
  cache := h.cache.dcInvalidateAt (t := { s with bp := bp }) rfl rfl rfl
    fun x hx => by simp only [State.armed, hne x hx]

theorem State.Inv.setEnabled {s : State} (h : s.Inv) (a : Addr) (b : Bool) : (s.setEnabled a b).Inv :=
  h.changeRecord (h.breakpoints.insert rfl) fun _ hx => Sparse.lookup_insert_ne (mt BitVec.eq_of_toNat_eq hx) b s.bp

/-- The record at a key erased, with the cache entry at the only address the key can stand for. -/
theorem State.Inv.eraseRecord {s : State} (h : s.Inv) {k : Nat} {a : Addr}
    (hk : ∀ x : Addr, x ≠ a → x.toNat ≠ k) : (({ s with bp := Sparse.erase k s.bp } : State).dcInvalidateAt a).Inv :=
  h.changeRecord (h.breakpoints.erase rfl) fun x hx => Sparse.lookup_erase_ne (hk x hx) s.bp

theorem State.Inv.dcInvalidateAt {s : State} (h : s.Inv) (a : Addr) : (s.dcInvalidateAt a).Inv :=
  h.changeRecord (bp := s.bp) (h.breakpoints.of_bp rfl) fun _ _ => rfl

/-- A write on the raw path with its range invalidated (R145, R147). -/
theorem State.Inv.rawWrite {s : State} (h : s.Inv) (a : Addr) (b : List Byte) :
    ((s.rawWrite a b).dcInvalidate a b.length).Inv where
  memory := Memory.storeBytes_wf h.memory a b
  breakpoints := h.breakpoints.of_bp rfl
  registers := h.registers.of_regs rfl
  loadDone := h.loadDone
  runControl := h.runControl.of_same rfl rfl
  cache := h.cache.dcInvalidate (t := s.rawWrite a b) rfl rfl rfl
    fun x hx => Memory.byte_storeBytes_outside _ _ _ _ (by simpa using hx)

/-! ## The account of the transitions that are not the engine's -/

/-- What every transition keeps that is not the engine's own (R9): the invariant, and the parts that only an
iteration changes, the counters (R37), the suspended load (R41) and FAULT_LOG (R42). -/
structure HostKept (s t : State) : Prop where
  inv : s.Inv → t.Inv
  counters : t.cnt = s.cnt
  load : t.load = s.load
  faultLog : t.faultLog = s.faultLog

theorem HostKept.refl (s : State) : HostKept s s := ⟨id, rfl, rfl, rfl⟩

theorem HostKept.trans {s t u : State} (h : HostKept s t) (k : HostKept t u) : HostKept s u :=
  ⟨k.inv ∘ h.inv, k.counters.trans h.counters, k.load.trans h.load, k.faultLog.trans h.faultLog⟩

theorem HostKept.emit (s : State) (e : PortEvent) : HostKept s (s.emit e) :=
  ⟨fun h => h.of_same (h.runControl.of_same rfl rfl) rfl rfl rfl rfl rfl rfl, rfl, rfl, rfl⟩

theorem HostKept.ok {s u : State} (h : HostKept s u) (q : Asked) (v : Value) : HostKept s (u.ok q v) :=
  h.trans (.emit u _)

theorem HostKept.err (s : State) (q : Asked) (k : ErrKind) : HostKept s (s.err q k) := .emit s _

theorem HostKept.whenHalted {s : State} {q : Asked} {f : State → State}
    (h : s.run.runState = .halted → HostKept s (f s)) : HostKept s (s.whenHalted q f) := by
  unfold State.whenHalted
  split
  · next hh => exact h hh
  · exact .err s q .precondition

/-! ## Run control (R200 to R205) -/

/-- `Accept()` leaves a state that a run can start from, in either mode (R200, R201, R203). -/
theorem HostKept.start (s : State) (m : RunState) (left done : BitVec 31) (hm : m ≠ .halted)
    (hb : m = .singleStepping → left.toNat + done.toNat ≤ Config.stepMax ∧ left ≠ 0) :
    HostKept s { s.accept with run := { s.accept.run with runState := m, stepLeft := left, stepDone := done } } where
  inv h := h.of_same
    { haltedIdle := fun e => absurd e hm
      budget := fun e => ⟨(hb e).1, fun _ => (hb e).2⟩
      reason := fun _ => by simp } rfl rfl rfl rfl rfl rfl
  counters := rfl
  load := rfl
  faultLog := rfl

/-- A positive signed count fits STEP_LEFT, and is not 0 there (R39, R200). -/
theorem stepCount_fits {n : BitVec 32} (h : ¬ n.toInt ≤ 0) :
    (n.setWidth 31).toNat ≤ Config.stepMax ∧ n.setWidth 31 ≠ 0 := by
  have hlt := n.isLt
  have hpos : 0 < n.toNat ∧ n.toNat < 2147483648 := by
    rw [BitVec.toInt_eq_toNat_cond] at h
    split at h <;> omega
  have hn : (n.setWidth 31).toNat = n.toNat := by rw [BitVec.toNat_setWidth]; omega
  refine ⟨?_, fun e => ?_⟩
  · rw [hn, Config.stepMax]; omega
  · have h0 : n.toNat = 0 := by simpa [e] using hn.symm
    omega

theorem cmdStep_hostKept (n : BitVec 32) (s : State) : HostKept s (cmdStep n s) := by
  refine .whenHalted fun _ => ?_
  dsimp only
  split
  · exact .err s _ _
  · next hn =>
    obtain ⟨hle, hne⟩ := stepCount_fits hn
    exact .start s .singleStepping (n.setWidth 31) 0 (by decide) fun _ => ⟨by simpa using hle, hne⟩

theorem cmdRun_hostKept (s : State) : HostKept s (cmdRun s) :=
  .whenHalted fun _ =>
    .ok (.start s .running s.run.stepLeft s.run.stepDone (by decide) fun e => nomatch e) _ _

/-- While not `Halted`, a halt request with its reason keeps the invariant (R199). -/
theorem HostKept.requestHalt {s : State} (hh : s.run.runState ≠ .halted) {r : HaltReason} (hr : r ≠ .none) :
    HostKept s (s.requestHalt r) where
  inv h := (Kept.requestHalt s hr).inv h ((Kept.requestHalt s hr).runOk h.runControl hh)
  counters := rfl
  load := rfl
  faultLog := rfl

theorem cmdHalt_hostKept (s : State) : HostKept s (cmdHalt s) := by
  unfold cmdHalt
  split
  · exact .err s _ _
  · next hh => exact .ok (.requestHalt hh (by decide)) _ _

theorem cmdWait_hostKept (s : State) : HostKept s (cmdWait s) := by
  unfold cmdWait
  split
  · exact .ok (.refl s) _ _
  · next hh =>
    refine ⟨fun h => ?_, rfl, rfl, rfl⟩
    exact h.of_same ⟨fun e => absurd e hh, h.runControl.budget, h.runControl.reason⟩ rfl rfl rfl rfl rfl rfl

/-! ## Registers and memory (R261 to R264) -/

theorem HostKept.writeX (s : State) (i : Reg) (v : Word) : HostKept s (s.writeX i v) where
  inv h :=
    { memory := by simpa using h.memory
      breakpoints := h.breakpoints.of_bp (by simp)
      registers := h.registers.writeX i v
      loadDone := by simpa using h.loadDone
      runControl := h.runControl.of_same (by simp) (by simp)
      cache := h.cache.of_same (by simp) (by simp) (by simp) (by simp) }
  counters := by simp
  load := by simp
  faultLog := by simp

theorem HostKept.setPc (s : State) (v : Word) : HostKept s (s.setPc v) where
  inv h :=
    { memory := h.memory
      breakpoints := h.breakpoints.of_bp rfl
      registers := ⟨h.registers.zero, h.registers.pendX, h.registers.pendPc⟩
      loadDone := h.loadDone
      runControl := h.runControl.of_same rfl rfl
      cache := h.cache.of_same rfl rfl rfl rfl }
  counters := rfl
  load := rfl
  faultLog := rfl

/-- While `Halted` the invariant asks nothing of HALT_REASON. -/
theorem HostKept.setHaltReason {s : State} (hh : s.run.runState = .halted) (r : HaltReason) :
    HostKept s { s with run := { s.run with haltReason := r } } where
  inv h := h.of_same ⟨h.runControl.haltedIdle, h.runControl.budget, fun hn => absurd hh hn⟩ rfl rfl rfl rfl rfl rfl
  counters := rfl
  load := rfl
  faultLog := rfl

theorem HostKept.writeCell {s : State} (hh : s.run.runState = .halted) (c : Cell) (v : Word) :
    HostKept s (s.writeCell c v) := by
  cases c with
  | x i => exact .writeX s i v
  | pc =>
    unfold State.writeCell
    dsimp only
    split
    · exact (HostKept.setPc s v).trans (.setHaltReason (s := s.setPc v) hh .none)
    · exact .setPc s v

theorem cmdReadRegister_hostKept (name : String) (s : State) : HostKept s (cmdReadRegister name s) := by
  refine .whenHalted fun _ => ?_
  split
  · exact .err s _ _
  · exact .ok (.refl s) _ _

theorem cmdWriteRegister_hostKept (name : String) (v : Word) (s : State) :
    HostKept s (cmdWriteRegister name v s) := by
  refine .whenHalted fun hh => ?_
  split
  · exact .err s _ _
  · exact .ok (.writeCell hh _ v) _ _

theorem cmdWriteMemory_hostKept (a : Addr) (b : List Byte) (s : State) : HostKept s (cmdWriteMemory a b s) :=
  .whenHalted fun _ => .ok ⟨fun h => h.rawWrite a b, rfl, rfl, rfl⟩ _ _

/-! ## Breakpoints (R230 to R237) -/

theorem HostKept.setEnabled (s : State) (a : Addr) (b : Bool) : HostKept s (s.setEnabled a b) :=
  ⟨fun h => h.setEnabled a b, rfl, rfl, rfl⟩

theorem cmdSetBreakpoint_hostKept (a : Addr) (s : State) : HostKept s (cmdSetBreakpoint a s) := by
  refine .whenHalted fun _ => .ok ?_ _ _
  cases s.bpAt a with
  | none => exact .setEnabled s a true
  | some b => exact ⟨fun h => h.dcInvalidateAt a, rfl, rfl, rfl⟩

theorem cmdClearBreakpoint_hostKept (a : Addr) (s : State) : HostKept s (cmdClearBreakpoint a s) := by
  refine .whenHalted fun _ => ?_
  split
  · exact .err s _ _
  · exact .ok ⟨fun h => h.eraseRecord fun _ => mt BitVec.eq_of_toNat_eq, rfl, rfl, rfl⟩ _ _

theorem HostKept.clearRecords (s : State) (l : BpTable) : HostKept s (s.clearRecords l) := by
  induction l generalizing s with
  | nil => exact .refl s
  | cons p l ih =>
    have hk : ∀ x : Addr, x ≠ BitVec.ofNat 32 p.1 → x.toNat ≠ p.1 := fun x hx e => hx (by simp [← e])
    exact HostKept.trans ⟨fun h => h.eraseRecord hk, rfl, rfl, rfl⟩ (ih _)

theorem cmdClearAllBreakpoints_hostKept (s : State) : HostKept s (cmdClearAllBreakpoints s) :=
  .whenHalted fun _ => .ok (.clearRecords s s.bp) _ _

theorem managerIsEnabled_hostKept (a : Addr) (s : State) : HostKept s (managerIsEnabled a s) :=
  .whenHalted fun _ => .ok (.refl s) _ _

theorem managerEnable_hostKept (a : Addr) (s : State) : HostKept s (managerEnable a s) := by
  refine .whenHalted fun _ => ?_
  split
  · exact .err s _ _
  · exact .ok (.setEnabled s a true) _ _

theorem managerDisable_hostKept (a : Addr) (s : State) : HostKept s (managerDisable a s) := by
  refine .whenHalted fun _ => ?_
  split
  · exact .err s _ _
  · exact .ok (.setEnabled s a false) _ _

/-! ## Introspection (R265, R266)

These read memory on the watched path, but while `Halted` a halt request of WATCHER has no effect (R199). -/

theorem HostKept.memRead {s t : State} (hh : s.run.runState = .halted) {a : Addr} {n : Nat} {b : List Byte}
    (h : s.memRead a n = .next (b, t)) : HostKept s t := by
  obtain ⟨hk, hf⟩ := State.memRead_kept h
  have hrun : t.run = s.run := by
    rcases State.memRead_next h with ⟨-, -, rfl⟩ | ⟨-, r, rest, -, -, -, -, rfl⟩
    · rfl
    · simp [State.applyReply_eq, hh]
  have hw : t.port.waiting = s.port.waiting := congrArg Port.waiting hk.control.port
  have hl : t.load = s.load := by rw [State.memRead_shape h]
  exact ⟨fun hi => hk.inv hi (hi.runControl.of_same hrun hw), hk.control.counters, hl, hf⟩

/-- A change of the cache that leaves it valid. -/
theorem State.Inv.withCache {s : State} (h : s.Inv) {c : Cache} (hc : ({ s with cache := c } : State).CacheOk) :
    ({ s with cache := c } : State).Inv :=
  ⟨h.memory, h.breakpoints.of_bp rfl, h.registers.of_regs rfl, h.loadDone, h.runControl.of_same rfl rfl, hc⟩

theorem HostKept.decodeAt {s t : State} (hh : s.run.runState = .halted) {a : Addr} {r : Record}
    (h : s.decodeAt a = .next (r, t)) : HostKept s t := by
  obtain ⟨b, u, hu, -, rfl⟩ := State.decodeAt_next h
  exact (HostKept.memRead hh hu).trans ⟨fun hi => hi.withCache (hi.cache.setIwbuf _), rfl, rfl, rfl⟩

theorem HostKept.dcGet {s t : State} (hh : s.run.runState = .halted) {a : Addr} {r : Record}
    (h : s.dcGet a = .next (r, t)) : HostKept s t := by
  obtain ⟨u, hu, ht⟩ := State.dcGet_next h
  have hk : HostKept s u := by
    rcases hu with rfl | ⟨b, hb⟩
    · exact .refl u
    · exact .memRead hh hb
  have hc : s.Inv → t.CacheOk := fun hs => hs.cache.dcGet h
  rw [ht] at hc ⊢
  exact ⟨fun hs => (hk.inv hs).withCache (hc hs), hk.counters, hk.load, hk.faultLog⟩

theorem HostKept.realInstruction {s t : State} (hh : s.run.runState = .halted) {a : Addr} {r : Record}
    (h : s.realInstruction a = .next (r, t)) : HostKept s t := by
  unfold State.realInstruction at h
  split at h
  · exact .decodeAt hh h
  · exact .dcGet hh h

theorem cmdGetInstruction_hostKept {a : Addr} {s t : State} (h : cmdGetInstruction a s = .next t) :
    HostKept s t := by
  unfold cmdGetInstruction at h
  split at h
  · next hh =>
    obtain ⟨r, u, hu, h⟩ := ResultOf.andThen_next h
    cases h
    exact .ok (.dcGet hh hu) _ _
  · cases h
    exact .err s _ _

theorem cmdDisassemble_hostKept {a : Addr} {s t : State} (h : cmdDisassemble a s = .next t) : HostKept s t := by
  unfold cmdDisassemble at h
  split at h
  · next hh =>
    obtain ⟨r, u, hu, h⟩ := ResultOf.andThen_next h
    cases h
    exact .ok (.realInstruction hh hu) _ _
  · cases h
    exact .err s _ _

/-! ## The turns -/

theorem runCommand_hostKept {c : Command} {s t : State} (h : runCommand c s = .next t) : HostKept s t := by
  cases c with
  | halt => cases h; exact cmdHalt_hostKept s
  | step n => cases h; exact cmdStep_hostKept n s
  | run => cases h; exact cmdRun_hostKept s
  | wait => cases h; exact cmdWait_hostKept s
  | getRunStatus => cases h; exact .ok (.refl s) _ _
  | getLastHaltReason => cases h; exact .whenHalted fun _ => .ok (.refl s) _ _
  | readRegister name => cases h; exact cmdReadRegister_hostKept name s
  | writeRegister name v => cases h; exact cmdWriteRegister_hostKept name v s
  | readMemory a n => cases h; exact .whenHalted fun _ => .ok (.refl s) _ _
  | writeMemory a b => cases h; exact cmdWriteMemory_hostKept a b s
  | setBreakpoint a => cases h; exact cmdSetBreakpoint_hostKept a s
  | clearBreakpoint a => cases h; exact cmdClearBreakpoint_hostKept a s
  | clearAllBreakpoints => cases h; exact cmdClearAllBreakpoints_hostKept s
  | hasBreakpoint a => cases h; exact .whenHalted fun _ => .ok (.refl s) _ _
  | getInstruction a => exact cmdGetInstruction_hostKept h
  | disassemble a => exact cmdDisassemble_hostKept h

theorem runManagerOp_hostKept (op : ManagerOp) (s : State) : HostKept s (runManagerOp op s) := by
  cases op with
  | isEnabled a => exact managerIsEnabled_hostKept a s
  | enable a => exact managerEnable_hostKept a s
  | disable a => exact managerDisable_hostKept a s

/-- A turn is the engine's, or is accounted for (R9). -/
theorem runTurn_next {u : Turn} {s t : State} (h : runTurn u s = .next t) :
    engineStep s = .next t ∨ HostKept s t := by
  cases u with
  | engine => exact .inl h
  | host c => exact .inr (runCommand_hostKept h)
  | manager op => cases h; exact .inr (runManagerOp_hostKept op s)
  | environment e =>
    cases h
    exact .inr ⟨fun h => h.of_same (h.runControl.of_same rfl rfl) rfl rfl rfl rfl rfl rfl, rfl, rfl, rfl⟩
  | storeAroundEngine a b => cases h

/-- The schedule is advanced before a turn (log 6). -/
theorem HostKept.setSchedule (s : State) (l : List Turn) :
    HostKept s { s with port := { s.port with schedule := l } } :=
  ⟨fun h => h.of_same (h.runControl.of_same rfl rfl) rfl rfl rfl rfl rfl rfl, rfl, rfl, rfl⟩

/-- A step is the schedule's next turn: the engine's, or one that is accounted for. -/
theorem step_next {s t : State} (h : step s = .next t) :
    ∃ w, HostKept s w ∧ (engineStep w = .next t ∨ HostKept w t) := by
  unfold step nextTurn at h
  split at h
  · exact ⟨s, .refl s, .inl h⟩
  · next rest _ => exact ⟨_, .setSchedule s rest, runTurn_next h⟩

/-! ## The iteration (R191) -/

theorem Kept.setPcWritten (s : State) (b : Bool) : Kept s (s.setPcWritten b) where
  control := ⟨rfl, rfl, rfl, rfl, rfl, rfl, rfl, rfl, rfl⟩
  memory := id
  registers h := h.of_regs rfl
  loadDone := id
  cache h := h.of_same rfl rfl rfl rfl
  request := .inl ⟨rfl, rfl⟩
  faults := ⟨[], Nat.zero_le _, by simp⟩

/-- Two accounts in a row, the first of which raises no fault. -/
theorem Kept.trans_of_noFault {s t u : State} (h : Kept s t) (hf : t.faultLog = s.faultLog) (k : Kept t u) :
    Kept s u where
  control := h.control.trans k.control
  memory := k.memory ∘ h.memory
  registers := k.registers ∘ h.registers
  loadDone := k.loadDone ∘ h.loadDone
  cache := k.cache ∘ h.cache
  request := by
    rcases k.request with ⟨a, b⟩ | r
    · rw [a, b]; exact h.request
    · exact .inr r
  faults := hf ▸ k.faults

/-- An ended iteration is what a routine keeps, then the loop's own work. -/
theorem iteration_kept {s t : State} (h : iteration s = .next t) :
    ∃ r u, Kept s u ∧ t = u.finishIteration s.regs.pc r := by
  obtain ⟨r, c, u, hg, hk, rfl⟩ := iteration_next h
  obtain ⟨hc, hf⟩ := State.dcGet_kept hg
  exact ⟨r, u, hc.trans_of_noFault hf ((Kept.setPcWritten c false).trans_of_noFault rfl hk), rfl⟩

@[simp] theorem State.finishIteration_faultLog (s : State) (a : Addr) (r : Record) :
    (s.finishIteration a r).faultLog = s.faultLog := by rw [State.finishIteration_eq]; rfl

/-- The loop's own work keeps a consistent budget, of which one instruction at least is left (R191, R206). -/
theorem State.RunOk.finishIteration {s : State} (h : s.RunOk) (hh : s.run.runState ≠ .halted)
    (hl : s.run.runState = .singleStepping → s.run.stepLeft ≠ 0) (a : Addr) (r : Record) :
    (s.finishIteration a r).clearResume.RunOk := by
  rw [State.finishIteration_eq]
  by_cases hs : s.run.runState = .singleStepping
  · have hle := (h.budget hs).1
    have hne := hl hs
    have hsum : (s.run.stepLeft - 1).toNat + (s.run.stepDone + 1).toNat ≤ Config.stepMax := by
      unfold Config.stepMax at hle ⊢
      bv_omega
    exact ⟨by simp [hs], by simpa [hs] using hsum, by simpa [hs] using h.reason⟩
  · exact ⟨by simp [hs, hh], by simp [hs], by simpa [hs] using h.reason⟩

/-- The loop's own work keeps the invariant: the pc and run control are all it writes of what the invariant is
about. -/
theorem State.Inv.finishIteration {s : State} (h : s.Inv) (hh : s.run.runState ≠ .halted)
    (hl : s.run.runState = .singleStepping → s.run.stepLeft ≠ 0) (a : Addr) (r : Record) :
    (s.finishIteration a r).clearResume.Inv := by
  have hr := h.runControl.finishIteration hh hl a r
  rw [State.finishIteration_eq] at hr ⊢
  have hregs := h.registers
  refine ⟨h.memory, h.breakpoints.of_bp rfl, ?_, h.loadDone, hr, h.cache.of_same rfl rfl rfl rfl⟩
  by_cases hp : s.run.pcWritten = true
  · exact hregs.of_regs (by simp [hp])
  · exact ⟨by simpa [hp] using hregs.zero, by simpa [hp] using hregs.pendX, by simpa [hp] using hregs.pendPc⟩

/-- An iteration with budget left keeps the invariant, once the resume it may have served is marked as done. -/
theorem iteration_inv {s t : State} (hi : s.Inv) (hh : s.run.runState ≠ .halted)
    (hl : s.run.runState = .singleStepping → s.run.stepLeft ≠ 0) (h : iteration s = .next t) :
    t.clearResume.Inv := by
  obtain ⟨r, u, hk, rfl⟩ := iteration_kept h
  have hu : u.Inv := hk.inv hi (hk.runOk hi.runControl hh)
  exact hu.finishIteration (by rwa [hk.control.runState]) (by rwa [hk.control.runState, hk.control.stepLeft]) _ _

theorem iteration_resumeBp {s t : State} (h : iteration s = .next t) : t.run.resumeBp = s.run.resumeBp := by
  obtain ⟨r, u, hk, rfl⟩ := iteration_kept h
  rw [State.finishIteration_eq, ← hk.control.resumeBp]
  dsimp only
  split <;> rfl

theorem iteration_faults {s t : State} (h : iteration s = .next t) :
    ∃ l, l.length ≤ 1 ∧ t.faultLog = s.faultLog ++ l := by
  obtain ⟨r, u, hk, rfl⟩ := iteration_kept h
  rw [State.finishIteration_faultLog]
  exact hk.faults

/-! ## The engine's step (R195, R198, R206) -/

theorem State.clearResume_of_notDue {s : State} (h : s.run.resumeBp = false) : s.clearResume = s := by
  unfold State.clearResume; rw [← h]

/-- In `SingleStepping` the loop goes on only with budget left (R194). -/
theorem State.stepLeft_ne_zero {s : State} (h : s.stopCondition = false) (hs : s.run.runState = .singleStepping) :
    s.run.stepLeft ≠ 0 := by
  intro h0
  simp [State.stopCondition, hs, h0] at h

/-- What an ended resume iteration was (R206): one ordinary iteration, with the record at the pc disabled around it
if it was enabled. -/
theorem resumeIteration_next {s t : State} (h : resumeIteration s = .next t) :
    (∃ u, iteration (s.setEnabled s.regs.pc false) = .next u ∧ t = (u.setEnabled s.regs.pc true).clearResume) ∨
    (∃ u, iteration s = .next u ∧ t = u.clearResume) := by
  unfold resumeIteration at h
  dsimp only at h
  split at h
  · obtain ⟨u, hu, h⟩ := Result.andThen_next h
    cases h
    exact .inl ⟨u, hu, rfl⟩
  · obtain ⟨u, hu, h⟩ := Result.andThen_next h
    cases h
    exact .inr ⟨u, hu, rfl⟩

/-- What an ended step of the engine was (R195): idle in `Halted`, a resume iteration, the halt transition, or an
ordinary iteration. -/
theorem engineStep_next {s t : State} (h : engineStep s = .next t) :
    t = s ∨
    s.run.runState ≠ .halted ∧
      (s.run.resumeBp = true ∧ resumeIteration s = .next t ∨
       s.run.resumeBp = false ∧ t = s.haltTransition ∨
       s.run.resumeBp = false ∧ s.stopCondition = false ∧ iteration s = .next t) := by
  unfold engineStep at h
  split at h
  · cases h; exact .inl rfl
  · next hh =>
    refine .inr ⟨hh, ?_⟩
    split at h
    · next hb => exact .inl ⟨hb, h⟩
    · next hb =>
      rw [Bool.not_eq_true] at hb
      split at h
      · cases h; exact .inr (.inl ⟨hb, rfl⟩)
      · next hs => exact .inr (.inr ⟨hb, by simpa using hs, h⟩)

theorem resumeIteration_inv {s t : State} (hi : s.Inv) (hh : s.run.runState ≠ .halted)
    (hb : s.run.resumeBp = true) (h : resumeIteration s = .next t) : t.Inv := by
  have hl : s.run.runState = .singleStepping → s.run.stepLeft ≠ 0 :=
    fun hs => (hi.runControl.budget hs).2 hb
  obtain ⟨u, hu, rfl⟩ | ⟨u, hu, rfl⟩ := resumeIteration_next h
  · exact (iteration_inv (hi.setEnabled _ false) hh hl hu).setEnabled _ true
  · exact iteration_inv hi hh hl hu

theorem resumeIteration_faults {s t : State} (h : resumeIteration s = .next t) :
    ∃ l, l.length ≤ 1 ∧ t.faultLog = s.faultLog ++ l := by
  obtain ⟨u, hu, rfl⟩ | ⟨u, hu, rfl⟩ := resumeIteration_next h
  · exact iteration_faults (s := s.setEnabled s.regs.pc false) (t := u) hu
  · exact iteration_faults (t := u) hu

/-- The halt transition leaves `Halted` idle (R198). -/
theorem State.Inv.haltTransition {s : State} (hi : s.Inv) (hb : s.run.resumeBp = false) : s.haltTransition.Inv :=
  hi.of_same ⟨fun _ => ⟨rfl, hb, rfl⟩, (fun e => nomatch e), fun hn => absurd rfl hn⟩ rfl rfl rfl rfl rfl rfl

theorem engineStep_inv {s t : State} (hi : s.Inv) (h : engineStep s = .next t) : t.Inv := by
  obtain rfl | ⟨hh, ⟨hb, h⟩ | ⟨hb, rfl⟩ | ⟨hb, hs, h⟩⟩ := engineStep_next h
  · exact hi
  · exact resumeIteration_inv hi hh hb h
  · exact hi.haltTransition hb
  · rw [← State.clearResume_of_notDue ((iteration_resumeBp h).trans hb)]
    exact iteration_inv hi hh (State.stepLeft_ne_zero hs) h

theorem engineStep_faults {s t : State} (h : engineStep s = .next t) :
    ∃ l, l.length ≤ 1 ∧ t.faultLog = s.faultLog ++ l := by
  obtain rfl | ⟨-, ⟨-, h⟩ | ⟨-, rfl⟩ | ⟨-, -, h⟩⟩ := engineStep_next h
  · exact ⟨[], Nat.zero_le _, by simp⟩
  · exact resumeIteration_faults h
  · exact ⟨[], Nat.zero_le _, by simp⟩
  · exact iteration_faults h

/-! ## The claims about every step -/

/-- Settles O57: the engine's step and every other turn keep the invariant. -/
theorem stepKeepsInvariant : Obligations.StepKeepsInvariant := by
  unfold Obligations.StepKeepsInvariant
  intro s t hi h
  obtain ⟨w, hw, he | hk⟩ := step_next h
  · exact engineStep_inv (hw.inv hi) he
  · exact hk.inv (hw.inv hi)

/-- Settles O54: an iteration raises at most one fault, and no other turn raises any. -/
theorem faultLogAppendOnly : Obligations.FaultLogAppendOnly := by
  unfold Obligations.FaultLogAppendOnly
  intro s t h
  obtain ⟨w, hw, he | hk⟩ := step_next h
  · rw [← hw.faultLog]; exact engineStep_faults he
  · exact ⟨[], Nat.zero_le _, by rw [hk.faultLog, hw.faultLog, List.append_nil]⟩

/-! ## Reset (R45, R311) -/

theorem State.readX_resetWith (regs : Vector Word 32) (pc : Word) (mem : Memory) (p : Params) (e : Env) {i : Reg}
    (hi : i ≠ 0) : (State.resetWith regs pc mem p e).readX i = regs[i.toNat]'i.isLt := by
  have hne : 0 ≠ i.toNat := fun h => hi (BitVec.eq_of_toNat_eq h.symm)
  simp only [State.readX, if_neg hi]
  exact Vector.getElem_set_ne (by decide) i.isLt hne

/-- Settles O55: each value is the one `resetWith` gives; `INIT_REGS` stands in every cell but cell 0. -/
theorem resetLeaves : Obligations.ResetLeaves := by
  unfold Obligations.ResetLeaves
  intro regs pc mem p e
  have hcnt : ∀ t, (State.resetWith regs pc mem p e).cntOp t = 0 := fun t => by cases t <;> rfl
  have hpend : ∀ k (h : k < 32), (State.resetWith regs pc mem p e).regs.pendX[k] = none :=
    fun k h => Vector.getElem_replicate h
  exact ⟨rfl, rfl, rfl, rfl, rfl, rfl, rfl, rfl, hcnt, rfl, rfl, fun _ => State.readX_resetWith regs pc mem p e, rfl,
    hpend, rfl, rfl, rfl⟩

/-- Settles O56: the tables and the cache are empty, the engine is idle in `Halted`. -/
theorem invariantAtReset : Obligations.InvariantAtReset := by
  unfold Obligations.InvariantAtReset
  intro regs pc mem p e hmem hcap
  exact
    { memory := hmem
      breakpoints := ⟨.nil, fun _ h => nomatch h⟩
      registers := ⟨Vector.getElem_set_self _, rfl, rfl⟩
      loadDone := rfl
      runControl := ⟨fun _ => ⟨rfl, rfl, rfl⟩, (fun h => nomatch h), fun h => absurd rfl h⟩
      cache := ⟨hcap, Nat.zero_le _, .nil, fun _ h => nomatch h⟩ }

/-! ## Register names (R22, R25) -/

/-- A name that is neither `pc` nor in the table names nothing (R25). -/
theorem cellOf_eq_none {name : String} (hpc : name ≠ "pc") (h : ∀ p ∈ archNames ++ altNames, p.1 ≠ name) :
    cellOf name = none := by
  have hl : (archNames ++ altNames).lookup name = none :=
    List.lookup_eq_none_iff.2 fun p hp => by simpa using (h p hp).symm
  rw [cellOf, if_neg hpc, hl]; rfl

/-- Settles O51: the pairs one by one, and no name of the table is outside them. -/
theorem registerNames : Obligations.RegisterNames := by
  unfold Obligations.RegisterNames
  intro pairs
  have hsub : ∀ p ∈ archNames ++ altNames, p ∈ pairs := by decide
  refine ⟨by decide, by decide, fun name hpc h => ?_, by decide, by decide⟩
  exact cellOf_eq_none hpc fun p hp => h p (hsub p hp)

end Sys2Proof.Machine

/-! Loads and stores at the effective address (R170 to R174): each instruction as one access of the memory side, what
the access is outside WATCH, with a reply of WATCHER and without one, and from these the claims about watched accesses
(R63), a load after a store (R72) and a fetch after a store (R76). -/

namespace Sys2Proof.Machine

/-! ## The two instructions as one access of the memory side -/

@[simp] theorem State.effectiveAddress_srcOf_imm (s : State) (i : Reg) (v : Word) :
    s.effectiveAddress (srcOf i) (.imm v) = s.readX i + v := by
  simp [State.effectiveAddress]

theorem exec_lw_eq (rd rs1 : Reg) (imm : BitVec 12) (s : State) :
    exec (.lw rd rs1 imm) s = (s.memRead (s.readX rs1 + sext12 imm) 4).andThen fun b u =>
      .next ((u.writeDst (dstOf rd) (le32 b)).setLoad none) := by
  rw [← State.effectiveAddress_srcOf_imm]
  exact lwRoutine_eq _ _ _ s

theorem exec_sw_eq (rs1 rs2 : Reg) (imm : BitVec 12) (s : State) :
    exec (.sw rs1 rs2 imm) s =
      Result.andThen (s.memWrite (s.readX rs1 + sext12 imm) (bytesLe32 (s.readX rs2))) fun u =>
        .next (u.dcInvalidate (s.readX rs1 + sext12 imm) 4) := by
  rw [← State.effectiveAddress_srcOf_imm, ← State.val_srcOf s rs2]
  rfl

/-! ## A watched access without a reply of WATCHER (R63, U5) -/

theorem State.memRead_noReply {s : State} {a : Addr} {n : Nat} (hw : s.touchesWatch a n = true)
    (he : s.env.watcher = []) : s.memRead a n = .refused (.watchedAccess a) := by
  simp [State.memRead, hw, he]

theorem State.memWrite_noReply {s : State} {a : Addr} {b : List Byte} (hw : s.touchesWatch a b.length = true)
    (he : s.env.watcher = []) : s.memWrite a b = .refused (.watchedAccess a) := by
  simp only [State.memWrite, hw, if_true, he]

/-- On watched bytes the cache has no entry (R31, R148), so an iteration reads memory and stops as the read does. -/
theorem iteration_noReply {s : State} (hc : s.CacheOk) (ha : s.armed s.regs.pc = false)
    (hw : s.touchesWatch s.regs.pc 4 = true) (he : s.env.watcher = []) :
    iteration s = .refused (.watchedAccess s.regs.pc) := by
  have hget := hc.dcGet_of_codeAt_none (State.codeAt_eq_none.2 ⟨ha, hw⟩)
  simp only [iteration, hget, State.decodeAt, State.memRead_noReply hw he, ResultOf.andThen]

/-- Settles O15: both instructions and the fetch are an access of the memory side, which is refused. -/
theorem watchedAccessRefused : Obligations.WatchedAccessRefused := by
  unfold Obligations.WatchedAccessRefused
  intro s he
  refine ⟨fun rd rs1 rs2 imm hw => ⟨?_, ?_⟩, fun hc ha hw => iteration_noReply hc ha hw he⟩
  · rw [exec_lw_eq, State.memRead_noReply hw he]; rfl
  · rw [exec_sw_eq, State.memWrite_noReply hw he]; rfl

/-! ## A watched access with a reply of WATCHER (R63) -/

theorem State.memWrite_reply {s : State} {a : Addr} {b : List Byte} {r : WatchReply} {rest : List WatchReply}
    (hw : s.touchesWatch a b.length = true) (he : s.env.watcher = r :: rest)
    (hi : r.writesInside a b.length = true) : s.memWrite a b = .next (s.applyReply a b.length r rest) := by
  simp only [State.memWrite, hw, if_true, he, hi]

section
variable (s : State) (a : Addr) (n : Nat) (r : WatchReply) (rest : List WatchReply)

@[simp] theorem State.applyReply_regs : (s.applyReply a n r rest).regs = s.regs := by rw [State.applyReply_eq]
@[simp] theorem State.applyReply_bp : (s.applyReply a n r rest).bp = s.bp := by rw [State.applyReply_eq]
@[simp] theorem State.applyReply_cnt : (s.applyReply a n r rest).cnt = s.cnt := by rw [State.applyReply_eq]
@[simp] theorem State.applyReply_load : (s.applyReply a n r rest).load = s.load := by rw [State.applyReply_eq]
@[simp] theorem State.applyReply_faultLog : (s.applyReply a n r rest).faultLog = s.faultLog := by
  rw [State.applyReply_eq]
@[simp] theorem State.applyReply_port : (s.applyReply a n r rest).port = s.port := by rw [State.applyReply_eq]
@[simp] theorem State.applyReply_params : (s.applyReply a n r rest).params = s.params := by rw [State.applyReply_eq]
@[simp] theorem State.applyReply_env : (s.applyReply a n r rest).env = { s.env with watcher := rest } := by
  rw [State.applyReply_eq]
@[simp] theorem State.applyReply_mem : (s.applyReply a n r rest).mem = s.mem.storeCells r.writes := by
  rw [State.applyReply_eq]
@[simp] theorem State.applyReply_cache : (s.applyReply a n r rest).cache = (s.dcInvalidate a n).cache := by
  rw [State.applyReply_eq]
theorem State.applyReply_run : (s.applyReply a n r rest).run = if r.halt = true ∧ s.run.runState ≠ .halted then
    { s.run with haltReq := true, haltReason := .semihostRequest } else s.run := by
  rw [State.applyReply_eq]

@[simp] theorem State.readX_applyReply (i : Reg) : (s.applyReply a n r rest).readX i = s.readX i :=
  State.readX_congr (by simp) i

end

/-- A range invalidated already: invalidating it again drops no other entry (R145). -/
theorem State.mem_dcInvalidate_of_cache {s t : State} {lo : Addr} {n : Nat}
    (h : t.cache = (s.dcInvalidate lo n).cache) {e : CacheEntry} :
    e ∈ (t.dcInvalidate lo n).cache.entries ↔ e ∈ s.cache.entries ∧ overlaps e.addr e.inst.size lo n = false := by
  rw [State.mem_dcInvalidate, h, State.mem_dcInvalidate]
  exact ⟨And.left, fun ⟨he, ho⟩ => ⟨⟨he, ho⟩, ho⟩⟩

/-- Byte k of a loaded word is the byte at address plus k (R66). -/
theorem extractLsb'_le32 {b : List Byte} (hl : b.length = 4) {k : Nat} (hk : k < b.length) :
    (le32 b).extractLsb' (8 * k) 8 = b[k] := by
  rw [← bytesLe32_getElem (le32 b) k (hl ▸ hk)]
  simp only [bytesLe32_le32 b hl]

theorem exec_lw_reply {s : State} {rd rs1 : Reg} {imm : BitVec 12} {r : WatchReply} {rest : List WatchReply}
    (hw : s.touchesWatch (s.readX rs1 + sext12 imm) 4 = true) (he : s.env.watcher = r :: rest)
    (hl : r.bytes.length = 4) (hi : r.writesInside (s.readX rs1 + sext12 imm) 4 = true) :
    exec (.lw rd rs1 imm) s = .next
      (((s.applyReply (s.readX rs1 + sext12 imm) 4 r rest).writeDst (dstOf rd) (le32 r.bytes)).setLoad none) := by
  rw [exec_lw_eq, State.memRead_reply hw he hl hi]; rfl

theorem exec_sw_reply {s : State} {rs1 rs2 : Reg} {imm : BitVec 12} {r : WatchReply} {rest : List WatchReply}
    (hw : s.touchesWatch (s.readX rs1 + sext12 imm) 4 = true) (he : s.env.watcher = r :: rest)
    (hi : r.writesInside (s.readX rs1 + sext12 imm) 4 = true) :
    exec (.sw rs1 rs2 imm) s = .next
      ((s.applyReply (s.readX rs1 + sext12 imm) 4 r rest).dcInvalidate (s.readX rs1 + sext12 imm) 4) := by
  rw [exec_sw_eq, State.memWrite_reply hw he hi]; rfl

/-- Settles O12: the reply's effects come first, then the write of `rd`, which leaves them alone. -/
theorem lwTakesWatcherReply : Obligations.LwTakesWatcherReply := by
  unfold Obligations.LwTakesWatcherReply
  intro s rd rs1 imm r rest hw he hl hi
  refine ⟨_, exec_lw_reply hw he hl hi, ?_⟩
  generalize s.readX rs1 + sext12 imm = a at hi ⊢
  have only := (s.applyReply a 4 r rest).writeDst_dstOf_only rd (le32 r.bytes)
  have hrd := (s.applyReply a 4 r rest).readX_writeDst_dstOf rd (le32 r.bytes)
  have hmem : ((s.applyReply a 4 r rest).writeDst (dstOf rd) (le32 r.bytes)).mem = s.mem.storeCells r.writes := by
    rw [State.writeDst_dstOf_rest]; exact State.applyReply_mem ..
  generalize (s.applyReply a 4 r rest).writeDst (dstOf rd) (le32 r.bytes) = u at only hrd hmem
  have hread : ∀ q, (u.setLoad none).readX q = u.readX q := fun _ => rfl
  refine ⟨?zero, ?value, ?others, ?pc, ?pcSlot, ?slots, only.ownSlot, ?zeroSlot, hmem, ?outside, ?run, ?cache, rfl,
    ?frame⟩
  case zero => rintro rfl; rfl
  case value =>
    intro h0 k hk
    rw [hread, hrd, if_neg h0]
    exact extractLsb'_le32 hl hk
  case others => intro q hq; rw [hread, only.registers q hq, State.readX_applyReply]
  case pc => simpa using only.pc
  case pcSlot => simpa using only.pcSlot
  case slots => simpa using only.slots
  case zeroSlot => simpa using only.zeroSlot
  case outside =>
    intro x hx
    rw [State.setLoad_mem, hmem]
    exact r.byte_outside hi s.mem x hx
  case run => exact only.run.trans (State.applyReply_run ..)
  case cache => simpa using only.cache
  case frame => simp [only.faultLog, only.bp, only.counters, only.port, only.params, only.env]

/-- Settles O14: the reply's effects, and an invalidation that finds its range gone already. -/
theorem swTakesWatcherReply : Obligations.SwTakesWatcherReply := by
  unfold Obligations.SwTakesWatcherReply
  intro s rs1 rs2 imm r rest hw he hi
  rw [State.effectiveAddress_srcOf_imm] at hw hi ⊢
  refine ⟨_, exec_sw_reply hw he hi, ?_⟩
  generalize s.readX rs1 + sext12 imm = a at hi ⊢
  refine ⟨by simp, fun x hx => ?outside, fun e => ?entries, State.applyReply_run .., ?frame⟩
  case outside =>
    rw [State.dcInvalidate_mem, State.applyReply_mem]
    exact r.byte_outside hi s.mem x hx
  case entries => exact State.mem_dcInvalidate_of_cache (State.applyReply_cache ..)
  case frame => simp

/-! ## An access outside WATCH (R62) -/

theorem exec_lw_unwatched {s : State} {rd rs1 : Reg} {imm : BitVec 12}
    (hw : s.touchesWatch (s.readX rs1 + sext12 imm) 4 = false) :
    exec (.lw rd rs1 imm) s = .next
      ((s.writeDst (dstOf rd) (le32 (s.rawRead (s.readX rs1 + sext12 imm) 4))).setLoad none) := by
  rw [exec_lw_eq, State.memRead_unwatched hw]; rfl

theorem exec_sw_unwatched {s : State} {rs1 rs2 : Reg} {imm : BitVec 12}
    (hw : s.touchesWatch (s.readX rs1 + sext12 imm) 4 = false) :
    exec (.sw rs1 rs2 imm) s = .next
      ((s.rawWrite (s.readX rs1 + sext12 imm) (bytesLe32 (s.readX rs2))).dcInvalidate
        (s.readX rs1 + sext12 imm) 4) := by
  rw [exec_sw_eq, State.memWrite_unwatched hw]; rfl

/-- In memory as a word's store leaves it, the word is read back (R66, R72). -/
theorem State.le32_rawRead_of_mem {s t : State} {a : Addr} {v : Word} (h : t.mem = (s.rawWrite a (bytesLe32 v)).mem) :
    le32 (t.rawRead a 4) = v := by
  have hread : t.rawRead a 4 = (s.rawWrite a (bytesLe32 v)).rawRead a 4 := State.rawRead_congr fun _ _ => by rw [h]
  have hback : (s.rawWrite a (bytesLe32 v)).rawRead a 4 = bytesLe32 v := s.rawRead_rawWrite a (bytesLe32 v) (by simp)
  rw [hread, hback, le32_bytesLe32]

/-- Settles O18: the store leaves the registers, so the load's address is the store's, and reads what was written. -/
theorem loadAfterStore : Obligations.LoadAfterStore := by
  unfold Obligations.LoadAfterStore
  intro s rd rs1 rs2 imm hw
  have hsw := exec_sw_unwatched (rs2 := rs2) hw
  generalize ht : (s.rawWrite (s.readX rs1 + sext12 imm) (bytesLe32 (s.readX rs2))).dcInvalidate
    (s.readX rs1 + sext12 imm) 4 = t at hsw
  have hreg : t.readX rs1 = s.readX rs1 := by rw [← ht]; rfl
  have hwt : t.touchesWatch (t.readX rs1 + sext12 imm) 4 = false := by
    rw [hreg, State.touchesWatch_congr (s := s) (by simp [← ht])]; exact hw
  have hval : le32 (t.rawRead (t.readX rs1 + sext12 imm) 4) = s.readX rs2 :=
    State.le32_rawRead_of_mem (by rw [hreg, ← ht]; rfl)
  refine ⟨t, _, hsw, exec_lw_unwatched hwt, ?_⟩
  rw [hval]
  exact t.readX_writeDst_dstOf rd _

/-! ## A fetch after a store (R76, R147) -/

/-- Settles O24: `sw` keeps the cache valid, and a valid cache serves the code visible at an address. -/
theorem storeSeenByFetch : Obligations.StoreSeenByFetch := by
  unfold Obligations.StoreSeenByFetch
  intro s t rs1 rs2 imm a hc h ha hw
  have hcode : t.codeAt a = some (t.params.dec a (le32 (t.rawRead a 4))) := by
    rw [State.codeAt_eq (.inr hw), ha]; rfl
  obtain ⟨u, hu, -, -⟩ := ((exec_kept h).cache hc).dcGet_of_codeAt hcode
  exact ⟨u, hu⟩

end Sys2Proof.Machine

/-! The decoder DEC6 and the encoder (R93 to R106): at most one row of the opcode table matches a word, so `decode`
gives the reading of that row, which the encoder inverts; and what follows for the decoded records. -/

namespace Sys2Proof

/-! ## At most one row (R103) -/

/-- Two rows that match one word agree on every bit that both fix. -/
theorem OpcodeRow.agree_of_accepts {r q : OpcodeRow} {w : Word} (hr : r.accepts w = true)
    (hq : q.accepts w = true) : r.pattern &&& q.mask = q.pattern &&& r.mask := by
  simp only [OpcodeRow.accepts, beq_iff_eq] at hr hq
  rw [← hr, ← hq]
  ac_rfl

theorem eq_of_rows_agree : ∀ r ∈ opcodeTable, ∀ q ∈ opcodeTable,
    r.pattern &&& q.mask = q.pattern &&& r.mask → r = q := by decide

/-- Settles O3: two rows that match one word agree on the bits that both fix, and no two rows of the table do. -/
theorem opcodeRowsDisjoint : Obligations.OpcodeRowsDisjoint := by
  unfold Obligations.OpcodeRowsDisjoint
  exact fun _ r q hr hq ar aq => eq_of_rows_agree r hr q hq (OpcodeRow.agree_of_accepts ar aq)

theorem accepts_eq_false_of_ne {w : Word} {r q : OpcodeRow} (h : r.accepts w = true) (hne : q ≠ r)
    (hr : r ∈ opcodeTable) (hq : q ∈ opcodeTable) : q.accepts w = false :=
  Bool.eq_false_iff.2 fun hq' => hne (opcodeRowsDisjoint w q r hq hr hq' h)

/-! ## What the decoder answers on a row, and without one (R103, R105) -/

section
variable {w : Word}

theorem decode_of_rowAdd (h : rowAdd.accepts w = true) :
    decode w = .ok (.add (fieldRd w) (fieldRs1 w) (fieldRs2 w)) := by
  simp [decode, h]

theorem decode_of_rowAddi (h : rowAddi.accepts w = true) :
    decode w = .ok (.addi (fieldRd w) (fieldRs1 w) (fieldI w)) := by
  simp +decide [decode, h, accepts_eq_false_of_ne h]

theorem decode_of_rowLw (h : rowLw.accepts w = true) :
    decode w = .ok (.lw (fieldRd w) (fieldRs1 w) (fieldI w)) := by
  simp +decide [decode, h, accepts_eq_false_of_ne h]

theorem decode_of_rowSw (h : rowSw.accepts w = true) :
    decode w = .ok (.sw (fieldRs1 w) (fieldRs2 w) (fieldS w)) := by
  simp +decide [decode, h, accepts_eq_false_of_ne h]

theorem decode_of_rowJal (h : rowJal.accepts w = true) : decode w = .ok (.jal (fieldRd w) (fieldJ w)) := by
  simp +decide [decode, h, accepts_eq_false_of_ne h]

theorem decode_of_rowEbreak (h : rowEbreak.accepts w = true) : decode w = .ok .ebreak := by
  simp +decide [decode, h, accepts_eq_false_of_ne h]

theorem decode_of_noRow (h : ∀ r ∈ opcodeTable, r.accepts w = false) : decode w = .error (.unrecognised w) := by
  simp only [opcodeTable, List.forall_mem_cons] at h
  simp [decode, h]

/-- A decoded word matches a row. -/
theorem exists_row_of_decode {i : Instr} (h : decode w = .ok i) : ∃ r ∈ opcodeTable, r.accepts w = true := by
  by_contra hno
  rw [decode_of_noRow fun r hr => Bool.eq_false_iff.2 fun ha => hno ⟨r, hr, ha⟩] at h
  cases h

end

/-! ## The round trip, from the instruction (R93 to R96) -/

/-- The J format loses bit 0 of its immediate, which is 0 in a well-formed `jal` (R96, R101). -/
theorem fieldJ_encode_jal {rd : Reg} {imm : BitVec 21} (h : wellFormed (.jal rd imm) = true) :
    fieldJ (encode (.jal rd imm)) = imm :=
  fieldJ_formatJ imm rd _ (by simpa [wellFormed] using h)

/-- Settles O1: the word matches the instruction's own row, and the fields of a format are what was put there. -/
theorem decodeOfEncode : Obligations.DecodeOfEncode := by
  unfold Obligations.DecodeOfEncode
  intro i hwf
  cases i with
  | add rd rs1 rs2 => exact (decode_of_rowAdd (Laws.EncodeFitsTableRow.add rd rs1 rs2)).trans (by simp [encode])
  | addi rd rs1 imm => exact (decode_of_rowAddi (Laws.EncodeFitsTableRow.addi rd rs1 imm)).trans (by simp [encode])
  | lw rd rs1 imm => exact (decode_of_rowLw (Laws.EncodeFitsTableRow.lw rd rs1 imm)).trans (by simp [encode])
  | sw rs1 rs2 imm => exact (decode_of_rowSw (Laws.EncodeFitsTableRow.sw rs1 rs2 imm)).trans (by simp [encode])
  | jal rd imm =>
    refine (decode_of_rowJal (Laws.EncodeFitsTableRow.jal rd imm)).trans ?_
    rw [fieldJ_encode_jal hwf]
    simp [encode]
  | ebreak => exact decode_of_rowEbreak Laws.EncodeFitsTableRow.ebreak

/-! ## The round trip, from the word -/

section
variable {w : Word}

theorem encode_add_of_row (h : rowAdd.accepts w = true) :
    encode (.add (fieldRd w) (fieldRs1 w) (fieldRs2 w)) = w := by
  obtain ⟨hop, hf3, hf7⟩ := (rowAdd_accepts w).1 h
  simpa [encode, hop, hf3, hf7] using formatR_fields w

theorem encode_addi_of_row (h : rowAddi.accepts w = true) :
    encode (.addi (fieldRd w) (fieldRs1 w) (fieldI w)) = w := by
  obtain ⟨hop, hf3⟩ := (rowAddi_accepts w).1 h
  simpa [encode, hop, hf3] using formatI_fields w

theorem encode_lw_of_row (h : rowLw.accepts w = true) :
    encode (.lw (fieldRd w) (fieldRs1 w) (fieldI w)) = w := by
  obtain ⟨hop, hf3⟩ := (rowLw_accepts w).1 h
  simpa [encode, hop, hf3] using formatI_fields w

theorem encode_sw_of_row (h : rowSw.accepts w = true) :
    encode (.sw (fieldRs1 w) (fieldRs2 w) (fieldS w)) = w := by
  obtain ⟨hop, hf3⟩ := (rowSw_accepts w).1 h
  simpa [encode, hop, hf3] using formatS_fields w

theorem encode_jal_of_row (h : rowJal.accepts w = true) : encode (.jal (fieldRd w) (fieldJ w)) = w := by
  have hop := (rowJal_accepts w).1 h
  simpa [encode, hop] using formatJ_fields w

theorem encode_ebreak_of_row (h : rowEbreak.accepts w = true) : encode .ebreak = w := by
  rw [(rowEbreak_accepts w).1 h]
  decide

theorem wellFormed_jal_fieldJ (rd : Reg) (w : Word) : wellFormed (.jal rd (fieldJ w)) = true := by
  simp only [wellFormed, fieldJ, BitVec.getLsbD_append]
  rfl

/-- On a matched row the decoder's answer is that row's instruction, well-formed, and the encoder's word for it is
the one that was read. -/
theorem decode_of_row {r : OpcodeRow} (hr : r ∈ opcodeTable) (h : r.accepts w = true) :
    ∃ i, decode w = .ok i ∧ rowOf i = r ∧ wellFormed i = true ∧ encode i = w := by
  simp only [opcodeTable, List.mem_cons, List.not_mem_nil, or_false] at hr
  rcases hr with rfl | rfl | rfl | rfl | rfl | rfl
  · exact ⟨_, decode_of_rowAdd h, rfl, rfl, encode_add_of_row h⟩
  · exact ⟨_, decode_of_rowAddi h, rfl, rfl, encode_addi_of_row h⟩
  · exact ⟨_, decode_of_rowLw h, rfl, rfl, encode_lw_of_row h⟩
  · exact ⟨_, decode_of_rowSw h, rfl, rfl, encode_sw_of_row h⟩
  · exact ⟨_, decode_of_rowJal h, rfl, wellFormed_jal_fieldJ _ w, encode_jal_of_row h⟩
  · exact ⟨_, decode_of_rowEbreak h, rfl, rfl, encode_ebreak_of_row h⟩

end

/-- Settles O2: a decoded word matches a row, on which the encoder inverts the decoder. -/
theorem encodeOfDecode : Obligations.EncodeOfDecode := by
  unfold Obligations.EncodeOfDecode
  intro w i h
  obtain ⟨r, hr, ha⟩ := exists_row_of_decode h
  obtain ⟨j, hj, -, hwf, henc⟩ := decode_of_row hr ha
  obtain rfl : j = i := by simpa [hj] using h
  exact ⟨hwf, henc⟩

/-- Settles O5: the decoder evaluated on the six words. -/
theorem decodesSampleWords : Obligations.DecodesSampleWords := by
  unfold Obligations.DecodesSampleWords
  decide

/-! ## The fields of an immediate as integers (R101) -/

theorem toInt_imm12_bounds (imm : BitVec 12) : -2048 ≤ imm.toInt ∧ imm.toInt ≤ 2047 := by
  have hlo := imm.le_toInt
  have hhi := imm.toInt_lt
  omega

theorem toInt_append_of_pos {n m : Nat} (x : BitVec n) (y : BitVec m) (hn : 0 < n) :
    (x ++ y).toInt = x.toInt * 2 ^ m + y.toNat := by
  simp [BitVec.toInt_append, hn.ne', mul_comm]

theorem fieldS_toInt (w : Word) :
    (fieldS w).toInt = (w.extractLsb' 25 7).toInt * 32 + (w.extractLsb' 7 5).toNat :=
  toInt_append_of_pos _ _ (by decide)

theorem fieldJ_toInt (w : Word) :
    (fieldJ w).toInt = (w.extractLsb' 31 1).toInt * 1048576 + (w.extractLsb' 12 8).toNat * 4096
      + (w.extractLsb' 20 1).toNat * 2048 + (w.extractLsb' 21 10).toNat * 2 := by
  simp (disch := decide) only [fieldJ, toInt_append_of_pos, BitVec.toNat_ofNat]
  omega

end Sys2Proof

namespace Sys2Proof.Machine

/-! ## The records of DEC6 (R97, R98, R104) -/

theorem dec6_of_ok {w : Word} {i : Instr} (h : decode w = .ok i) (a : Addr) : dec6 a w = recordOf a i := by
  simp [dec6, h]

theorem dec6_of_error {w : Word} {e : Reject} (h : decode w = .error e) (a : Addr) : dec6 a w = illegalRecord a := by
  simp [dec6, h]

/-- Settles O4: without a row `decode` rejects the word, and on a row it gives that row's instruction. -/
theorem illegalExactlyWithoutRow : Obligations.IllegalExactlyWithoutRow := by
  unfold Obligations.IllegalExactlyWithoutRow
  intro a w
  refine ⟨fun h => dec6_of_error (decode_of_noRow h) a, fun r hr ha => ?_⟩
  obtain ⟨i, hi, hrow, -, -⟩ := decode_of_row hr ha
  exact ⟨i, dec6_of_ok hi a, hrow⟩

/-! ## Immediates (R101) -/

/-- The immediate of a DEC6 record is the extension of the field its word has for it: the word is the encoding of the
record's instruction, whose format puts the immediate there (R94 to R96, R104). -/
theorem dec6_immediates (a : Addr) (w : Word) :
    ((dec6 a w).op = .addi ∨ (dec6 a w).op = .lw → (dec6 a w).handles.src1 = some (.imm (sext12 (fieldI w)))) ∧
    ((dec6 a w).op = .sw → (dec6 a w).handles.src1 = some (.imm (sext12 (fieldS w)))) ∧
    ((dec6 a w).op = .jal → (dec6 a w).handles.src0 = some (.imm (sext21 (fieldJ w)))) := by
  cases hd : decode w with
  | error e => simp [dec6_of_error hd, illegalRecord]
  | ok i =>
    obtain ⟨hwf, rfl⟩ := encodeOfDecode w i hd
    rw [dec6_of_ok hd]
    cases i with
    | jal rd imm => simp [recordOf, tagOf, handlesOf, fieldJ_encode_jal hwf]
    | _ => simp [recordOf, tagOf, handlesOf, encode]

/-- Settles O6: the immediate is the sign extension of the word's field, which as an integer is the field's own
value, bounded by its width. -/
theorem immediatesSignExtended : Obligations.ImmediatesSignExtended := by
  unfold Obligations.ImmediatesSignExtended
  intro a w v
  obtain ⟨immI, immS, immJ⟩ := dec6_immediates a w
  refine ⟨fun hop hv => ?_, fun hop hv => ?_, fun hop hv => ?_⟩
  · obtain rfl : sext12 (fieldI w) = v := by simpa [immI hop] using hv
    rw [sext12_toInt]
    exact ⟨rfl, toInt_imm12_bounds _⟩
  · obtain rfl : sext12 (fieldS w) = v := by simpa [immS hop] using hv
    rw [sext12_toInt]
    exact ⟨fieldS_toInt w, toInt_imm12_bounds _⟩
  · obtain rfl : sext21 (fieldJ w) = v := by simpa [immJ hop] using hv
    rw [sext21_toInt]
    have hval := fieldJ_toInt w
    have hlo := (fieldJ w).le_toInt
    have hhi := (fieldJ w).toInt_lt
    refine ⟨hval, ?_, ?_, ?_⟩ <;> omega

/-! ## The decoder contract (R102) -/

/-- A child exactly for the two-phase opcode, at the address of the record and of size 4 (R98, R102 (4)). -/
structure Record.ChildOk (a : Addr) (r : Record) : Prop where
  isSome_iff : r.child.isSome = true ↔ r.op = .lw
  child : ∀ c, r.child = some c → c.op = .lwChild ∧ c.addr = a ∧ c.size = 4

theorem recordOf_childOk (a : Addr) (i : Instr) : (recordOf a i).ChildOk a := by
  cases i <;> constructor <;> simp [recordOf, tagOf, childOf, Config.isize]

theorem illegalRecord_childOk (a : Addr) : (illegalRecord a).ChildOk a := by
  constructor <;> simp [illegalRecord]

theorem Body.record_childOk (a : Addr) (b : Body) : (b.record a).ChildOk a := by
  by_cases h : b.op = .lw <;> constructor <;> simp [Body.record, h, Config.isize]

theorem Params.dec_childOk (p : Params) (a : Addr) (w : Word) : (p.dec a w).ChildOk a := by
  unfold Params.dec dec6
  split
  · exact Body.record_childOk a _
  · split
    · exact recordOf_childOk a _
    · exact illegalRecord_childOk a

/-- Settles O7: the records of DEC6 and those of a foreign decoder's table alike keep the contract. -/
theorem decoderContract : Obligations.DecoderContract := by
  unfold Obligations.DecoderContract
  intro p a w
  obtain ⟨haddr, hsize⟩ := p.dec_addr_size a w
  obtain ⟨hiff, hchild⟩ := p.dec_childOk a w
  exact ⟨haddr, hsize, hiff, hchild⟩

end Sys2Proof.Machine

/-! Operand handles and the records that need them: a destination commits at its submit and not before (R121 to R125),
and only a record without a handle of its row raises `Internal` (R129). -/

namespace Sys2Proof.Machine

/-! ## Before the submit (R20, R26) -/

@[simp] theorem State.alloc_x (s : State) (d : Dst) : (s.alloc d).regs.x = s.regs.x := by cases d <;> rfl

@[simp] theorem State.alloc_pc (s : State) (d : Dst) : (s.alloc d).regs.pc = s.regs.pc := by cases d <;> rfl

@[simp] theorem State.fill_x (s : State) (d : Dst) (v : Word) : (s.fill d v).regs.x = s.regs.x := by cases d <;> rfl

@[simp] theorem State.fill_pc (s : State) (d : Dst) (v : Word) : (s.fill d v).regs.pc = s.regs.pc := by cases d <;> rfl

/-- Settles O19: before the submit only slots differ, and a submitted destination leaves what `OnlyRegister` says
(a general cell) or what `State.writeDst_pc` says (the pc). -/
theorem submitCommitsOnce : Obligations.SubmitCommitsOnce := by
  unfold Obligations.SubmitCommitsOnce
  intro s i v hi
  have hdst : dstOf i = .reg i := if_neg hi
  have hvalue := s.readX_writeDst_dstOf i v
  have honly := s.writeDst_dstOf_only i v
  rw [hdst] at hvalue honly
  exact ⟨State.readX_congr (by simp), hvalue.trans (if_neg hi), honly.registers, honly.ownSlot hi, honly.pc,
    s.writeDst_discard v, by simp, rfl, rfl, rfl, State.readX_congr rfl⟩

/-! ## No instruction raises a fault (R178, R285) -/

@[simp] theorem State.raiseFault_faultLog (s : State) (k : FaultCode) (a : Addr) :
    (s.raiseFault k a).faultLog = s.faultLog ++ [(k, a)] := by
  unfold State.raiseFault
  dsimp only
  split <;> rfl

@[simp] theorem State.writeDst_dstOf_faultLog (s : State) (i : Reg) (v : Word) :
    (s.writeDst (dstOf i) v).faultLog = s.faultLog :=
  (s.writeDst_dstOf_only i v).faultLog

@[simp] theorem State.breakpointEvent_faultLog (s : State) (a : Addr) :
    (s.breakpointEvent a).2.faultLog = s.faultLog := by
  unfold State.breakpointEvent
  split <;> rfl

theorem ebreakRoutine_faultLog {s t : State} {a : Addr} (h : ebreakRoutine a .pc s = .next t) :
    t.faultLog = s.faultLog := by
  rw [← s.breakpointEvent_faultLog a]
  unfold ebreakRoutine at h
  dsimp only at h
  split at h <;> cases h <;> rfl

theorem State.memWrite_faultLog {s t : State} {a : Addr} {b : List Byte} (h : s.memWrite a b = .next t) :
    t.faultLog = s.faultLog := by
  rcases State.memWrite_next h with ⟨-, rfl⟩ | ⟨-, r, rest, -, -, rfl⟩ <;> simp

/-- The six instructions raise no fault: that is left to `ILLEGAL` and to malformed records. -/
theorem exec_faultLog {i : Instr} {s t : State} (h : exec i s = .next t) : t.faultLog = s.faultLog := by
  cases i with
  | add rd rs1 rs2 => cases h; exact State.writeDst_dstOf_faultLog s rd _
  | addi rd rs1 imm => cases h; exact State.writeDst_dstOf_faultLog s rd _
  | lw rd rs1 imm =>
    rw [exec_lw_eq] at h
    obtain ⟨b, u, hread, ht⟩ := ResultOf.andThen_next h
    cases ht
    simpa using (State.memRead_kept hread).2
  | sw rs1 rs2 imm =>
    rw [exec_sw_eq] at h
    obtain ⟨u, hwrite, ht⟩ := Result.andThen_next h
    cases ht
    simpa using State.memWrite_faultLog hwrite
  | jal rd imm => cases h; exact State.writeDst_dstOf_faultLog _ rd _
  | ebreak => exact ebreakRoutine_faultLog h

/-- A record of DEC6 is an instruction's or the illegal one (R103, R105). -/
theorem dec6_cases (a : Addr) (w : Word) : (∃ i, dec6 a w = recordOf a i) ∨ dec6 a w = illegalRecord a := by
  cases hd : decode w with
  | ok i => exact .inl ⟨i, dec6_of_ok hd a⟩
  | error e => exact .inr (dec6_of_error hd a)

theorem execute_recordOf_faultLog {i : Instr} {s t : State} (h : execute (recordOf s.regs.pc i) s = .next t) :
    t.faultLog = s.faultLog :=
  exec_faultLog (execute_recordOf rfl i ▸ h)

/-- Settles O20: an instruction's record, the trap's included, raises no fault, and the illegal record raises
`IllegalInstruction`. -/
theorem defaultRecordsNeverInternal : Obligations.DefaultRecordsNeverInternal := by
  unfold Obligations.DefaultRecordsNeverInternal
  intro s t w h a ha
  rcases h with hdec | htrap
  · rcases dec6_cases s.regs.pc w with ⟨i, hi⟩ | hillegal
    · rw [hi] at hdec
      rwa [execute_recordOf_faultLog hdec] at ha
    · rw [hillegal, execute_illegalRecord] at hdec
      cases hdec
      simpa using ha
  · rwa [execute_recordOf_faultLog htrap] at ha

/-! ## Records that lack a handle (R104, R129) -/

/-- A handle that the tag's row of R104 lists is absent, the destination of a load's child included. -/
def Record.LacksHandle (r : Record) : Prop :=
  match r.op with
  | .add | .addi => r.handles.src0 = none ∨ r.handles.src1 = none ∨ r.handles.dst0 = none
  | .jal => r.handles.src0 = none ∨ r.handles.dst0 = none ∨ r.handles.dst1 = none
  | .lw => r.handles.src0 = none ∨ r.handles.src1 = none ∨ (r.child.bind fun c => c.handles.dst0) = none
  | .sw => r.handles.src0 = none ∨ r.handles.src1 = none ∨ r.handles.src2 = none
  | .ebreak => r.handles.dst0 = none
  | .illegal | .lwChild => False

theorem recordOf_not_lacksHandle (a : Addr) (i : Instr) : ¬ (recordOf a i).LacksHandle := by
  cases i <;> simp [Record.LacksHandle, recordOf, tagOf, handlesOf, childOf]

theorem executeForeign_of_lacksHandle {r : Record} (h : r.LacksHandle) (s : State) :
    executeForeign r s = malformedRoutine r.addr s := by
  unfold executeForeign
  split
  case h_8 => rfl
  -- An arm that runs a routine has matched every handle of its tag's row.
  all_goals exact absurd h (by simp [Record.LacksHandle, *])

/-- A record that lacks a handle is no instruction's, and as a foreign decoder's it is malformed. -/
theorem execute_of_lacksHandle {r : Record} (h : r.LacksHandle) (s : State) :
    execute r s = malformedRoutine r.addr s := by
  have hnot : r.instrAt s.regs.pc = none := by
    rw [Option.eq_none_iff_forall_ne_some]
    intro i hi
    exact recordOf_not_lacksHandle _ i (recordOf_of_instrAt hi ▸ h)
  rw [execute, hnot]
  exact executeForeign_of_lacksHandle h s

/-- Settles O21: each of the listed absences is a handle its row lists, and such a record runs as a malformed one. -/
theorem missingHandleRaisesInternal : Obligations.MissingHandleRaisesInternal := by
  unfold Obligations.MissingHandleRaisesInternal
  intro s r h
  refine execute_of_lacksHandle ?_ s
  rcases h with ⟨hop | hop, h⟩ | ⟨hop, h⟩ | ⟨hop, h⟩ | ⟨hop, h⟩ | ⟨hop, h⟩ <;> simp only [Record.LacksHandle, hop]
  · exact h
  · exact h
  · exact h
  · rcases h with h | h | h | ⟨c, hc, h⟩ <;> simp [*]
  · exact h
  · exact h

end Sys2Proof.Machine

/-! The decode cache's own operations (R141, R145) and the trap it serves at an armed address (R142, R176). -/

namespace Sys2Proof.Machine

/-! ## Invalidation and `get` -/

/-- Equality of addresses modulo 2^32, in numbers (R60). -/
theorem add_ofNat_eq_iff (a b : Addr) (k j : Nat) :
    a + BitVec.ofNat 32 k = b + BitVec.ofNat 32 j ↔ (a.toNat + k) % 4294967296 = (b.toNat + j) % 4294967296 := by
  rw [← BitVec.toNat_inj]
  simp

/-- Settles O22: an entry stays exactly when its bytes and the range have no address in common. -/
theorem invalidateRemovesOverlaps : Obligations.InvalidateRemovesOverlaps := by
  unfold Obligations.InvalidateRemovesOverlaps
  intro s lo n e
  refine ⟨?_, rfl⟩
  rw [State.mem_dcInvalidate, ← Bool.not_eq_true, overlaps_iff]
  simp only [add_ofNat_eq_iff]

/-- Where a fill stops, no entry is there, and `get` stops as the fill does (R141, R148). -/
theorem State.CacheOk.dcGet_eq_produce_of_stop {s : State} (hs : s.CacheOk) {a : Addr}
    (h : ∀ p, s.produce a ≠ .next p) : s.dcGet a = s.produce a := by
  cases hv : s.codeAt a with
  | none => rw [hs.dcGet_of_codeAt_none hv, State.produce_of_codeAt_none hv]
  | some r => exact absurd (State.produce_of_codeAt hv) (h _)

/-- Settles O23: `get` is transparent where a fill gives a record and where it stops; a fill that does not take
WATCHER's word gives the visible code and writes IWBUF at most. -/
theorem getIsFreshDecode : Obligations.GetIsFreshDecode := by
  unfold Obligations.GetIsFreshDecode
  intro s a hs
  refine ⟨fun r u h => hs.dcGet_of_produce h, fun f h => ?_, fun q h => ?_, fun h => ?_⟩
  · rw [hs.dcGet_eq_produce_of_stop (by simp [h]), h]
  · rw [hs.dcGet_eq_produce_of_stop (by simp [h]), h]
  · have hp := State.produce_of_codeAt (State.codeAt_eq h)
    cases ha : s.armed a with
    | true => rw [ha] at hp; exact ⟨s.cache, hp⟩
    | false => rw [ha] at hp; exact ⟨_, hp⟩

/-! ## The trap (R176) -/

/-- With no external handler that answers, nobody claims the event (R282). -/
theorem askHandlers_eq_decline {a : Addr} {l : List BpHandler} (h : ∀ b ∈ l, b.answer a = .decline) :
    askHandlers a l = .decline := by
  induction l with
  | nil => rfl
  | cons b l ih =>
    have hb := h b List.mem_cons_self
    simp only [askHandlers, hb]
    exact ih fun c hc => h c (List.mem_cons_of_mem b hc)

/-- An unclaimed `ebreak` requests the halt and writes the pc with its own address (R176, R243). -/
theorem exec_ebreak_unclaimed {s : State} (h : ∀ b ∈ s.env.bpHandlers, b.answer s.regs.pc = .decline) :
    exec .ebreak s = .next ((s.requestHalt .softwareBreakpoint).writeDst .pc s.regs.pc) := by
  simp [exec, execEbreak, ebreakRoutine, State.breakpointEvent, askHandlers_eq_decline h]

/-- An iteration at an armed address executes the trap's record (R142, R240). -/
theorem iteration_of_armed {s : State} (hc : s.CacheOk) (ha : s.armed s.regs.pc = true)
    (hd : ∀ b ∈ s.env.bpHandlers, b.answer s.regs.pc = .decline) :
    ∃ c, iteration s = .next (State.finishIteration
      (((({ s with cache := c } : State).setPcWritten false).requestHalt .softwareBreakpoint).writeDst .pc s.regs.pc)
      s.regs.pc (trapRecord s.regs.pc)) := by
  have hp : s.produce s.regs.pc = .next (trapRecord s.regs.pc, s) := by simp [State.produce, ha]
  obtain ⟨c, hit⟩ := iteration_of_produce hc hp
  have hex := (execute_recordOf (s := ({ s with cache := c } : State).setPcWritten false) rfl .ebreak).trans
    (exec_ebreak_unclaimed hd)
  exact ⟨c, hit.trans (congrArg (Result.andThen · _) hex)⟩

/-- The engine's turn, with no resume due and the stop condition false, is an iteration (R195). -/
theorem step_eq_iteration {s : State} (hsch : s.port.schedule = []) (hrun : s.run.runState ≠ .halted)
    (hres : s.run.resumeBp = false) (hstop : s.stopCondition = false) : step s = iteration s := by
  simp [step, nextTurn, hsch, engineStep, hrun, hres, hstop]

/-- Settles O28: the step is an iteration over the trap's record, whose `ebreak` nobody claims. -/
theorem armedAddressTraps : Obligations.ArmedAddressTraps := by
  unfold Obligations.ArmedAddressTraps
  intro s hi hsch hrun hres hstop ha hdecline
  obtain ⟨c, hit⟩ := iteration_of_armed hi.cache ha hdecline
  refine ⟨_, (step_eq_iteration hsch hrun hres hstop).trans hit, ?_⟩
  rw [State.finishIteration_eq, State.writeDst_pc]
  have hcnt := s.cntOp_count (t := .ebreak) (by decide)
  refine ⟨?regs, rfl, rfl, rfl, ?run, rfl, (hcnt _).trans (if_pos rfl), fun g hg => (hcnt g).trans (if_neg hg),
    rfl, rfl, rfl⟩
  case regs => rw [← hi.registers.pendPc]; rfl
  case run => by_cases hs : s.run.runState = .singleStepping <;> simp [hrun, hs]

end Sys2Proof.Machine

/-! The decode cache cannot be observed (R77, R148): two states that differ in the cache and CACHE_CAP alone end every
operation alike, and differ in nothing else after it. Only `get` needs valid caches for this: it then answers in both
states as a fill would, which reads no cache. -/

namespace Sys2Proof.Machine

namespace State.SameButCache

variable {s t u : State}

theorem of_cache {c : Cache} (h : t = { s with cache := c }) : s.SameButCache t := ⟨c, s.params.cacheCap, h⟩

theorem symm (h : s.SameButCache t) : t.SameButCache s := by
  obtain ⟨c, cap, rfl⟩ := h
  exact ⟨s.cache, s.params.cacheCap, rfl⟩

theorem trans (h : s.SameButCache t) (k : t.SameButCache u) : s.SameButCache u := by
  obtain ⟨c, cap, rfl⟩ := h
  obtain ⟨c', cap', rfl⟩ := k
  exact ⟨c', cap', rfl⟩

end State.SameButCache

/-! ## Outcomes that agree -/

/-- Both go on, with what `R` says of the two ends, or both stop for the same reason. -/
inductive EndsAlike {σ : Type} (R : σ → σ → Prop) :
    Host.Outcome σ Fault Refusal → Host.Outcome σ Fault Refusal → Prop
  | next {x y : σ} (h : R x y) : EndsAlike R (.next x) (.next y)
  | fault (f : Fault) : EndsAlike R (.fault f) (.fault f)
  | refused (q : Refusal) : EndsAlike R (.refused q) (.refused q)

/-- The same value, with states that differ in the decode cache and CACHE_CAP at most. -/
def SameValue {α : Type} (p q : α × State) : Prop := p.1 = q.1 ∧ p.2.SameButCache q.2

theorem EndsAlike.next_or_stop {σ : Type} {R : σ → σ → Prop} {o o' : Host.Outcome σ Fault Refusal}
    (h : EndsAlike R o o') : (∃ x y, o = .next x ∧ o' = .next y ∧ R x y) ∨ (∃ f, o = .fault f ∧ o' = .fault f) ∨
      ∃ q, o = .refused q ∧ o' = .refused q := by
  cases h with
  | next h => exact .inl ⟨_, _, rfl, rfl, h⟩
  | fault f => exact .inr (.inl ⟨f, rfl, rfl⟩)
  | refused q => exact .inr (.inr ⟨q, rfl, rfl⟩)

/-- From ends alike, what goes on alike ends alike. -/
theorem EndsAlike.andThen {o o' : Result} {f g : State → Result} (h : EndsAlike State.SameButCache o o')
    (hf : ∀ s t, s.SameButCache t → EndsAlike State.SameButCache (f s) (g t)) :
    EndsAlike State.SameButCache (Result.andThen o f) (Result.andThen o' g) := by
  cases h with
  | next h => exact hf _ _ h
  | fault f => exact .fault f
  | refused q => exact .refused q

/-- The same, where the first operation gives a value. -/
theorem EndsAlike.andThenOf {α σ : Type} {R : σ → σ → Prop} {o o' : ResultOf α}
    {f g : α → State → Host.Outcome σ Fault Refusal} (h : EndsAlike SameValue o o')
    (hf : ∀ v s t, s.SameButCache t → EndsAlike R (f v s) (g v t)) : EndsAlike R (o.andThen f) (o'.andThen g) := by
  cases h with
  | next h =>
    obtain ⟨hv, hs⟩ := h
    simp only [ResultOf.andThen]
    rw [← hv]
    exact hf _ _ _ hs
  | fault f => exact .fault f
  | refused q => exact .refused q

theorem EndsAlike.symm {α : Type} {o o' : ResultOf α} (h : EndsAlike SameValue o o') : EndsAlike SameValue o' o := by
  cases h with
  | next h => exact .next ⟨h.1.symm, h.2.symm⟩
  | fault f => exact .fault f
  | refused q => exact .refused q

theorem EndsAlike.trans {α : Type} {o o' o'' : ResultOf α} (h : EndsAlike SameValue o o')
    (k : EndsAlike SameValue o' o'') : EndsAlike SameValue o o'' := by
  cases h with
  | next h => cases k with | next k => exact .next ⟨h.1.trans k.1, h.2.trans k.2⟩
  | fault f => exact k
  | refused q => exact k

namespace State.SameButCache

variable {s t : State}

/-! ## What the two states have in common -/

theorem val (h : s.SameButCache t) (a : Src) : t.val a = s.val a := by
  obtain ⟨c, cap, rfl⟩ := h
  cases a <;> rfl

theorem effectiveAddress (h : s.SameButCache t) (base disp : Src) :
    t.effectiveAddress base disp = s.effectiveAddress base disp := by
  unfold State.effectiveAddress
  rw [h.val, h.val]

theorem pc (h : s.SameButCache t) : t.regs.pc = s.regs.pc := by
  obtain ⟨c, cap, rfl⟩ := h; rfl

theorem run (h : s.SameButCache t) : t.run = s.run := by
  obtain ⟨c, cap, rfl⟩ := h; rfl

theorem port (h : s.SameButCache t) : t.port = s.port := by
  obtain ⟨c, cap, rfl⟩ := h; rfl

theorem env (h : s.SameButCache t) : t.env = s.env := by
  obtain ⟨c, cap, rfl⟩ := h; rfl

theorem bp (h : s.SameButCache t) : t.bp = s.bp := by
  obtain ⟨c, cap, rfl⟩ := h; rfl

theorem rawRead (h : s.SameButCache t) (a : Addr) (n : Nat) : t.rawRead a n = s.rawRead a n := by
  obtain ⟨c, cap, rfl⟩ := h; rfl

theorem touchesWatch (h : s.SameButCache t) (a : Addr) (n : Nat) : t.touchesWatch a n = s.touchesWatch a n := by
  obtain ⟨c, cap, rfl⟩ := h; rfl

theorem armed (h : s.SameButCache t) (a : Addr) : t.armed a = s.armed a := by
  obtain ⟨c, cap, rfl⟩ := h; rfl

theorem bpAt (h : s.SameButCache t) (a : Addr) : t.bpAt a = s.bpAt a := by
  obtain ⟨c, cap, rfl⟩ := h; rfl

theorem stopCondition (h : s.SameButCache t) : t.stopCondition = s.stopCondition := by
  unfold State.stopCondition
  rw [h.run]

theorem dec (h : s.SameButCache t) (a : Addr) (w : Word) : t.params.dec a w = s.params.dec a w := by
  obtain ⟨c, cap, rfl⟩ := h; rfl

theorem text (h : s.SameButCache t) (r : Record) : t.params.text r = s.params.text r := by
  obtain ⟨c, cap, rfl⟩ := h; rfl

/-! ## Updates of the state -/

theorem ite {p : Prop} [Decidable p] {x y x' y' : State} (hx : x.SameButCache x') (hy : y.SameButCache y') :
    (if p then x else y).SameButCache (if p then x' else y') := by
  split
  · exact hx
  · exact hy

theorem setPcWritten (h : s.SameButCache t) (b : Bool) : (s.setPcWritten b).SameButCache (t.setPcWritten b) := by
  obtain ⟨c, cap, rfl⟩ := h; exact ⟨c, cap, rfl⟩

theorem requestHalt (h : s.SameButCache t) (r : HaltReason) : (s.requestHalt r).SameButCache (t.requestHalt r) := by
  obtain ⟨c, cap, rfl⟩ := h; exact ⟨c, cap, rfl⟩

theorem setLoad (h : s.SameButCache t) (l : Option LoadPending) : (s.setLoad l).SameButCache (t.setLoad l) := by
  obtain ⟨c, cap, rfl⟩ := h; exact ⟨c, cap, rfl⟩

theorem writeX (h : s.SameButCache t) (i : Reg) (v : Word) : (s.writeX i v).SameButCache (t.writeX i v) := by
  obtain ⟨c, cap, rfl⟩ := h
  exact .ite ⟨c, cap, rfl⟩ ⟨c, cap, rfl⟩

theorem clearSlot (h : s.SameButCache t) (i : Reg) : (s.clearSlot i).SameButCache (t.clearSlot i) := by
  obtain ⟨c, cap, rfl⟩ := h; exact ⟨c, cap, rfl⟩

theorem writeDst (h : s.SameButCache t) (d : Dst) (v : Word) : (s.writeDst d v).SameButCache (t.writeDst d v) := by
  cases d with
  | reg i => rw [State.writeDst_reg, State.writeDst_reg]; exact (h.writeX i v).clearSlot i
  | discard => exact h
  | pc => obtain ⟨c, cap, rfl⟩ := h; exact ⟨c, cap, rfl⟩

theorem rawWrite (h : s.SameButCache t) (a : Addr) (b : List Byte) :
    (s.rawWrite a b).SameButCache (t.rawWrite a b) := by
  obtain ⟨c, cap, rfl⟩ := h; exact ⟨c, cap, rfl⟩

theorem dcInvalidate (h : s.SameButCache t) (a : Addr) (n : Nat) :
    (s.dcInvalidate a n).SameButCache (t.dcInvalidate a n) := by
  obtain ⟨c, cap, rfl⟩ := h; exact ⟨_, cap, rfl⟩

theorem dcInvalidateAt (h : s.SameButCache t) (a : Addr) : (s.dcInvalidateAt a).SameButCache (t.dcInvalidateAt a) := by
  obtain ⟨c, cap, rfl⟩ := h; exact ⟨_, cap, rfl⟩

theorem setIwbuf (h : s.SameButCache t) (w : Word) : (s.setIwbuf w).SameButCache (t.setIwbuf w) := by
  obtain ⟨c, cap, rfl⟩ := h; exact ⟨_, cap, rfl⟩

theorem insertBp (h : s.SameButCache t) (k : Nat) (b : Bool) :
    ({ s with bp := Sparse.insert k b s.bp } : State).SameButCache { t with bp := Sparse.insert k b t.bp } := by
  obtain ⟨c, cap, rfl⟩ := h; exact ⟨c, cap, rfl⟩

theorem eraseBp (h : s.SameButCache t) (k : Nat) :
    ({ s with bp := Sparse.erase k s.bp } : State).SameButCache { t with bp := Sparse.erase k t.bp } := by
  obtain ⟨c, cap, rfl⟩ := h; exact ⟨c, cap, rfl⟩

theorem setEnabled (h : s.SameButCache t) (a : Addr) (b : Bool) :
    (s.setEnabled a b).SameButCache (t.setEnabled a b) := (h.insertBp _ b).dcInvalidateAt a

theorem clearResume (h : s.SameButCache t) : s.clearResume.SameButCache t.clearResume := by
  obtain ⟨c, cap, rfl⟩ := h; exact ⟨c, cap, rfl⟩

theorem raiseFault (h : s.SameButCache t) (k : FaultCode) (a : Addr) :
    (s.raiseFault k a).SameButCache (t.raiseFault k a) := by
  obtain ⟨c, cap, rfl⟩ := h
  exact .ite (requestHalt ⟨c, cap, rfl⟩ _) ⟨c, cap, rfl⟩

theorem applyReply (h : s.SameButCache t) (a : Addr) (n : Nat) (r : WatchReply) (rest : List WatchReply) :
    (s.applyReply a n r rest).SameButCache (t.applyReply a n r rest) := by
  obtain ⟨c, cap, rfl⟩ := h
  rw [State.applyReply_eq, State.applyReply_eq]
  exact ⟨_, cap, rfl⟩

theorem finishIteration (h : s.SameButCache t) (a : Addr) (r : Record) :
    (s.finishIteration a r).SameButCache (t.finishIteration a r) := by
  obtain ⟨c, cap, rfl⟩ := h
  rw [State.finishIteration_eq, State.finishIteration_eq]
  exact ⟨c, cap, rfl⟩

theorem setSchedule (h : s.SameButCache t) (l : List Turn) :
    ({ s with port := { s.port with schedule := l } } : State).SameButCache
      { t with port := { t.port with schedule := l } } := by
  obtain ⟨c, cap, rfl⟩ := h; exact ⟨c, cap, rfl⟩

theorem haltTransition (h : s.SameButCache t) : s.haltTransition.SameButCache t.haltTransition := by
  obtain ⟨c, cap, rfl⟩ := h; exact ⟨c, cap, rfl⟩

theorem emit (h : s.SameButCache t) (e : PortEvent) : (s.emit e).SameButCache (t.emit e) := by
  obtain ⟨c, cap, rfl⟩ := h; exact ⟨c, cap, rfl⟩

theorem ok (h : s.SameButCache t) (q : Asked) (v : Value) : (s.ok q v).SameButCache (t.ok q v) := h.emit _

theorem err (h : s.SameButCache t) (q : Asked) (k : ErrKind) : (s.err q k).SameButCache (t.err q k) := h.emit _

/-! ## The memory side, the fill and `get` -/

/-- A read looks at WATCH, WATCHER's replies and the bytes of memory, so it gives both states the same value. -/
theorem memRead (h : s.SameButCache t) (a : Addr) (n : Nat) : EndsAlike SameValue (s.memRead a n) (t.memRead a n) := by
  obtain ⟨c, cap, rfl⟩ := h
  obtain ⟨c', hr⟩ := s.memRead_congr c s.bp cap a n
  rw [hr]
  cases hm : s.memRead a n with
  | next p =>
    refine .next ⟨rfl, c', cap, ?_⟩
    dsimp only
    rw [State.memRead_shape (b := p.1) (t := p.2) hm]
  | fault f => exact .fault f
  | refused q => exact .refused q

theorem memWrite (h : s.SameButCache t) (a : Addr) (b : List Byte) :
    EndsAlike State.SameButCache (s.memWrite a b) (t.memWrite a b) := by
  unfold State.memWrite
  rw [h.touchesWatch, h.env]
  split
  · split
    · exact .refused _
    · split
      · exact .next (h.applyReply _ _ _ _)
      · exact .fault _
  · exact .next (h.rawWrite a b)

theorem decodeAt (h : s.SameButCache t) (a : Addr) : EndsAlike SameValue (s.decodeAt a) (t.decodeAt a) :=
  (h.memRead a 4).andThenOf fun b _ _ k => .next ⟨(k.dec a (le32 b)).symm, k.setIwbuf (le32 b)⟩

theorem produce (h : s.SameButCache t) (a : Addr) : EndsAlike SameValue (s.produce a) (t.produce a) := by
  unfold State.produce
  rw [h.armed]
  split
  · exact .next ⟨rfl, h⟩
  · exact h.decodeAt a

end State.SameButCache

/-- `get` on a valid cache ends as a fill does (R148). -/
theorem State.CacheOk.dcGet_alike {s : State} (hs : s.CacheOk) (a : Addr) :
    EndsAlike SameValue (s.produce a) (s.dcGet a) := by
  cases hp : s.produce a with
  | next p =>
    obtain ⟨t, ht, he, -⟩ := hs.dcGet_of_produce (r := p.1) (u := p.2) hp
    rw [ht]
    exact .next ⟨rfl, .of_cache he⟩
  | fault f => rw [hs.dcGet_eq_produce_of_stop (by simp [hp]), hp]; exact .fault f
  | refused q => rw [hs.dcGet_eq_produce_of_stop (by simp [hp]), hp]; exact .refused q

/-- Whatever the two caches hold, `get` gives the same record: that of a fill (R148). -/
theorem State.SameButCache.dcGet {s t : State} (h : s.SameButCache t) (hs : s.CacheOk) (ht : t.CacheOk) (a : Addr) :
    EndsAlike SameValue (s.dcGet a) (t.dcGet a) :=
  ((hs.dcGet_alike a).symm.trans (h.produce a)).trans (ht.dcGet_alike a)

/-! ## The routines (R160) -/

section
variable {s t : State} (h : s.SameButCache t)
include h

theorem addRoutine_alike (a b : Src) (d : Dst) :
    EndsAlike State.SameButCache (addRoutine a b d s) (addRoutine a b d t) := by
  unfold addRoutine State.sumInto
  rw [h.val, h.val]
  exact .next (h.writeDst _ _)

theorem jalRoutine_alike (addr : Addr) (size : Nat) (off : Src) (pcDest link : Dst) :
    EndsAlike State.SameButCache (jalRoutine addr size off pcDest link s) (jalRoutine addr size off pcDest link t) := by
  unfold jalRoutine
  rw [h.val]
  exact .next ((h.writeDst _ _).writeDst _ _)

theorem lwRoutine_alike (base disp : Src) (d : Dst) :
    EndsAlike State.SameButCache (lwRoutine base disp d s) (lwRoutine base disp d t) := by
  rw [lwRoutine_eq, lwRoutine_eq, h.effectiveAddress]
  exact (h.memRead _ 4).andThenOf fun _ _ _ k => .next ((k.writeDst _ _).setLoad none)

theorem swRoutine_alike (base disp value : Src) :
    EndsAlike State.SameButCache (swRoutine base disp value s) (swRoutine base disp value t) := by
  unfold swRoutine
  rw [h.effectiveAddress, h.val]
  exact (h.memWrite _ _).andThen fun _ _ k => .next (k.dcInvalidate _ 4)

theorem ebreakRoutine_alike (addr : Addr) (d : Dst) :
    EndsAlike State.SameButCache (ebreakRoutine addr d s) (ebreakRoutine addr d t) := by
  unfold ebreakRoutine State.breakpointEvent
  rw [h.env]
  cases askHandlers addr s.env.bpHandlers with
  | decline => exact .next ((h.requestHalt _).writeDst _ _)
  | claim => exact .next h
  | claimAndHalt => exact .next (h.requestHalt _)

theorem malformedRoutine_alike (addr : Addr) :
    EndsAlike State.SameButCache (malformedRoutine addr s) (malformedRoutine addr t) := .next (h.raiseFault _ _)

theorem exec_alike (i : Instr) : EndsAlike State.SameButCache (exec i s) (exec i t) := by
  cases i with
  | add rd rs1 rs2 => exact addRoutine_alike h _ _ _
  | addi rd rs1 imm => exact addRoutine_alike h _ _ _
  | lw rd rs1 imm => exact lwRoutine_alike h _ _ _
  | sw rs1 rs2 imm => exact swRoutine_alike h _ _ _
  | jal rd imm =>
    simp only [exec, execJal, h.pc]
    exact jalRoutine_alike h _ _ _ _ _
  | ebreak =>
    simp only [exec, execEbreak, h.pc]
    exact ebreakRoutine_alike h _ _

/-- The arm is chosen by the record, which both states share, and runs a routine. -/
theorem executeForeign_alike (r : Record) :
    EndsAlike State.SameButCache (executeForeign r s) (executeForeign r t) := by
  unfold executeForeign
  split
  · split
    · exact addRoutine_alike h _ _ _
    · exact malformedRoutine_alike h _
  · split
    · exact addRoutine_alike h _ _ _
    · exact malformedRoutine_alike h _
  · split
    · exact jalRoutine_alike h _ _ _ _ _
    · exact malformedRoutine_alike h _
  · split
    · exact lwRoutine_alike h _ _ _
    · exact malformedRoutine_alike h _
  · split
    · exact swRoutine_alike h _ _ _
    · exact malformedRoutine_alike h _
  · split
    · exact ebreakRoutine_alike h _ _
    · exact malformedRoutine_alike h _
  · exact .next (h.raiseFault _ _)
  · exact malformedRoutine_alike h _

theorem execute_alike (r : Record) : EndsAlike State.SameButCache (execute r s) (execute r t) := by
  unfold execute
  rw [h.pc]
  split
  · exact exec_alike h _
  · exact executeForeign_alike h r

/-! ## The engine's step (R191, R195, R206) -/

theorem iteration_alike (hs : s.CacheOk) (ht : t.CacheOk) :
    EndsAlike State.SameButCache (iteration s) (iteration t) := by
  unfold iteration
  rw [h.pc]
  refine (h.dcGet hs ht s.regs.pc).andThenOf fun r _ _ k => ?_
  exact (execute_alike (k.setPcWritten false) r).andThen fun _ _ k => .next (k.finishIteration _ r)

/-- The record at the pc is the same in both, and disabling it around the iteration keeps both caches valid. -/
theorem resumeIteration_alike (hs : s.Inv) (ht : t.Inv) :
    EndsAlike State.SameButCache (resumeIteration s) (resumeIteration t) := by
  unfold resumeIteration
  dsimp only
  rw [h.pc, h.armed]
  split
  · refine (iteration_alike (h.setEnabled _ false) (hs.setEnabled _ _).cache (ht.setEnabled _ _).cache).andThen ?_
    exact fun _ _ k => .next (k.setEnabled _ true).clearResume
  · exact (iteration_alike h hs.cache ht.cache).andThen fun _ _ k => .next k.clearResume

theorem engineStep_alike (hs : s.Inv) (ht : t.Inv) :
    EndsAlike State.SameButCache (engineStep s) (engineStep t) := by
  unfold engineStep
  rw [h.run, h.stopCondition]
  split
  · exact .next h
  · split
    · exact resumeIteration_alike h hs ht
    · split
      · exact .next h.haltTransition
      · exact iteration_alike h hs.cache ht.cache

end

/-! ## The commands (R267) -/

namespace State.SameButCache

variable {s t : State}

theorem whenHalted (h : s.SameButCache t) (q : Asked) {f : State → State} (hf : (f s).SameButCache (f t)) :
    (s.whenHalted q f).SameButCache (t.whenHalted q f) := by
  obtain ⟨c, cap, rfl⟩ := h
  exact .ite hf (err ⟨c, cap, rfl⟩ q _)

theorem writeCell (h : s.SameButCache t) (x : Cell) (v : Word) : (s.writeCell x v).SameButCache (t.writeCell x v) := by
  obtain ⟨c, cap, rfl⟩ := h
  cases x with
  | x i => exact writeX ⟨c, cap, rfl⟩ i v
  | pc => exact .ite ⟨c, cap, rfl⟩ ⟨c, cap, rfl⟩

theorem readCell (h : s.SameButCache t) (x : Cell) : t.readCell x = s.readCell x := by
  obtain ⟨c, cap, rfl⟩ := h
  cases x <;> rfl

theorem clearRecords (h : s.SameButCache t) (l : BpTable) : (s.clearRecords l).SameButCache (t.clearRecords l) := by
  induction l generalizing s t with
  | nil => exact h
  | cons p l ih => exact ih ((h.eraseBp p.1).dcInvalidateAt _)

end State.SameButCache

section
variable {s t : State} (h : s.SameButCache t)
include h

theorem cmdHalt_alike : (cmdHalt s).SameButCache (cmdHalt t) := by
  obtain ⟨c, cap, rfl⟩ := h
  exact .ite ⟨c, cap, rfl⟩ ⟨c, cap, rfl⟩

theorem cmdWait_alike : (cmdWait s).SameButCache (cmdWait t) := by
  obtain ⟨c, cap, rfl⟩ := h
  exact .ite ⟨c, cap, rfl⟩ ⟨c, cap, rfl⟩

theorem cmdStep_alike (n : BitVec 32) : (cmdStep n s).SameButCache (cmdStep n t) := by
  refine h.whenHalted .step ?_
  obtain ⟨c, cap, rfl⟩ := h
  exact .ite ⟨c, cap, rfl⟩ ⟨c, cap, rfl⟩

theorem cmdRun_alike : (cmdRun s).SameButCache (cmdRun t) := by
  refine h.whenHalted .run ?_
  obtain ⟨c, cap, rfl⟩ := h
  exact ⟨c, cap, rfl⟩

theorem cmdReadRegister_alike (name : String) : (cmdReadRegister name s).SameButCache (cmdReadRegister name t) := by
  refine h.whenHalted .readRegister ?_
  split
  · exact h.err _ _
  · rw [h.readCell]; exact h.ok _ _

theorem cmdWriteRegister_alike (name : String) (v : Word) :
    (cmdWriteRegister name v s).SameButCache (cmdWriteRegister name v t) := by
  refine h.whenHalted .writeRegister ?_
  split
  · exact h.err _ _
  · exact (h.writeCell _ v).ok _ _

theorem cmdSetBreakpoint_alike (a : Addr) : (cmdSetBreakpoint a s).SameButCache (cmdSetBreakpoint a t) := by
  refine h.whenHalted .setBreakpoint ?_
  dsimp only
  rw [h.bpAt]
  split
  · exact ((h.insertBp _ true).dcInvalidateAt a).ok _ _
  · exact (h.dcInvalidateAt a).ok _ _

theorem cmdClearBreakpoint_alike (a : Addr) :
    (cmdClearBreakpoint a s).SameButCache (cmdClearBreakpoint a t) := by
  refine h.whenHalted .clearBreakpoint ?_
  rw [h.bpAt]
  split
  · exact h.err _ _
  · exact ((h.eraseBp _).dcInvalidateAt a).ok _ _

theorem managerIsEnabled_alike (a : Addr) : (managerIsEnabled a s).SameButCache (managerIsEnabled a t) := by
  refine h.whenHalted .isEnabled ?_
  rw [h.armed]
  exact h.ok _ _

theorem managerEnable_alike (a : Addr) : (managerEnable a s).SameButCache (managerEnable a t) := by
  refine h.whenHalted .enable ?_
  rw [h.bpAt]
  split
  · exact h.err _ _
  · exact (h.setEnabled a true).ok _ _

theorem managerDisable_alike (a : Addr) : (managerDisable a s).SameButCache (managerDisable a t) := by
  refine h.whenHalted .disable ?_
  rw [h.bpAt]
  split
  · exact h.err _ _
  · exact (h.setEnabled a false).ok _ _

theorem cmdGetInstruction_alike (hs : s.CacheOk) (ht : t.CacheOk) (a : Addr) :
    EndsAlike State.SameButCache (cmdGetInstruction a s) (cmdGetInstruction a t) := by
  unfold cmdGetInstruction
  rw [h.run]
  split
  · exact (h.dcGet hs ht a).andThenOf fun r _ _ k => .next (k.ok _ _)
  · exact .next (h.err _ _)

theorem State.realInstruction_alike (hs : s.CacheOk) (ht : t.CacheOk) (a : Addr) :
    EndsAlike SameValue (s.realInstruction a) (t.realInstruction a) := by
  unfold State.realInstruction
  rw [h.armed]
  split
  · exact h.decodeAt a
  · exact h.dcGet hs ht a

theorem cmdDisassemble_alike (hs : s.CacheOk) (ht : t.CacheOk) (a : Addr) :
    EndsAlike State.SameButCache (cmdDisassemble a s) (cmdDisassemble a t) := by
  unfold cmdDisassemble
  rw [h.run]
  split
  · exact (State.realInstruction_alike h hs ht a).andThenOf fun r _ _ k => .next (by rw [k.text]; exact k.ok _ _)
  · exact .next (h.err _ _)

theorem runManagerOp_alike (op : ManagerOp) : (runManagerOp op s).SameButCache (runManagerOp op t) := by
  cases op with
  | isEnabled a => exact managerIsEnabled_alike h a
  | enable a => exact managerEnable_alike h a
  | disable a => exact managerDisable_alike h a

/-- Every command ends alike, its response included: what a response carries is no part of the cache. -/
theorem runCommand_alike (hs : s.CacheOk) (ht : t.CacheOk) (c : Command) :
    EndsAlike State.SameButCache (runCommand c s) (runCommand c t) := by
  cases c with
  | halt => exact .next (cmdHalt_alike h)
  | step n => exact .next (cmdStep_alike h n)
  | run => exact .next (cmdRun_alike h)
  | wait => exact .next (cmdWait_alike h)
  | getRunStatus => obtain ⟨c, cap, rfl⟩ := h; exact .next ⟨c, cap, rfl⟩
  | getLastHaltReason => exact .next (h.whenHalted _ (by rw [h.run]; exact h.ok _ _))
  | readRegister name => exact .next (cmdReadRegister_alike h name)
  | writeRegister name v => exact .next (cmdWriteRegister_alike h name v)
  | readMemory a n => exact .next (h.whenHalted _ (by rw [h.rawRead]; exact h.ok _ _))
  | writeMemory a b => exact .next (h.whenHalted _ (((h.rawWrite a b).dcInvalidate a _).ok _ _))
  | setBreakpoint a => exact .next (cmdSetBreakpoint_alike h a)
  | clearBreakpoint a => exact .next (cmdClearBreakpoint_alike h a)
  | clearAllBreakpoints => exact .next (h.whenHalted _ (by rw [h.bp]; exact (h.clearRecords _).ok _ _))
  | hasBreakpoint a => exact .next (h.whenHalted _ (by rw [h.bpAt]; exact h.ok _ _))
  | getInstruction a => exact cmdGetInstruction_alike h hs ht a
  | disassemble a => exact cmdDisassemble_alike h hs ht a

end

/-! ## The step (R9) -/

theorem runTurn_alike {s t : State} (h : s.SameButCache t) (hs : s.Inv) (ht : t.Inv) (u : Turn) :
    EndsAlike State.SameButCache (runTurn u s) (runTurn u t) := by
  cases u with
  | engine => exact engineStep_alike h hs ht
  | host c => exact runCommand_alike h hs.cache ht.cache c
  | manager op => exact .next (runManagerOp_alike h op)
  | environment e => obtain ⟨c, cap, rfl⟩ := h; exact .next ⟨c, cap, rfl⟩
  | storeAroundEngine a b => exact .refused _

theorem step_alike {s t : State} (h : s.SameButCache t) (hs : s.Inv) (ht : t.Inv) :
    EndsAlike State.SameButCache (step s) (step t) := by
  have hsch : t.port.schedule = s.port.schedule := by rw [h.port]
  unfold step nextTurn
  rw [hsch]
  cases s.port.schedule with
  | nil => exact engineStep_alike h hs ht
  | cons u rest =>
    exact runTurn_alike (h.setSchedule rest) ((HostKept.setSchedule s rest).inv hs)
      ((HostKept.setSchedule t rest).inv ht) u

/-- Settles O58: the turn the two states take is the same one, and each turn ends alike. -/
theorem cacheUnobservable : Obligations.CacheUnobservable := by
  unfold Obligations.CacheUnobservable
  intro s t hs ht h
  exact (step_alike h hs ht).next_or_stop

end Sys2Proof.Machine

/-! The instructions one by one (R165 to R178): the value each leaves and what it leaves unchanged. A register
destination is accounted for by `OnlyRegister`, a word's bytes by the memory laws, a halt request by `requestHalt`. -/

namespace Sys2Proof.Machine

/-! ## Sums modulo 2^32 (R6, R161) -/

/-- Addition modulo 2^32 read on signed numbers: a word and an immediate add up as integers do (R10, R101). -/
theorem add_eq_ofInt {v w : Word} {n : Int} (h : w.toInt = n) : v + w = BitVec.ofInt 32 (v.toInt + n) := by
  rw [← h, BitVec.ofInt_add, BitVec.ofInt_toInt, BitVec.ofInt_toInt]

theorem add_sext12 (v : Word) (imm : BitVec 12) : v + sext12 imm = BitVec.ofInt 32 (v.toInt + imm.toInt) :=
  add_eq_ofInt (sext12_toInt imm)

theorem add_sext21 (v : Word) (imm : BitVec 21) : v + sext21 imm = BitVec.ofInt 32 (v.toInt + imm.toInt) :=
  add_eq_ofInt (sext21_toInt imm)

/-! ## `add`, `addi` and `jal` -/

theorem exec_add_eq (rd rs1 rs2 : Reg) (s : State) :
    exec (.add rd rs1 rs2) s = .next (s.writeDst (dstOf rd) (s.readX rs1 + s.readX rs2)) := by
  simp only [exec, execAdd, addRoutine, State.sumInto, State.val_srcOf]

theorem exec_addi_eq (rd rs1 : Reg) (imm : BitVec 12) (s : State) :
    exec (.addi rd rs1 imm) s = .next (s.writeDst (dstOf rd) (s.readX rs1 + sext12 imm)) := by
  simp only [exec, execAddi, addiRoutine, State.sumInto, State.val_srcOf, State.val_imm]

theorem exec_jal_eq (rd : Reg) (imm : BitVec 21) (s : State) :
    exec (.jal rd imm) s =
      .next ((s.writeDst .pc (s.regs.pc + sext21 imm)).writeDst (dstOf rd) (s.regs.pc + 4)) := rfl

@[simp] theorem State.writeDst_dstOf_load (s : State) (i : Reg) (v : Word) :
    (s.writeDst (dstOf i) v).load = s.load := by
  rw [State.writeDst_dstOf_rest]

/-- Settles O8: the sum is the value the destination is written with. -/
theorem addWritesSum : Obligations.AddWritesSum := by
  unfold Obligations.AddWritesSum
  intro s rd rs1 rs2
  refine ⟨_, exec_add_eq rd rs1 rs2 s, ?value, s.writeDst_dstOf_only rd _, s.writeDst_dstOf_load rd _⟩
  rw [State.readX_writeDst_dstOf]
  split
  · rfl
  · exact BitVec.toNat_add _ _

/-- Settles O9: the sum is the value the destination is written with. -/
theorem addiWritesSum : Obligations.AddiWritesSum := by
  unfold Obligations.AddiWritesSum
  intro s rd rs1 imm
  refine ⟨_, exec_addi_eq rd rs1 imm s, ?value, s.writeDst_dstOf_only rd _, s.writeDst_dstOf_load rd _⟩
  rw [State.readX_writeDst_dstOf, add_sext12]

/-- Settles O10: the pc destination is submitted first (`State.writeDst_pc`), and the link leaves what that wrote. -/
theorem jalJumpsAndLinks : Obligations.JalJumpsAndLinks := by
  unfold Obligations.JalJumpsAndLinks
  intro s rd imm
  refine ⟨_, exec_jal_eq rd imm s, ?_⟩
  have only := (s.writeDst .pc (s.regs.pc + sext21 imm)).writeDst_dstOf_only rd (s.regs.pc + 4)
  refine ⟨?target, ?link, only.registers, only.slots, only.ownSlot, only.zeroSlot, only.pcSlot, only.run, only.memory,
    only.bp, only.cache, only.counters, State.writeDst_dstOf_load _ rd _, only.faultLog, only.port, only.params,
    only.env⟩
  case target => exact only.pc.trans (add_sext21 s.regs.pc imm)
  case link =>
    rw [State.readX_writeDst_dstOf]
    split
    · rfl
    · exact BitVec.toNat_add _ _

/-! ## `lw` and `sw` outside WATCH -/

theorem OnlyRegister.setLoad {rd : Reg} {s t : State} (h : OnlyRegister rd s t) (l : Option LoadPending) :
    OnlyRegister rd s (t.setLoad l) :=
  ⟨h.registers, h.pc, h.slots, h.ownSlot, h.zeroSlot, h.pcSlot, h.run, h.memory, h.bp, h.cache, h.counters, h.faultLog,
    h.port, h.params, h.env⟩

/-- Byte k of the word in the backing store at `a` is the byte at `a + k` (R66). -/
theorem State.extractLsb'_le32_rawRead (s : State) (a : Addr) {k : Nat} (hk : k < 4) :
    (le32 (s.rawRead a 4)).extractLsb' (8 * k) 8 = s.mem.byte (a + BitVec.ofNat 32 k) := by
  rw [extractLsb'_le32 (s.rawRead_length a 4) (by simpa using hk)]
  simp [State.rawRead]

/-- A stored word leaves byte k at `a + k` (R66). -/
theorem Memory.byte_storeBytes_bytesLe32 (m : Memory) (a : Addr) (v : Word) {k : Nat} (hk : k < 4) :
    (m.storeBytes a (bytesLe32 v)).byte (a + BitVec.ofNat 32 k) = v.extractLsb' (8 * k) 8 := by
  rw [Memory.byte_storeBytes_inside m a (bytesLe32 v) k (by simp) hk, bytesLe32_getElem v k hk]

/-- Settles O11: the word read goes to `rd` as `add` writes it, and the suspended-load record is gone. -/
theorem lwLoadsWord : Obligations.LwLoadsWord := by
  unfold Obligations.LwLoadsWord
  intro s rd rs1 imm hw
  refine ⟨_, exec_lw_unwatched hw, ?zero, ?value, (s.writeDst_dstOf_only rd _).setLoad none, rfl⟩
  case zero => rintro rfl; rfl
  case value =>
    intro h0 k hk
    have hrd := s.readX_writeDst_dstOf rd (le32 (s.rawRead (s.readX rs1 + sext12 imm) 4))
    rw [if_neg h0] at hrd
    exact (congrArg (BitVec.extractLsb' (8 * k) 8) hrd).trans (s.extractLsb'_le32_rawRead _ hk)

/-- Settles O13: the four bytes are stored, and the invalidation drops the cache entries over them. -/
theorem swStoresWord : Obligations.SwStoresWord := by
  unfold Obligations.SwStoresWord
  intro s rs1 rs2 imm hw
  rw [State.effectiveAddress_srcOf_imm] at hw ⊢
  refine ⟨_, exec_sw_unwatched hw, add_sext12 _ imm, ?stored, ?outside, ?entries, rfl, rfl, rfl, rfl, rfl, rfl, rfl, rfl,
    rfl, rfl, rfl⟩
  case stored => exact fun k hk => s.mem.byte_storeBytes_bytesLe32 _ _ hk
  case outside => exact fun x hx => s.mem.byte_storeBytes_outside _ x _ hx
  case entries => exact fun e => State.mem_dcInvalidate

/-! ## `ebreak` (R176, R282) -/

/-- "first responder wins": handlers that decline do not change who answers, nor do those after the first that claims
(R282). -/
theorem askHandlers_eq_first {a : Addr} {before after : List BpHandler} {h : BpHandler}
    (hb : ∀ g ∈ before, g.answer a = .decline) (hne : h.answer a ≠ .decline) :
    askHandlers a (before ++ h :: after) = h.answer a := by
  induction before with
  | nil =>
    simp only [List.nil_append, askHandlers]
    cases hans : h.answer a with
    | decline => exact absurd hans hne
    | claim => rfl
    | claimAndHalt => rfl
  | cons g before ih =>
    have hg := hb g List.mem_cons_self
    simp only [List.cons_append, askHandlers, hg]
    exact ih fun c hc => hb c (List.mem_cons_of_mem g hc)

/-- `ebreak` over an event that is claimed leaves what the claim leaves (R176). -/
theorem exec_ebreak_claimed {s t : State} (h : s.breakpointEvent s.regs.pc = (true, t)) :
    exec .ebreak s = .next t := by
  simp [exec, execEbreak, ebreakRoutine, h]

/-- Settles O16: the halt request, and the pc destination submitted with the instruction's own address. -/
theorem ebreakRequestsHalt : Obligations.EbreakRequestsHalt := by
  unfold Obligations.EbreakRequestsHalt
  intro s hdecline
  exact ⟨_, exec_ebreak_unclaimed hdecline, rfl, rfl, fun _ => rfl, rfl, rfl, fun _ => rfl, rfl, rfl, rfl, rfl, rfl, rfl,
    rfl, rfl⟩

/-- Settles O17: the event ends with the first handler that claims, and `ebreak` adds nothing to its answer. -/
theorem claimedEbreakFallsThrough : Obligations.ClaimedEbreakFallsThrough := by
  unfold Obligations.ClaimedEbreakFallsThrough
  intro s before after h hl hb
  have hask (hne : h.answer s.regs.pc ≠ .decline) :
      askHandlers s.regs.pc s.env.bpHandlers = h.answer s.regs.pc := hl ▸ askHandlers_eq_first hb hne
  refine ⟨fun hans => exec_ebreak_claimed ?_, fun hans => exec_ebreak_claimed ?_⟩
  · rw [State.breakpointEvent, hask (by simp [hans]), hans]
  · rw [State.breakpointEvent, hask (by simp [hans]), hans]; rfl

/-! ## A step over an illegal word (R178, R283) -/

/-- A fault as one update: the handler's request to halt counts only outside `Halted` (R283, R199). -/
theorem State.raiseFault_eq (s : State) (k : FaultCode) (a : Addr) :
    s.raiseFault k a = { s with
      faultLog := s.faultLog ++ [(k, a)]
      run := if s.env.faultHandler.halts k a = true ∧ s.run.runState ≠ .halted then
        { s.run with haltReq := true, haltReason := .userRequest } else s.run } := by
  unfold State.raiseFault
  by_cases hh : s.env.faultHandler.halts k a = true <;> by_cases hr : s.run.runState = .halted <;>
    simp [hh, hr, State.requestHalt]

/-- A read of the memory side as one update of the state before: of run control it changes the halt request and its
reason at most (R63, R199). -/
theorem State.exists_memRead_eq {s t : State} {a : Addr} {n : Nat} {b : List Byte} (h : s.memRead a n = .next (b, t)) :
    ∃ mem cache watcher haltReq haltReason, t = { s with
      mem := mem, cache := cache, env := { s.env with watcher := watcher }
      run := { s.run with haltReq := haltReq, haltReason := haltReason } } := by
  rcases State.memRead_next h with ⟨_, _, rfl⟩ | ⟨_, r, rest, _, _, _, _, rfl⟩
  · exact ⟨t.mem, t.cache, t.env.watcher, t.run.haltReq, t.run.haltReason, rfl⟩
  · rw [State.applyReply_eq]
    split
    · exact ⟨_, _, _, _, _, rfl⟩
    · exact ⟨_, _, _, s.run.haltReq, s.run.haltReason, rfl⟩

/-- Where the machine's decoder follows DEC6, a word that no row matches has the illegal record (R102, R105). -/
theorem Params.dec_illegal {p : Params} {a : Addr} {w : Word} {e : Reject} (hl : p.decoder.lookup (a, w) = none)
    (hd : decode w = .error e) : p.dec a w = illegalRecord a := by
  simp [Params.dec, hl, dec6_of_error hd]

/-- An iteration over a word that is no instruction raises the fault and adds the loop's own work (R178, R191). -/
theorem iteration_of_illegal {s f : State} {b : List Byte} {e : Reject} (hc : s.CacheOk)
    (ha : s.armed s.regs.pc = false) (hm : s.memRead s.regs.pc 4 = .next (b, f))
    (hl : s.params.decoder.lookup (s.regs.pc, le32 b) = none) (hd : decode (le32 b) = .error e) :
    ∃ c, iteration s = .next
      ((({ f with cache := c } : State).setPcWritten false |>.raiseFault .illegalInstruction s.regs.pc).finishIteration
        s.regs.pc (illegalRecord s.regs.pc)) := by
  obtain ⟨c, hit⟩ := iteration_of_memRead hc ha hm
  rw [Params.dec_illegal hl hd, execute_illegalRecord] at hit
  exact ⟨c, hit⟩

/-- Settles O27: the step is an iteration over the illegal record; the fault, the count and the pc come after the
fetch's read and leave what that wrote. -/
theorem illegalStepLogsAndGoesOn : Obligations.IllegalStepLogsAndGoesOn := by
  unfold Obligations.IllegalStepLogsAndGoesOn
  intro s f b e hi hsch hrun hres hstop ha hm hl hd
  refine ⟨fun hw => ?unwatched, ?_⟩
  case unwatched =>
    rw [State.memRead_unwatched hw] at hm
    cases hm; rfl
  obtain ⟨c, hit⟩ := iteration_of_illegal hi.cache ha hm hl hd
  refine ⟨_, (step_eq_iteration hsch hrun hres hstop).trans hit, ?_⟩
  obtain ⟨mem, cache, watcher, haltReq, haltReason, rfl⟩ := State.exists_memRead_eq hm
  rw [State.finishIteration_eq, State.raiseFault_eq]
  have hcnt := s.cntOp_count (t := .illegal) (by decide)
  refine ⟨rfl, ?regs, rfl, rfl, rfl, rfl, (hcnt _).trans (if_pos rfl), fun g hg => (hcnt g).trans (if_neg hg), ?run,
    rfl, rfl, rfl⟩
  case regs =>
    cases hh : s.env.faultHandler.halts .illegalInstruction s.regs.pc <;> simp [hh, hrun, illegalRecord, Config.isize]
  case run =>
    cases hh : s.env.faultHandler.halts .illegalInstruction s.regs.pc <;>
      by_cases hs : s.run.runState = .singleStepping <;> simp [hh, hrun, hs]

end Sys2Proof.Machine

/-! Run control (R190 to R210): the loop's own work and the halt transition, who can end a run and who can count, the
resume iteration, and the commands that start, stop and observe a run. -/

namespace Sys2Proof.Machine

/-! ## The run-control commands (R200 to R205) -/

theorem State.whenHalted_of_halted {s : State} (h : s.run.runState = .halted) (q : Asked) (f : State → State) :
    s.whenHalted q f = f s := if_pos h

theorem State.whenHalted_of_notHalted {s : State} (h : s.run.runState ≠ .halted) (q : Asked) (f : State → State) :
    s.whenHalted q f = s.emit (.response q (.err .precondition)) := if_neg h

/-- What the response to a command answers (R267). -/
def Command.asked : Command → Asked
  | .halt => .halt
  | .step _ => .step
  | .run => .run
  | .wait => .wait
  | .getRunStatus => .getRunStatus
  | .getLastHaltReason => .getLastHaltReason
  | .readRegister _ => .readRegister
  | .writeRegister _ _ => .writeRegister
  | .readMemory _ _ => .readMemory
  | .writeMemory _ _ => .writeMemory
  | .setBreakpoint _ => .setBreakpoint
  | .clearBreakpoint _ => .clearBreakpoint
  | .clearAllBreakpoints => .clearAllBreakpoints
  | .hasBreakpoint _ => .hasBreakpoint
  | .getInstruction _ => .getInstruction
  | .disassemble _ => .disassemble

/-- The command is valid in a state other than `Halted` (R210). -/
def Command.validInRun (c : Command) : Prop := c = .halt ∨ c = .wait ∨ c = .getRunStatus

/-- Outside `Halted` every command but `halt`, `wait` and `get_run_status` is a precondition error (R210). -/
theorem runCommand_of_notHalted {s : State} (hh : s.run.runState ≠ .halted) {c : Command} (hc : ¬ c.validInRun) :
    runCommand c s = .next (s.emit (.response c.asked (.err .precondition))) := by
  cases c with
  | halt => exact absurd (.inl rfl) hc
  | wait => exact absurd (.inr (.inl rfl)) hc
  | getRunStatus => exact absurd (.inr (.inr rfl)) hc
  | getInstruction a => exact if_neg hh
  | disassemble a => exact if_neg hh
  | _ => exact congrArg Host.Outcome.next (State.whenHalted_of_notHalted hh _ _)

/-- Settles O38: no command of the table is valid outside `Halted`. -/
theorem preconditionTable : Obligations.PreconditionTable := by
  unfold Obligations.PreconditionTable
  intro s n name v a k b hh p hp
  have hasked : p.2 = p.1.asked ∧ ¬ p.1.validInRun := by
    revert p
    simp [Command.asked, Command.validInRun]
  rw [hasked.1]
  exact runCommand_of_notHalted hh hasked.2

/-- The budget of a positive signed count is the count itself (R200). -/
theorem toNat_setWidth_of_toInt_pos {n : BitVec 32} (h : 0 < n.toInt) : ((n.setWidth 31).toNat : Int) = n.toInt := by
  have hlt := n.isLt
  rw [BitVec.toNat_setWidth]
  rw [BitVec.toInt_eq_toNat_cond] at h ⊢
  split at h <;> omega

/-- Settles O34: the run-state test comes first, then the count's; what is accepted changes run control only. -/
theorem stepCommand : Obligations.StepCommand := by
  unfold Obligations.StepCommand
  intro s n
  have hstep : runCommand (.step n) s = .next (cmdStep n s) := rfl
  refine ⟨fun hh => ?_, fun hh hn => ?_, fun hh hn => ?_⟩
  · exact runCommand_of_notHalted hh (by simp [Command.validInRun])
  · rw [hstep, cmdStep, State.whenHalted_of_halted hh, if_pos hn]; rfl
  · rw [hstep, cmdStep, State.whenHalted_of_halted hh, if_neg (by omega)]
    exact ⟨_, rfl, rfl, rfl, toNat_setWidth_of_toInt_pos hn, rfl, rfl, rfl, by simp, rfl, rfl⟩

/-- Settles O35: `Accept()`, the state `Running` and the response are one transition. -/
theorem runStartsAtOnce : Obligations.RunStartsAtOnce := by
  unfold Obligations.RunStartsAtOnce
  intro s
  refine ⟨fun hh => ?_, fun hh => ?_⟩
  · exact runCommand_of_notHalted hh (by simp [Command.validInRun])
  · exact congrArg Host.Outcome.next (State.whenHalted_of_halted hh _ _)

/-- Settles O36: each of the two commands in each of the two cases of its run-state test. -/
theorem haltAndWaitCommands : Obligations.HaltAndWaitCommands := by
  unfold Obligations.HaltAndWaitCommands
  intro s
  refine ⟨fun hh => ?_, fun hh => ?_, fun hh => ?_, fun hh => ?_⟩
  · exact congrArg Host.Outcome.next (if_pos hh)
  · simp [runCommand, cmdHalt, hh, State.requestHalt, State.ok, State.emit]
  · exact congrArg Host.Outcome.next (if_pos hh)
  · exact congrArg Host.Outcome.next (if_neg hh)

/-- Settles O37: the status is answered in every state, the reason by the run-state test. -/
theorem statusCommands : Obligations.StatusCommands := by
  unfold Obligations.StatusCommands
  intro s
  refine ⟨rfl, ?_⟩
  by_cases hh : s.run.runState = .halted
  · rw [if_pos hh]
    exact congrArg Host.Outcome.next (State.whenHalted_of_halted hh _ _)
  · rw [if_neg hh]
    exact runCommand_of_notHalted hh (by simp [Command.validInRun])

/-! ## The loop's own work and the halt transition (R191 to R198) -/

theorem tagOf_ne_lwChild (i : Instr) : tagOf i ≠ .lwChild := by cases i <;> simp [tagOf]

/-- Settles O26: the counters by the law of `count`; the pc and the budget by the two tests of the loop. -/
theorem finishCountsAndAdvances : Obligations.FinishCountsAndAdvances := by
  unfold Obligations.FinishCountsAndAdvances
  intro u a i
  rw [State.finishIteration_eq]
  have hcnt := u.cntOp_count (tagOf_ne_lwChild i)
  exact ⟨rfl, (hcnt _).trans (if_pos rfl), fun g hg => (hcnt g).trans (if_neg hg), fun hp => if_pos hp,
    fun hp => if_neg (by simp [hp]), fun hs => if_pos hs, fun hs => if_neg hs, rfl⟩

/-- Of run control the loop's own work writes the step budget at most (R191). -/
theorem State.finishIteration_run (u : State) (a : Addr) (r : Record) :
    (u.finishIteration a r).run = { u.run with
      stepLeft := if u.run.runState = .singleStepping then u.run.stepLeft - 1 else u.run.stepLeft
      stepDone := if u.run.runState = .singleStepping then u.run.stepDone + 1 else u.run.stepDone } := by
  rw [State.finishIteration_eq]
  dsimp only
  split <;> rfl

/-- With no turn listed the next transition is the engine's (log 6). -/
theorem step_of_emptySchedule {s : State} (h : s.port.schedule = []) : step s = engineStep s := by
  simp [step, nextTurn, h]

/-- Settles O29: the engine's turn is the halt transition, whose pulse or answer depends on the kind of run. -/
theorem haltTransitionAnswers : Obligations.HaltTransitionAnswers := by
  unfold Obligations.HaltTransitionAnswers
  intro s hsch hrun hres hstop
  have hstep : step s = .next s.haltTransition := by
    simp [step_of_emptySchedule hsch, engineStep, hrun, hres, hstop]
  rw [hstep, State.haltTransition, State.haltEvents, ← List.append_assoc]
  cases hs : s.run.runState with
  | halted => exact absurd hs hrun
  | running => simp
  | singleStepping => simp

/-! ## Who ends a run (R190, R201, R322) -/

/-- While not `Halted`, no host command changes the run state: `halt` is a request, not a transition (R202). -/
theorem runCommand_runState {c : Command} {s t : State} (hh : s.run.runState ≠ .halted)
    (h : runCommand c s = .next t) : t.run.runState = s.run.runState := by
  by_cases hc : c.validInRun
  · obtain rfl | rfl | rfl := hc
    · cases h; simp [cmdHalt, hh, State.ok]
    · cases h; simp [cmdWait, hh]
    · cases h; rfl
  · rw [runCommand_of_notHalted hh hc] at h
    cases h; rfl

/-- While not `Halted`, the breakpoint manager's port gives precondition errors only (R230). -/
theorem runManagerOp_of_notHalted {s : State} (hh : s.run.runState ≠ .halted) (op : ManagerOp) :
    ∃ q, runManagerOp op s = s.emit (.response q (.err .precondition)) := by
  cases op with
  | isEnabled a => exact ⟨.isEnabled, if_neg hh⟩
  | enable a => exact ⟨.enable, if_neg hh⟩
  | disable a => exact ⟨.disable, if_neg hh⟩

/-- While not `Halted`, no turn but the engine's changes the run state. -/
theorem runTurn_runState {u : Turn} {s t : State} (hu : u ≠ .engine) (hh : s.run.runState ≠ .halted)
    (h : runTurn u s = .next t) : t.run.runState = s.run.runState := by
  cases u with
  | engine => exact absurd rfl hu
  | host c => exact runCommand_runState hh h
  | manager op =>
    obtain ⟨q, hq⟩ := runManagerOp_of_notHalted hh op
    cases h; rw [hq]; rfl
  | environment e => cases h; rfl
  | storeAroundEngine a b => cases h

/-- An iteration does not end a run: that is left to the stop condition after it (R191, R194). -/
theorem iteration_runState {s t : State} (h : iteration s = .next t) : t.run.runState = s.run.runState := by
  obtain ⟨r, u, hk, rfl⟩ := iteration_kept h
  rw [State.finishIteration_run]
  exact hk.control.runState

theorem resumeIteration_runState {s t : State} (h : resumeIteration s = .next t) :
    t.run.runState = s.run.runState := by
  obtain ⟨u, hu, rfl⟩ | ⟨u, hu, rfl⟩ := resumeIteration_next h
  · exact iteration_runState (s := s.setEnabled s.regs.pc false) (t := u) hu
  · exact iteration_runState (t := u) hu

/-- An engine step that ends a run is the halt transition, taken when the stop condition holds (R195, R198). -/
theorem engineStep_halts {s t : State} (h : engineStep s = .next t) (hh : s.run.runState ≠ .halted)
    (ht : t.run.runState = .halted) : t = s.haltTransition ∧ s.stopCondition = true := by
  obtain rfl | ⟨-, ⟨-, h⟩ | ⟨hb, rfl⟩ | ⟨-, -, h⟩⟩ := engineStep_next h
  · exact absurd ht hh
  · exact absurd (resumeIteration_runState h ▸ ht) hh
  · refine ⟨rfl, ?_⟩
    by_contra hs
    have hit : iteration s = .next s.haltTransition := by simpa [engineStep, hh, hb, hs] using h
    exact hh (iteration_runState hit).symm
  · exact absurd (iteration_runState h ▸ ht) hh

/-- A step that ends a run is the engine's turn, at the state with the schedule advanced (R9, log 6). -/
theorem step_halts {s t : State} (h : step s = .next t) (hh : s.run.runState ≠ .halted)
    (ht : t.run.runState = .halted) :
    (s.port.schedule = [] ∨ ∃ rest, s.port.schedule = Turn.engine :: rest) ∧
      engineStep { s with port := { s.port with schedule := s.port.schedule.tail } } = .next t := by
  unfold step nextTurn at h
  split at h
  · next hs =>
    refine ⟨.inl hs, ?_⟩
    rw [hs, List.tail_nil, ← hs]; exact h
  · next u rest hs =>
    by_cases hu : u = .engine
    · subst hu
      refine ⟨.inr ⟨rest, hs⟩, ?_⟩
      rw [hs]; exact h
    · have hrun : t.run.runState = s.run.runState :=
        runTurn_runState (s := { s with port := { s.port with schedule := rest } }) hu hh h
      exact absurd (hrun ▸ ht) hh

/-- Settles O30: the engine's turn alone changes the run state, by the halt transition; a background run has no budget,
so that its stop condition is a request. -/
theorem onlyHaltTransitionHalts : Obligations.OnlyHaltTransitionHalts := by
  unfold Obligations.OnlyHaltTransitionHalts
  intro s t h hh ht
  obtain ⟨hturn, he⟩ := step_halts h hh ht
  obtain ⟨rfl, hstop⟩ := engineStep_halts he hh ht
  refine ⟨hturn, rfl, hstop, fun hr => ?_⟩
  have hreq : s.run.haltReq = true := by simpa [State.stopCondition, hr] using hstop
  exact ⟨hreq, fun hi => (hi.runControl.reason hh).1 hreq⟩

/-! ## Who counts (R37, R195) -/

/-- Every turn but the engine's is accounted for (R9). -/
theorem runTurn_hostKept {u : Turn} {s t : State} (hu : u ≠ .engine) (h : runTurn u s = .next t) : HostKept s t := by
  cases u with
  | engine => exact absurd rfl hu
  | host c => exact runCommand_hostKept h
  | manager op => cases h; exact runManagerOp_hostKept op s
  | environment e =>
    cases h
    exact ⟨fun h => h.of_same (h.runControl.of_same rfl rfl) rfl rfl rfl rfl rfl rfl, rfl, rfl, rfl⟩
  | storeAroundEngine a b => cases h

theorem engineStep_of_halted {s : State} (h : s.run.runState = .halted) : engineStep s = .next s := if_pos h

/-- Settles O31: the engine is idle in `Halted`, and the account of every other turn covers the three parts. -/
theorem onlyEngineCounts : Obligations.OnlyEngineCounts := by
  unfold Obligations.OnlyEngineCounts
  intro s t u h hu
  by_cases he : u = .engine
  · subst he
    have hidle := engineStep_of_halted (hu.resolve_left (absurd rfl))
    cases hidle.symm.trans h
    exact ⟨rfl, rfl, rfl, fun _ => rfl⟩
  · have hk := runTurn_hostKept he h
    exact ⟨hk.counters, hk.load, hk.faultLog, fun e => absurd e he⟩

/-! ## An iteration over an instruction (R160, R191) -/

/-- Where the machine's decoder follows DEC6, a word that decodes has the instruction's record (R102, R103). -/
theorem Params.dec_instr {p : Params} {a : Addr} {w : Word} {i : Instr} (hl : p.decoder.lookup (a, w) = none)
    (hd : decode w = .ok i) : p.dec a w = recordOf a i := by
  simp [Params.dec, hl, dec6_of_ok hd]

/-- An iteration over the word of an instruction is `exec` of it at the state after the fetch, then the loop's own work
(R160, R191). -/
theorem iteration_of_instr {s f : State} {w : List Byte} {i : Instr} (hc : s.CacheOk)
    (ha : s.armed s.regs.pc = false) (hm : s.memRead s.regs.pc 4 = .next (w, f))
    (hl : s.params.decoder.lookup (s.regs.pc, le32 w) = none) (hd : decode (le32 w) = .ok i) :
    ∃ c, iteration s = Result.andThen (exec i (({ f with cache := c } : State).setPcWritten false))
      fun u => .next (u.finishIteration s.regs.pc (recordOf s.regs.pc i)) := by
  obtain ⟨c, hit⟩ := iteration_of_memRead hc ha hm
  have hpc : f.regs.pc = s.regs.pc := by rw [State.memRead_shape hm]
  rw [Params.dec_instr hl hd] at hit
  have hex := execute_recordOf (s := ({ f with cache := c } : State).setPcWritten false) hpc i
  exact ⟨c, hit.trans (congrArg (Result.andThen · _) hex)⟩

/-- A watched read in a run with no halt request: afterwards one is recorded exactly if WATCHER makes it (R63, R199). -/
theorem State.applyReply_of_noRequest {s : State} (hh : s.run.runState ≠ .halted) (hq : s.run.haltReq = false)
    (a : Addr) (n : Nat) (r : WatchReply) (rest : List WatchReply) :
    s.applyReply a n r rest = { s with
      mem := s.mem.storeCells r.writes
      env := { s.env with watcher := rest }
      cache := (s.dcInvalidate a n).cache
      run := { s.run with
        haltReq := r.halt
        haltReason := if r.halt then .semihostRequest else s.run.haltReason } } := by
  rw [State.applyReply_eq]
  cases hr : r.halt with
  | true => simp [hh]
  | false =>
    have hrun : s.run = { s.run with haltReq := false } := by rw [← hq]
    simpa using hrun

/-- Settles O25: the step is an iteration over the instruction; the two clauses differ in what the fetch's read
leaves. -/
theorem stepRunsDecodedInstruction : Obligations.StepRunsDecodedInstruction := by
  unfold Obligations.StepRunsDecodedInstruction
  intro s i hi hsch hrun hres hstop ha
  rw [step_eq_iteration hsch hrun hres hstop]
  refine ⟨fun hw hl hd => ?unwatched, fun r rest hw he hlen hin hl hd => ?watched⟩
  case unwatched => exact iteration_of_instr hi.cache ha (State.memRead_unwatched hw) hl hd
  case watched =>
    have hq : s.run.haltReq = false := (Bool.or_eq_false_iff.1 hstop).1
    have hm := State.memRead_reply hw he hlen hin
    rw [State.applyReply_of_noRequest hrun hq] at hm
    obtain ⟨c, hit⟩ := iteration_of_instr hi.cache ha hm hl hd
    exact ⟨c, hit⟩

/-! ## The resume iteration (R206, R208) -/

/-- With a resume due, the engine's turn is the resume iteration, whatever HALT_REQ is (R195). -/
theorem step_eq_resumeIteration {s : State} (hsch : s.port.schedule = []) (hrun : s.run.runState ≠ .halted)
    (hres : s.run.resumeBp = true) : step s = resumeIteration s := by
  simp [step_of_emptySchedule hsch, engineStep, hrun, hres]

theorem State.armed_setEnabled_false (s : State) (a : Addr) : (s.setEnabled a false).armed a = false := by
  simp [State.armed]

/-- A read of memory does not look at the breakpoint record that the resume iteration disables (R62). -/
theorem State.memRead_setEnabled {s f : State} {a : Addr} {n : Nat} {w : List Byte} (x : Addr) (b : Bool)
    (h : s.memRead a n = .next (w, f)) :
    ∃ c, (s.setEnabled x b).memRead a n = .next (w, { f with cache := c, bp := Sparse.insert x.toNat b s.bp }) := by
  obtain ⟨c, hc⟩ := s.memRead_congr (s.setEnabled x b).cache (Sparse.insert x.toNat b s.bp) s.params.cacheCap a n
  refine ⟨c, hc.trans ?_⟩
  rw [h, State.memRead_shape h]; rfl

/-- The record enabled again after an iteration that began with it disabled: the table is as it was (R206). -/
theorem State.BpOk.insert_insert_of_armed {s : State} (hs : s.BpOk) {a : Addr} (ha : s.armed a = true) :
    Sparse.insert a.toNat true (Sparse.insert a.toNat false s.bp) = s.bp :=
  Sparse.insert_insert_of_lookup hs.sorted false (by simpa [State.armed] using ha)

/-- Settles O32: the resume iteration is `exec` of the real instruction between the two writes of the record, which
no instruction touches. -/
theorem resumeExecutesOriginalOnce : Obligations.ResumeExecutesOriginalOnce := by
  unfold Obligations.ResumeExecutesOriginalOnce
  intro s f w i hi hsch hrun hres ha hm hl hd
  refine ⟨fun hw => ?unwatched, ?_⟩
  case unwatched =>
    rw [State.memRead_unwatched hw] at hm
    cases hm; exact ⟨rfl, rfl⟩
  obtain ⟨c', hm'⟩ := State.memRead_setEnabled s.regs.pc false hm
  obtain ⟨c, hit⟩ := iteration_of_instr (hi.setEnabled _ false).cache (State.armed_setEnabled_false s _) hm' hl hd
  refine ⟨c, Sparse.insert s.regs.pc.toNat false s.bp, Sparse.lookup_insert_self .., fun x hx =>
    Sparse.lookup_insert_ne hx _ _, fun u hu => ?_⟩
  have hstep : step s = .next
      (((u.finishIteration s.regs.pc (recordOf s.regs.pc i)).setEnabled s.regs.pc true).clearResume) := by
    rw [step_eq_resumeIteration hsch hrun hres, resumeIteration, if_pos ha, hit]
    exact congrArg (fun o => Result.andThen (Result.andThen o _) _) hu
  have hbp : u.bp = Sparse.insert s.regs.pc.toNat false s.bp := (exec_kept hu).control.bp
  have htable : (((u.finishIteration s.regs.pc (recordOf s.regs.pc i)).setEnabled s.regs.pc true).clearResume).bp
      = s.bp := by
    rw [State.clearResume_bp, State.setEnabled_bp, State.finishIteration_eq, State.count_bp, hbp]
    exact hi.breakpoints.insert_insert_of_armed ha
  refine ⟨_, hstep, ?_, ?_⟩
  · rw [State.armed, htable]; exact ha
  · rw [← htable]; rfl

/-- An iteration over a program's own `ebreak` that nobody claims requests the halt and stays on it (R176, R243). -/
theorem iteration_of_ebreak {s f : State} {w : List Byte} (hc : s.CacheOk) (ha : s.armed s.regs.pc = false)
    (hm : s.memRead s.regs.pc 4 = .next (w, f)) (hl : s.params.decoder.lookup (s.regs.pc, le32 w) = none)
    (hd : decode (le32 w) = .ok .ebreak) (hdecline : ∀ h ∈ s.env.bpHandlers, h.answer s.regs.pc = .decline) :
    ∃ c, iteration s = .next (State.finishIteration
      (((({ f with cache := c } : State).setPcWritten false).requestHalt .softwareBreakpoint).writeDst .pc f.regs.pc)
      s.regs.pc (recordOf s.regs.pc .ebreak)) := by
  obtain ⟨c, hit⟩ := iteration_of_instr hc ha hm hl hd
  have hdecline' : ∀ h ∈ f.env.bpHandlers, h.answer f.regs.pc = .decline := by
    rw [State.memRead_shape hm]; exact hdecline
  have hex := exec_ebreak_unclaimed (s := ({ f with cache := c } : State).setPcWritten false) hdecline'
  exact ⟨c, hit.trans (congrArg (Result.andThen · _) hex)⟩

/-- Settles O33: with no record the resume iteration is an ordinary one, over an `ebreak` that nobody claims. -/
theorem programEbreakStays : Obligations.ProgramEbreakStays := by
  unfold Obligations.ProgramEbreakStays
  intro s f w hi hsch hrun hres hrec hm hl hdecline hd
  have ha : s.armed s.regs.pc = false := by
    unfold State.bpAt at hrec
    simp [State.armed, hrec]
  obtain ⟨c, hit⟩ := iteration_of_ebreak hi.cache ha hm hl hd hdecline
  have hstep : step s = Result.andThen (iteration s) fun t => .next t.clearResume := by
    rw [step_eq_resumeIteration hsch hrun hres, resumeIteration, if_neg (by simp [ha])]
  rw [hit] at hstep
  refine ⟨_, hstep, ?_⟩
  obtain ⟨mem, cache, watcher, haltReq, haltReason, rfl⟩ := State.exists_memRead_eq hm
  rw [State.writeDst_pc]
  refine ⟨?regs, ?request, ?reason, rfl, ?count⟩
  case regs => rw [State.finishIteration_eq, ← hi.registers.pendPc]; rfl
  case request => simp [State.finishIteration_run, hrun]
  case reason => simp [State.finishIteration_run, hrun]
  case count => rw [State.finishIteration_eq]; rfl

end Sys2Proof.Machine

/-! Breakpoints (R230 to R244): what each command and each operation of the manager's internal port writes in the
table, what `disassemble` shows whether or not an address is armed, and what a step of any agent leaves of the
records. -/

namespace Sys2Proof.Machine

/-! ## The table as a map (R33) -/

theorem Sparse.lookup_eq_none_iff {β : Type} {k : Nat} {l : List (Nat × β)} :
    Sparse.lookup k l = none ↔ ∀ p ∈ l, p.1 ≠ k := by
  induction l with
  | nil => simp [Sparse.lookup]
  | cons q l ih =>
    by_cases h : q.1 = k
    · simp [Sparse.lookup, h]
    · simp [Sparse.lookup, h, ih]

/-- A record written at one address is there after, and every other address keeps its own. -/
theorem State.bpAt_of_insert {s t : State} {a : Addr} {b : Bool} (e : t.bp = Sparse.insert a.toNat b s.bp) :
    t.bpAt a = some b ∧ ∀ x, x ≠ a → t.bpAt x = s.bpAt x := by
  unfold State.bpAt
  rw [e]
  exact ⟨Sparse.lookup_insert_self .., fun x hx => Sparse.lookup_insert_ne (mt BitVec.eq_of_toNat_eq hx) ..⟩

/-- A record erased at one address is gone after, and every other address keeps its own. -/
theorem State.bpAt_of_erase {s t : State} {a : Addr} (e : t.bp = Sparse.erase a.toNat s.bp) :
    t.bpAt a = none ∧ ∀ x, x ≠ a → t.bpAt x = s.bpAt x := by
  unfold State.bpAt
  rw [e]
  exact ⟨Sparse.lookup_erase_self .., fun x hx => Sparse.lookup_erase_ne (mt BitVec.eq_of_toNat_eq hx) ..⟩

/-! ## `set_breakpoint` and `clear_breakpoint` (R231, R232) -/

theorem runCommand_setBreakpoint_of_none {s : State} {a : Addr} (hh : s.run.runState = .halted)
    (hb : s.bpAt a = none) :
    runCommand (.setBreakpoint a) s = .next ((s.setEnabled a true).ok .setBreakpoint .unit) := by
  simp only [runCommand, cmdSetBreakpoint, State.whenHalted_of_halted hh, hb]; rfl

theorem runCommand_setBreakpoint_of_some {s : State} {a : Addr} {b : Bool} (hh : s.run.runState = .halted)
    (hb : s.bpAt a = some b) :
    runCommand (.setBreakpoint a) s = .next ((s.dcInvalidateAt a).ok .setBreakpoint .unit) := by
  simp only [runCommand, cmdSetBreakpoint, State.whenHalted_of_halted hh, hb]

/-- Settles O44: a record is written where there is none, so that the second time there is one to leave. -/
theorem setBreakpoint : Obligations.SetBreakpoint := by
  unfold Obligations.SetBreakpoint
  intro s a hh
  cases hb : s.bpAt a with
  | none =>
    obtain ⟨hself, hother⟩ :=
      State.bpAt_of_insert (s := s) (t := (s.setEnabled a true).ok .setBreakpoint .unit) rfl
    exact ⟨_, runCommand_setBreakpoint_of_none hh hb, hself, hother, fun _ => State.mem_dcInvalidateAt, rfl,
      _, runCommand_setBreakpoint_of_some hh hself, rfl⟩
  | some b =>
    exact ⟨_, runCommand_setBreakpoint_of_some hh hb, hb, fun _ _ => rfl, fun _ => State.mem_dcInvalidateAt, rfl,
      _, runCommand_setBreakpoint_of_some (b := b) hh hb, rfl⟩

/-- Settles O45: the record at the address is erased, if there is one. -/
theorem clearBreakpoint : Obligations.ClearBreakpoint := by
  unfold Obligations.ClearBreakpoint
  intro s a hh
  have hcmd : runCommand (.clearBreakpoint a) s = .next (cmdClearBreakpoint a s) := rfl
  rw [hcmd, cmdClearBreakpoint, State.whenHalted_of_halted hh]
  refine ⟨fun hb => ?absent, fun b hb => ?present⟩
  case absent => rw [hb]; rfl
  case present =>
    rw [hb]
    obtain ⟨hself, hother⟩ := State.bpAt_of_erase (s := s) (a := a)
      (t := ({ s with bp := Sparse.erase a.toNat s.bp }.dcInvalidateAt a).ok .clearBreakpoint .unit) rfl
    exact ⟨_, rfl, hself, hother, fun _ => State.mem_dcInvalidateAt, rfl⟩

/-! ## `clear_all_breakpoints` (R233) -/

/-- Records removed one by one: a record that stays has the key of none of them. -/
theorem State.mem_bp_clearRecords {s : State} {l : BpTable} {p : Nat × Bool} (h : p ∈ (s.clearRecords l).bp) :
    p ∈ s.bp ∧ ∀ q ∈ l, p.1 ≠ q.1 := by
  induction l generalizing s with
  | nil => exact ⟨h, fun _ hq => nomatch hq⟩
  | cons r l ih =>
    obtain ⟨hmem, hl⟩ := ih h
    obtain ⟨hs, hr⟩ := Sparse.mem_erase (l := s.bp) hmem
    exact ⟨hs, List.forall_mem_cons.2 ⟨hr, hl⟩⟩

/-- With every record of the table removed, none is left. -/
theorem State.bp_clearRecords_self (s : State) : (s.clearRecords s.bp).bp = [] :=
  List.eq_nil_iff_forall_not_mem.2 fun _ hp =>
    let ⟨hs, hne⟩ := State.mem_bp_clearRecords hp
    hne _ hs rfl

theorem State.mem_entries_clearRecords {s : State} {l : BpTable} {e : CacheEntry} :
    e ∈ (s.clearRecords l).cache.entries ↔ e ∈ s.cache.entries ∧ ∀ q ∈ l, e.addr ≠ BitVec.ofNat 32 q.1 := by
  induction l generalizing s with
  | nil => simp [State.clearRecords]
  | cons r l ih =>
    rw [State.clearRecords, ih, State.mem_dcInvalidateAt, List.forall_mem_cons, and_assoc]

/-- Removing records changes the table and the cache entries only. -/
theorem State.clearRecords_eq (s : State) (l : BpTable) :
    s.clearRecords l = { s with
      bp := (s.clearRecords l).bp
      cache := { s.cache with entries := (s.clearRecords l).cache.entries } } := by
  induction l generalizing s with
  | nil => rfl
  | cons r l ih => exact ih _

/-- In a table of 32-bit addresses, an address without a record is none of those the keys stand for (R33). -/
theorem State.BpOk.bpAt_eq_none_iff {s : State} (hs : s.BpOk) {a : Addr} :
    s.bpAt a = none ↔ ∀ q ∈ s.bp, a ≠ BitVec.ofNat 32 q.1 := by
  have hkey : ∀ q ∈ s.bp, q.1 ≠ a.toNat ↔ a ≠ BitVec.ofNat 32 q.1 := by
    intro q hq
    have hlt := hs.addresses q hq
    rw [Ne, Ne, ← BitVec.toNat_inj, BitVec.toNat_ofNat, Nat.mod_eq_of_lt hlt, eq_comm]
  exact Sparse.lookup_eq_none_iff.trans (forall₂_congr hkey)

/-- Settles O46: the records go one by one, each with the cache entry at its address. -/
theorem clearAllBreakpoints : Obligations.ClearAllBreakpoints := by
  unfold Obligations.ClearAllBreakpoints
  intro s hs
  refine ⟨fun hh => runCommand_of_notHalted hh (by simp [Command.validInRun]), fun hh => ?_⟩
  have hcmd : runCommand .clearAllBreakpoints s =
      .next ((s.clearRecords s.bp).ok .clearAllBreakpoints .unit) :=
    congrArg Host.Outcome.next (State.whenHalted_of_halted hh _ _)
  refine ⟨_, hcmd, s.bp_clearRecords_self, fun e => ?entries, ?frame⟩
  case entries =>
    rw [hs.bpAt_eq_none_iff]
    exact State.mem_entries_clearRecords
  case frame =>
    have heq := s.clearRecords_eq s.bp
    rw [s.bp_clearRecords_self] at heq
    exact congrArg (State.ok · .clearAllBreakpoints .unit) heq

/-! ## The queries and the manager's internal port (R234 to R237) -/

/-- Settles O47: both queries look the address up and answer. -/
theorem breakpointQueries : Obligations.BreakpointQueries := by
  unfold Obligations.BreakpointQueries
  intro s a
  have hhas : runCommand (.hasBreakpoint a) s = .next (cmdHasBreakpoint a s) := rfl
  have hasked : runManagerOp (.isEnabled a) s = managerIsEnabled a s := rfl
  rw [hhas, hasked, cmdHasBreakpoint, managerIsEnabled]
  by_cases hh : s.run.runState = .halted
  · have hrec : (s.bpAt a).isSome = decide (∃ b, Sparse.lookup a.toNat s.bp = some b) := by
      rw [Bool.eq_iff_iff, decide_eq_true_iff]; exact Option.isSome_iff_exists
    have hon : s.armed a = decide (Sparse.lookup a.toNat s.bp = some true) := by
      rw [Bool.eq_iff_iff, decide_eq_true_iff]; exact beq_iff_eq
    rw [State.whenHalted_of_halted hh, State.whenHalted_of_halted hh, if_pos hh, if_pos hh, hrec, hon]
    exact ⟨rfl, rfl⟩
  · rw [State.whenHalted_of_notHalted hh, State.whenHalted_of_notHalted hh, if_neg hh, if_neg hh]
    exact ⟨rfl, rfl⟩

/-- What `enable` and `disable` have in common: the bit of a record written, in answer to `q` (R236, R237). -/
def State.writeEnabled (s : State) (q : Asked) (a : Addr) (on : Bool) : State :=
  s.whenHalted q fun s =>
    match s.bpAt a with
    | none => s.err q .notFound
    | some _ => (s.setEnabled a on).ok q .unit

theorem runManagerOp_writeEnabled (s : State) (a : Addr) (on : Bool) :
    runManagerOp (if on then .enable a else .disable a) s =
      s.writeEnabled (if on then .enable else .disable) a on := by
  cases on <;> rfl

/-- Settles O48: both operations write a record's bit, one lookup after the run-state test. -/
theorem enableDisable : Obligations.EnableDisable := by
  unfold Obligations.EnableDisable
  intro s a on
  dsimp only
  rw [runManagerOp_writeEnabled]
  generalize (if on then Asked.enable else Asked.disable) = q
  refine ⟨fun hh => State.whenHalted_of_notHalted hh _ _, fun hh hb => ?absent, fun b hh hb => ?present⟩
  case absent => rw [State.writeEnabled, State.whenHalted_of_halted hh, hb]; rfl
  case present =>
    have hop : s.writeEnabled q a on = (s.setEnabled a on).ok q .unit := by
      rw [State.writeEnabled, State.whenHalted_of_halted hh, hb]
    obtain ⟨hself, hother⟩ := State.bpAt_of_insert (s := s) (t := (s.setEnabled a on).ok q .unit) rfl
    rw [hop]
    exact ⟨hself, hother, fun _ => State.mem_dcInvalidateAt, rfl⟩

/-! ## `disassemble` (R242, R266) -/

/-- `disassemble` shows the record of the word that a read of the memory side gives, armed or not; but for the cache it
leaves what the read leaves. -/
theorem State.CacheOk.realInstruction_of_memRead {s u : State} (hs : s.CacheOk) {a : Addr} {b : List Byte}
    (hm : s.memRead a 4 = .next (b, u)) :
    ∃ c, s.realInstruction a = .next (s.params.dec a (le32 b), { u with cache := c }) := by
  have hdec := State.decodeAt_of_memRead hm
  unfold State.realInstruction
  split
  · exact ⟨_, hdec⟩
  · next ha =>
    obtain ⟨t, ht, heq, -⟩ := hs.dcGet_of_produce (r := s.params.dec a (le32 b)) (u := u.setIwbuf (le32 b))
      (by rw [State.produce, if_neg ha, hdec])
    exact ⟨t.cache, ht.trans (congrArg (fun v => Host.Outcome.next (_, v)) heq)⟩

theorem runCommand_disassemble_of_memRead {s u : State} (hs : s.CacheOk) (hh : s.run.runState = .halted) {a : Addr}
    {b : List Byte} (hm : s.memRead a 4 = .next (b, u)) :
    ∃ c, runCommand (.disassemble a) s = .next (({ u with cache := c } : State).emit
      (.response .disassemble (.ok (.text (s.params.text (s.params.dec a (le32 b))))))) := by
  obtain ⟨c, hc⟩ := hs.realInstruction_of_memRead hm
  have hp : u.params = s.params := by rw [State.memRead_shape hm]
  refine ⟨c, ?_⟩
  rw [← hp] at hc ⊢
  simp only [runCommand, cmdDisassemble, if_pos hh, hc, ResultOf.andThen]; rfl

/-- `set_breakpoint` while `Halted` leaves everything `disassemble` reads outside WATCH: memory, the parameters and the
run state. -/
theorem runCommand_setBreakpoint_frame {s : State} (hh : s.run.runState = .halted) (a : Addr) :
    ∃ u, runCommand (.setBreakpoint a) s = .next u ∧ u.mem = s.mem ∧ u.params = s.params ∧ u.run = s.run := by
  obtain ⟨u, hu, -, -, -, heq, -⟩ := setBreakpoint s a hh
  exact ⟨u, hu, by rw [heq], by rw [heq], by rw [heq]⟩

/-- Settles O50: `disassemble` reads memory whether or not the address is armed, and `set_breakpoint` writes none. -/
theorem disassembleTransparent : Obligations.DisassembleTransparent := by
  unfold Obligations.DisassembleTransparent
  intro s a hi hh
  refine ⟨fun hw => ?unwatched, fun r rest hw he hl hin => ?watched⟩
  case unwatched =>
    obtain ⟨u, hu, hmem, hparams, hrun⟩ := runCommand_setBreakpoint_frame hh a
    have hui : u.Inv := (runCommand_hostKept hu).inv hi
    have hwu : u.touchesWatch a 4 = false := by rw [State.touchesWatch_congr (congrArg Params.watch hparams), hw]
    have hread : u.rawRead a 4 = s.rawRead a 4 := State.rawRead_congr fun _ _ => by rw [hmem]
    obtain ⟨c, hs⟩ := runCommand_disassemble_of_memRead hi.cache hh (State.memRead_unwatched hw)
    obtain ⟨c', hu'⟩ := runCommand_disassemble_of_memRead hui.cache (hrun ▸ hh) (State.memRead_unwatched hwu)
    rw [hparams, hread] at hu'
    exact ⟨_, _, u, _, hs, rfl, hu, hu', rfl⟩
  case watched =>
    obtain ⟨c, hc⟩ := runCommand_disassemble_of_memRead hi.cache hh (State.memRead_reply hw he hl hin)
    rw [State.applyReply_eq, if_neg (by simp [hh])] at hc
    exact ⟨c, hc⟩

/-! ## The engine and the records (R238, R244, R290) -/

theorem iteration_bp {s t : State} (h : iteration s = .next t) : t.bp = s.bp := by
  obtain ⟨r, u, hk, rfl⟩ := iteration_kept h
  rw [State.finishIteration_eq]
  exact hk.control.bp

/-- The resume iteration disables an enabled record and enables it again, so that the table is as it was (R206). -/
theorem resumeIteration_bp {s t : State} (hs : s.BpOk) (h : resumeIteration s = .next t) : t.bp = s.bp := by
  unfold resumeIteration at h
  dsimp only at h
  split at h
  · next ha =>
    obtain ⟨u, hu, h⟩ := Result.andThen_next h
    cases h
    rw [State.clearResume_bp, State.setEnabled_bp, iteration_bp hu]
    exact hs.insert_insert_of_armed ha
  · obtain ⟨u, hu, h⟩ := Result.andThen_next h
    cases h
    exact iteration_bp (t := u) hu

/-- Settles O59: an iteration writes no record, and the resume iteration puts back the one it disables. -/
theorem engineKeepsBreakpoints : Obligations.EngineKeepsBreakpoints := by
  unfold Obligations.EngineKeepsBreakpoints
  intro s t hs h
  obtain rfl | ⟨-, ⟨-, h⟩ | ⟨-, rfl⟩ | ⟨-, -, h⟩⟩ := engineStep_next h
  · rfl
  · exact resumeIteration_bp hs h
  · rfl
  · exact iteration_bp h

/-! ## Every record stays enabled (R238) -/

section
variable {s t : State}

theorem State.AllEnabled.of_bp (h : s.AllEnabled) (e : t.bp = s.bp) : t.AllEnabled := fun p hp => h p (e ▸ hp)

theorem State.AllEnabled.setEnabled (h : s.AllEnabled) (a : Addr) : (s.setEnabled a true).AllEnabled := by
  intro p hp
  obtain rfl | hp := Sparse.mem_insert hp
  · rfl
  · exact h p hp

theorem State.AllEnabled.erase (h : s.AllEnabled) {k : Nat} (e : t.bp = Sparse.erase k s.bp) : t.AllEnabled :=
  fun p hp => h p (Sparse.mem_erase (e ▸ hp)).1

theorem State.AllEnabled.clearRecords (h : s.AllEnabled) (l : BpTable) : (s.clearRecords l).AllEnabled :=
  fun p hp => h p (State.mem_bp_clearRecords hp).1

theorem State.AllEnabled.whenHalted (h : s.AllEnabled) {q : Asked} {f : State → State} (hf : (f s).AllEnabled) :
    (s.whenHalted q f).AllEnabled := by
  unfold State.whenHalted
  split
  · exact hf
  · exact h.of_bp rfl

end

theorem State.realInstruction_bp {s t : State} {a : Addr} {r : Record} (h : s.realInstruction a = .next (r, t)) :
    t.bp = s.bp := by
  unfold State.realInstruction at h
  split at h
  · obtain ⟨b, u, hu, -, rfl⟩ := State.decodeAt_next h
    exact (State.memRead_kept hu).1.control.bp
  · exact (State.dcGet_kept h).1.control.bp

theorem cmdGetInstruction_bp {a : Addr} {s t : State} (h : cmdGetInstruction a s = .next t) : t.bp = s.bp := by
  unfold cmdGetInstruction at h
  split at h
  · obtain ⟨r, u, hu, h⟩ := ResultOf.andThen_next h
    cases h
    exact (State.dcGet_kept hu).1.control.bp
  · cases h; rfl

theorem cmdDisassemble_bp {a : Addr} {s t : State} (h : cmdDisassemble a s = .next t) : t.bp = s.bp := by
  unfold cmdDisassemble at h
  split at h
  · obtain ⟨r, u, hu, h⟩ := ResultOf.andThen_next h
    cases h
    exact State.realInstruction_bp (t := u) hu
  · cases h; rfl

/-- The commands that write no record (R230): all but `set`, `clear` and `clear_all`. -/
def Command.keepsRecords : Command → Bool
  | .setBreakpoint _ | .clearBreakpoint _ | .clearAllBreakpoints => false
  | _ => true

theorem State.whenHalted_bp {s : State} {q : Asked} {f : State → State} (hf : (f s).bp = s.bp) :
    (s.whenHalted q f).bp = s.bp := by
  unfold State.whenHalted
  split
  · exact hf
  · rfl

theorem State.writeCell_bp (s : State) (c : Cell) (v : Word) : (s.writeCell c v).bp = s.bp := by
  cases c with
  | x i => exact State.writeX_bp s i v
  | pc => unfold State.writeCell; dsimp only; split <;> rfl

/-- A command that is not about breakpoints leaves the table as it is. -/
theorem runCommand_bp {c : Command} {s t : State} (hc : c.keepsRecords = true) (h : runCommand c s = .next t) :
    t.bp = s.bp := by
  cases c with
  | halt => cases h; unfold cmdHalt; split <;> rfl
  | step n => cases h; exact State.whenHalted_bp (by dsimp only; split <;> rfl)
  | run => cases h; exact State.whenHalted_bp rfl
  | wait => cases h; unfold cmdWait; split <;> rfl
  | getRunStatus => cases h; rfl
  | getLastHaltReason => cases h; exact State.whenHalted_bp rfl
  | readRegister name => cases h; exact State.whenHalted_bp (by split <;> rfl)
  | writeRegister name v =>
    cases h
    refine State.whenHalted_bp ?_
    split
    · rfl
    · exact State.writeCell_bp s _ v
  | readMemory a n => cases h; exact State.whenHalted_bp rfl
  | writeMemory a b => cases h; exact State.whenHalted_bp rfl
  | setBreakpoint a => cases hc
  | clearBreakpoint a => cases hc
  | clearAllBreakpoints => cases hc
  | hasBreakpoint a => cases h; exact State.whenHalted_bp rfl
  | getInstruction a => exact cmdGetInstruction_bp h
  | disassemble a => exact cmdDisassemble_bp h

/-- Every new record is enabled (R231), and no command disables one (R238). -/
theorem runCommand_allEnabled {c : Command} {s t : State} (hs : s.AllEnabled) (h : runCommand c s = .next t) :
    t.AllEnabled := by
  cases hc : c.keepsRecords with
  | true => exact hs.of_bp (runCommand_bp hc h)
  | false =>
    cases c with
    | setBreakpoint a =>
      cases h
      refine hs.whenHalted ?_
      cases s.bpAt a with
      | none => exact hs.setEnabled a
      | some b => exact hs.of_bp rfl
    | clearBreakpoint a =>
      cases h
      refine hs.whenHalted ?_
      split
      · exact hs.of_bp rfl
      · exact hs.erase rfl
    | clearAllBreakpoints => cases h; exact hs.whenHalted (hs.clearRecords s.bp)
    | _ => cases hc

/-- Of the manager's operations `disable` alone leaves a record disabled (R236, R237). -/
theorem runManagerOp_allEnabled {op : ManagerOp} {s : State} (hs : s.AllEnabled) (hop : ∀ a, op ≠ .disable a) :
    (runManagerOp op s).AllEnabled := by
  cases op with
  | isEnabled a => exact hs.whenHalted (hs.of_bp rfl)
  | enable a =>
    refine hs.whenHalted ?_
    split
    · exact hs.of_bp rfl
    · exact hs.setEnabled a
  | disable a => exact absurd rfl (hop a)

theorem engineStep_allEnabled {s t : State} (hb : s.BpOk) (hs : s.AllEnabled) (h : engineStep s = .next t) :
    t.AllEnabled := hs.of_bp (engineKeepsBreakpoints s t hb h)

theorem runTurn_allEnabled {u : Turn} {s t : State} (hb : s.BpOk) (hs : s.AllEnabled)
    (hu : ∀ a, u ≠ .manager (.disable a)) (h : runTurn u s = .next t) : t.AllEnabled := by
  cases u with
  | engine => exact engineStep_allEnabled hb hs h
  | host c => exact runCommand_allEnabled hs h
  | manager op => cases h; exact runManagerOp_allEnabled hs fun a e => hu a (congrArg Turn.manager e)
  | environment e => cases h; exact hs.of_bp rfl
  | storeAroundEngine a b => cases h

/-- Settles O60: the engine leaves the table as it is, and of the other turns only the manager's `disable` leaves a
record disabled. -/
theorem recordsStayEnabled : Obligations.RecordsStayEnabled := by
  unfold Obligations.RecordsStayEnabled
  intro s t hb hs hsch h
  unfold step nextTurn at h
  split at h
  · exact engineStep_allEnabled hb hs h
  · next u rest hu =>
    have hdisable : ∀ a, u ≠ .manager (.disable a) := fun a e => hsch a (by rw [hu, e]; rfl)
    exact runTurn_allEnabled (s := { s with port := { s.port with schedule := rest } })
      (hb.of_bp rfl) (hs.of_bp rfl) hdisable h

end Sys2Proof.Machine

/-! Registers, memory and instructions as a host reads and writes them while `Halted` (R260 to R265). -/

namespace Sys2Proof.Machine

/-! ## Registers (R261, R262) -/

theorem runCommand_readRegister_of_some {s : State} {name : String} {c : Cell} (hh : s.run.runState = .halted)
    (hc : cellOf name = some c) :
    runCommand (.readRegister name) s = .next (s.ok .readRegister (.word (s.readCell c))) := by
  simp only [runCommand, cmdReadRegister, State.whenHalted_of_halted hh, hc]

theorem runCommand_readRegister_of_none {s : State} {name : String} (hh : s.run.runState = .halted)
    (hc : cellOf name = none) :
    runCommand (.readRegister name) s = .next (s.err .readRegister .notFound) := by
  simp only [runCommand, cmdReadRegister, State.whenHalted_of_halted hh, hc]

/-- `read_register` depends on a name through the cell it names alone (R25, R261). -/
theorem runCommand_readRegister_congr {alt name : String} (h : cellOf alt = cellOf name) (s : State) :
    runCommand (.readRegister alt) s = runCommand (.readRegister name) s := by
  simp only [runCommand, cmdReadRegister, h]

theorem runCommand_writeRegister_of_some {s : State} {name : String} {c : Cell} (v : Word)
    (hh : s.run.runState = .halted) (hc : cellOf name = some c) :
    runCommand (.writeRegister name v) s = .next ((s.writeCell c v).ok .writeRegister .unit) := by
  simp only [runCommand, cmdWriteRegister, State.whenHalted_of_halted hh, hc]

/-- A write of a general cell changes the array of general cells only (R23). -/
theorem State.writeX_eq (s : State) (i : Reg) (v : Word) :
    s.writeX i v = { s with regs := { s.regs with x := (s.writeX i v).regs.x } } := by
  unfold State.writeX
  split <;> rfl

/-- A host write of the pc as one update (R262): a software-breakpoint reason goes with it. -/
theorem State.writeCell_pc (s : State) (v : Word) :
    s.writeCell .pc v = { s with
      regs := { s.regs with pc := v }
      run := { s.run with haltReason :=
        if s.run.haltReason = .softwareBreakpoint then .none else s.run.haltReason } } := by
  by_cases h : s.run.haltReason = .softwareBreakpoint
  · rw [if_pos h]; exact if_pos h
  · rw [if_neg h]; exact if_neg h

/-- Settles O40: after the run-state test the name decides, by its cell alone. -/
theorem readRegister : Obligations.ReadRegister := by
  unfold Obligations.ReadRegister
  intro s name
  refine ⟨fun hh => ?running, fun hh hc => ?unknown, fun i hh hc => ?general, fun hh hc => ?pc, fun alt h => ?sameCell⟩
  case running => exact runCommand_of_notHalted hh (by simp [Command.validInRun])
  case unknown => exact runCommand_readRegister_of_none hh hc
  case general => exact runCommand_readRegister_of_some hh hc
  case pc => exact runCommand_readRegister_of_some hh hc
  case sameCell => exact runCommand_readRegister_congr h s

/-- Settles O41: the command is a write of the cell, and the response leaves the registers. -/
theorem writeGeneralRegister : Obligations.WriteGeneralRegister := by
  unfold Obligations.WriteGeneralRegister
  intro s name v i hh hc
  refine ⟨_, runCommand_writeRegister_of_some v hh hc, ?own, fun r hr => ?others, ?frame⟩
  case own => exact s.readX_writeX_self i v
  case others => exact s.readX_writeX_ne hr v
  case frame => exact congrArg (State.ok · .writeRegister .unit) (s.writeX_eq i v)

/-- Settles O42: the name `pc` names the pc cell, whose host write is one update. -/
theorem writePcClearsBreakpointReason : Obligations.WritePcClearsBreakpointReason := by
  unfold Obligations.WritePcClearsBreakpointReason
  intro s v hh
  have hpc : cellOf "pc" = some .pc := if_pos rfl
  rw [runCommand_writeRegister_of_some v hh hpc, State.writeCell_pc]
  rfl

/-! ## Memory (R263, R264) -/

theorem runCommand_writeMemory_of_halted {s : State} (hh : s.run.runState = .halted) (a : Addr) (b : List Byte) :
    runCommand (.writeMemory a b) s =
      .next (((s.rawWrite a b).dcInvalidate a b.length).ok .writeMemory .unit) :=
  congrArg Host.Outcome.next (State.whenHalted_of_halted hh _ _)

theorem runCommand_readMemory_of_halted {s : State} (hh : s.run.runState = .halted) (a : Addr) (n : Nat) :
    runCommand (.readMemory a n) s = .next (s.ok .readMemory (.bytes (s.rawRead a n))) :=
  congrArg Host.Outcome.next (State.whenHalted_of_halted hh _ _)

/-- Settles O43: the write is a raw write and an invalidation, which leaves memory as the raw read needs it. -/
theorem writeThenReadMemory : Obligations.WriteThenReadMemory := by
  unfold Obligations.WriteThenReadMemory
  intro s a b hh
  refine ⟨_, runCommand_writeMemory_of_halted hh a b, fun k hk hlast => ?inside, fun x hx => ?outside,
    fun e => ?entries, rfl, fun hb => ?readBack⟩
  case inside => exact Memory.byte_storeBytes_inside s.mem a b k hlast hk
  case outside => exact Memory.byte_storeBytes_outside s.mem a x b hx
  case entries => exact State.mem_dcInvalidate (s := s.rawWrite a b)
  case readBack =>
    generalize ht : ((s.rawWrite a b).dcInvalidate a b.length).ok .writeMemory .unit = t
    have hread : t.rawRead a b.length = b := by rw [← ht]; exact s.rawRead_rawWrite a b hb
    have hrun : t.run.runState = .halted := by rw [← ht]; exact hh
    rw [runCommand_readMemory_of_halted hrun, hread]
    rfl

/-! ## Instructions (R265) -/

theorem runCommand_getInstruction_of_dcGet {s t : State} (hh : s.run.runState = .halted) {a : Addr} {r : Record}
    (h : s.dcGet a = .next (r, t)) :
    runCommand (.getInstruction a) s = .next (t.emit (.response .getInstruction (.ok (.record r)))) := by
  simp only [runCommand, cmdGetInstruction, if_pos hh, h, ResultOf.andThen, State.ok]

/-- Settles O49: a valid cache serves the code visible at the address, and where there is none, since the word is
WATCHER's, a decode of the reply. -/
theorem getInstructionShowsServedRecord : Obligations.GetInstructionShowsServedRecord := by
  unfold Obligations.GetInstructionShowsServedRecord
  intro s a hi hh
  refine ⟨fun hcode => ?visible, fun r rest ha hw he hl hin => ?watched⟩
  case visible =>
    obtain ⟨t, ht, heq, -⟩ := hi.cache.dcGet_of_codeAt (State.codeAt_eq hcode)
    refine ⟨t.cache, ?_⟩
    rw [← heq]
    exact runCommand_getInstruction_of_dcGet hh ht
  case watched =>
    have hdec : s.dcGet a = .next (s.params.dec a (le32 r.bytes), (s.applyReply a 4 r rest).setIwbuf (le32 r.bytes)) :=
      (hi.cache.dcGet_of_codeAt_none (State.codeAt_eq_none.2 ⟨ha, hw⟩)).trans
        (State.decodeAt_of_memRead (State.memRead_reply hw he hl hin))
    rw [State.applyReply_eq, if_neg (by simp [hh])] at hdec
    exact ⟨_, runCommand_getInstruction_of_dcGet hh hdec⟩

end Sys2Proof.Machine

/-! The two exceptional events as state updates: a fault is logged and its handler asked (R283), a breakpoint event is
put to the external handlers (R282). -/

namespace Sys2Proof.Machine

/-- Settles O52: the update is the one that the step over an illegal word makes. -/
theorem raiseLogsAndAsks : Obligations.RaiseLogsAndAsks := by
  unfold Obligations.RaiseLogsAndAsks
  exact State.raiseFault_eq

/-- An event that no handler answers is unclaimed, and the state is as it was (R282). -/
theorem State.breakpointEvent_of_declined {s : State} {a : Addr}
    (h : askHandlers a s.env.bpHandlers = .decline) : s.breakpointEvent a = (false, s) := by
  simp only [State.breakpointEvent, h]

/-- An event that a handler answers is claimed, and of the two claims one alone requests a halt (R282). -/
theorem State.breakpointEvent_of_claimed {s : State} {a : Addr} (h : askHandlers a s.env.bpHandlers ≠ .decline) :
    s.breakpointEvent a = (true,
      if askHandlers a s.env.bpHandlers = .claimAndHalt then s.requestHalt .semihostRequest else s) := by
  unfold State.breakpointEvent
  cases hans : askHandlers a s.env.bpHandlers with
  | decline => exact absurd hans h
  | claim => rfl
  | claimAndHalt => rfl

/-- Settles O53: the chain's answer is that of the first handler that claims, or a decline where there is none, and
the event follows the answer. -/
theorem firstResponderWins : Obligations.FirstResponderWins := by
  unfold Obligations.FirstResponderWins
  intro s a
  refine ⟨fun hdecline => ?unclaimed, fun before h after hl hbefore hclaims => ?claimed⟩
  case unclaimed => exact State.breakpointEvent_of_declined (askHandlers_eq_decline hdecline)
  case claimed =>
    have hask : askHandlers a s.env.bpHandlers = h.answer a := hl ▸ askHandlers_eq_first hbefore hclaims
    rw [← hask] at hclaims ⊢
    exact State.breakpointEvent_of_claimed hclaims

end Sys2Proof.Machine
